-- ==== Sys2Proof/Word.lean ====
section
/-! DEFINITION. The block's data word and its byte (00_scope.md R9, R10): 64 bits, unsigned, bit 0 least significant. -/

namespace Sys2Proof

/-- The data word: W = 64 bits (R9). Registers and array words hold one. -/
abbrev Word := BitVec 64

/-- One byte lane of a bus access (20_memory.md R62). -/
abbrev Byte := BitVec 8

end Sys2Proof
end

