-- ==== Sys2Proof/Syntax.lean ====
section
/-! DEFINITION. The fifteen commands of the opcode map (30_encoding.md R96), one constructor a row of spec/opcode_table.json, with the
operand fields their format has (R91). The function-select field SEL is turned into a name here (R93-R95); the values that no
table names are kept as `sel n`, the assembler's qualifier .selN (R102). -/

namespace Sys2Proof

/-- An operand register index, X0 to X15. Every index is valid (R92). -/
abbrev Reg := Fin 16

/-- SEL read as a bit shift (R93). -/
inductive ShiftSel where
  | s64
  | s52
  | s32
  | sel (n : Nat)   -- values 3 to 7, which name no shift
  deriving DecidableEq, Repr

/-- SEL read as an input mod factor (R94). -/
inductive FactorSel where
  | f1
  | f2
  | f4
  | f8
  | sel (n : Nat)   -- values 4 to 7, which name no factor
  deriving DecidableEq, Repr

/-- SEL read as a requested path (R95). -/
inductive ModeSel where
  | auto
  | scalar
  | wide64
  | narrow52
  | reference
  | sel (n : Nat)   -- values 5 to 7, which name no mode
  deriving DecidableEq, Repr

/-- A decoded command. Operands stand in the order RD, RS1, RS2, RS3, SEL (R102). -/
inductive Instr where
  | mfact (rd rs1 : Reg) (bs : ShiftSel)
  | mullazy (rd rs1 rs2 rs3 : Reg) (bs : ShiftSel)
  | mulmod (rd rs1 rs2 : Reg)
  | mulmodp (rd rs1 rs2 rs3 : Reg)
  | bred (rd rs1 rs2 : Reg)
  | reduce (rd rs1 : Reg) (mf : FactorSel)
  | addmod (rd rs1 rs2 : Reg)
  | submod (rd rs1 rs2 : Reg)
  | powmod (rd rs1 rs2 : Reg)
  | invmod (rd rs1 : Reg)
  | bitrev (rd rs1 rs2 : Reg)
  | brevbuf
  | tbuild (rs1 : Reg)
  | fntt (mode : ModeSel)
  | intt (mode : ModeSel)
  deriving DecidableEq, Repr

end Sys2Proof
end

