-- ==== Sys2Proof/WellFormed.lean ====
section
/-! DEFINITION. Which terms of `Instr` are commands the encoding holds. Register indexes are valid by their type (30_encoding.md R92);
what is left to check is the raw select value: it must fit the three bits of SEL (R90), and it must be one that the opcode's
table does not already name (R93-R95), so that every command word has one spelling. -/

namespace Sys2Proof

/-- A raw bit-shift select is one of 3 to 7 (R93). -/
def ShiftSel.wellFormed : ShiftSel → Bool
  | .s64 => true
  | .s52 => true
  | .s32 => true
  | .sel n => 3 ≤ n && n < 8

/-- A raw factor select is one of 4 to 7 (R94). -/
def FactorSel.wellFormed : FactorSel → Bool
  | .f1 => true
  | .f2 => true
  | .f4 => true
  | .f8 => true
  | .sel n => 4 ≤ n && n < 8

/-- A raw mode select is one of 5 to 7 (R95). -/
def ModeSel.wellFormed : ModeSel → Bool
  | .auto => true
  | .scalar => true
  | .wide64 => true
  | .narrow52 => true
  | .reference => true
  | .sel n => 5 ≤ n && n < 8

/-- The well-formed commands. -/
def Instr.wellFormed : Instr → Bool
  | .mfact _ _ bs => bs.wellFormed
  | .mullazy _ _ _ _ bs => bs.wellFormed
  | .mulmod _ _ _ => true
  | .mulmodp _ _ _ _ => true
  | .bred _ _ _ => true
  | .reduce _ _ mf => mf.wellFormed
  | .addmod _ _ _ => true
  | .submod _ _ _ => true
  | .powmod _ _ _ => true
  | .invmod _ _ => true
  | .bitrev _ _ _ => true
  | .brevbuf => true
  | .tbuild _ => true
  | .fntt mode => mode.wellFormed
  | .intt mode => mode.wellFormed

end Sys2Proof
end

