-- ==== Sys2Proof/Decode.lean ====
section
/-! DEFINITION. Command words: the decoder of 30_encoding.md R101 (total on all 64-bit values, each refusal by its name), the encoder
of R103, and the byte lanes of a bus word (20_memory.md R62). -/

namespace Sys2Proof

/-! ## Bits and byte lanes -/

/-- `v[hi:lo]`, the bits hi down to lo of v (00_scope.md R11). -/
def bits (v hi lo : Nat) : Nat := v / 2 ^ lo % 2 ^ (hi - lo + 1)

/-- Byte lane b carries bits [8b+7 : 8b] (R62). -/
def byteLane (w : Word) (b : Nat) : Byte := BitVec.ofNat 8 (bits w.toNat (8 * b + 7) (8 * b))

/-- The eight byte lanes of a word, lane 0 (the lowest address) first (R62). -/
def bytesOfWord (w : Word) : List Byte := (List.range 8).map (byteLane w)

/-- The number that byte lanes hold, lane 0 least significant (R62). -/
def natOfBytes : List Byte → Nat
  | [] => 0
  | b :: bs => b.toNat + 256 * natOfBytes bs

/-- The word that eight byte lanes hold (R62). -/
def wordOfBytes (bs : List Byte) : Word := BitVec.ofNat 64 (natOfBytes bs)

/-! ## The select field -/

/-- SEL as a bit shift (R93). -/
def ShiftSel.ofNat : Nat → ShiftSel
  | 0 => .s64
  | 1 => .s52
  | 2 => .s32
  | n => .sel n

/-- SEL as an input mod factor (R94). -/
def FactorSel.ofNat : Nat → FactorSel
  | 0 => .f1
  | 1 => .f2
  | 2 => .f4
  | 3 => .f8
  | n => .sel n

/-- SEL as a requested path (R95). -/
def ModeSel.ofNat : Nat → ModeSel
  | 0 => .auto
  | 1 => .scalar
  | 2 => .wide64
  | 3 => .narrow52
  | 4 => .reference
  | n => .sel n

/-- The SEL value of a bit shift (R93, R102). -/
def ShiftSel.toNat : ShiftSel → Nat
  | .s64 => 0
  | .s52 => 1
  | .s32 => 2
  | .sel n => n

/-- The SEL value of a factor (R94, R102). -/
def FactorSel.toNat : FactorSel → Nat
  | .f1 => 0
  | .f2 => 1
  | .f4 => 2
  | .f8 => 3
  | .sel n => n

/-- The SEL value of a mode (R95, R102). -/
def ModeSel.toNat : ModeSel → Nat
  | .auto => 0
  | .scalar => 1
  | .wide64 => 2
  | .narrow52 => 3
  | .reference => 4
  | .sel n => n

/-! ## The decoder -/

/-- Why a command value is an illegal encoding (R98). -/
inductive DecodeError where
  | illegalOpcode   -- OPC not in the opcode map (R96)
  | reservedBits    -- a 1 in bits [63:27] (R97)
  | unusedField     -- a non-zero field that the format marks 0 (R97)
  deriving DecidableEq, Repr

/-- The formats of R91. -/
inductive Format where
  | f0
  | f1s
  | f1
  | f2
  | f3
  deriving DecidableEq, Repr

/-- The fields that R91 marks 0 for a format are 0 in c; `sel` says that the opcode uses SEL (R96), else SEL must be 0 too. -/
def Format.unusedZero (f : Format) (sel : Bool) (c : Nat) : Bool :=
  (match f with
    | .f0 => bits c 11 8 == 0 && bits c 15 12 == 0 && bits c 19 16 == 0 && bits c 23 20 == 0
    | .f1s => bits c 11 8 == 0 && bits c 19 16 == 0 && bits c 23 20 == 0
    | .f1 => bits c 19 16 == 0 && bits c 23 20 == 0
    | .f2 => bits c 23 20 == 0
    | .f3 => true)
  && (sel || bits c 26 24 == 0)

/-- The four-bit register field of c whose lowest bit is lo (R92). -/
def regField (c lo : Nat) : Reg := Fin.ofNat 16 (bits c (lo + 3) lo)

/-- The third check of R101, then the command. -/
def Format.accept (f : Format) (sel : Bool) (c : Nat) (i : Instr) : Except DecodeError Instr :=
  if f.unusedZero sel c then .ok i else .error .unusedField

/-- Decoding a command value (R101): bits [63:27] first, then the opcode (R96), then the fields the format marks 0. A select value
that no table names decodes, and its command raises the error when it runs (R98). -/
def decodeCommand (v : Word) : Except DecodeError Instr :=
  let c := v.toNat
  let rd := regField c 8
  let rs1 := regField c 12
  let rs2 := regField c 16
  let rs3 := regField c 20
  let sel := bits c 26 24
  if bits c 63 27 ≠ 0 then .error .reservedBits
  else
    match bits c 7 0 with
    | 0x01 => Format.accept .f1 true c (.mfact rd rs1 (ShiftSel.ofNat sel))
    | 0x02 => Format.accept .f3 true c (.mullazy rd rs1 rs2 rs3 (ShiftSel.ofNat sel))
    | 0x03 => Format.accept .f2 false c (.mulmod rd rs1 rs2)
    | 0x04 => Format.accept .f3 false c (.mulmodp rd rs1 rs2 rs3)
    | 0x05 => Format.accept .f2 false c (.bred rd rs1 rs2)
    | 0x06 => Format.accept .f1 true c (.reduce rd rs1 (FactorSel.ofNat sel))
    | 0x10 => Format.accept .f2 false c (.addmod rd rs1 rs2)
    | 0x11 => Format.accept .f2 false c (.submod rd rs1 rs2)
    | 0x12 => Format.accept .f2 false c (.powmod rd rs1 rs2)
    | 0x13 => Format.accept .f1 false c (.invmod rd rs1)
    | 0x20 => Format.accept .f2 false c (.bitrev rd rs1 rs2)
    | 0x21 => Format.accept .f0 false c .brevbuf
    | 0x30 => Format.accept .f1s false c (.tbuild rs1)
    | 0x40 => Format.accept .f0 true c (.fntt (ModeSel.ofNat sel))
    | 0x41 => Format.accept .f0 true c (.intt (ModeSel.ofNat sel))
    | _ => .error .illegalOpcode

/-- The host's question: the instruction that the decoder reads from the word w of nbits bits, carried to CMD as eight byte lanes,
every bit above nbits 0 (R90, R62). -/
def decodeTableWord (nbits w : Nat) : Option Instr :=
  (decodeCommand (wordOfBytes (bytesOfWord (BitVec.ofNat 64 (w % 2 ^ nbits))))).toOption

/-! ## The encoder -/

/-- The command word of R103. The fields do not overlap, so the sum is the bitwise or. -/
def commandWord (opc rd rs1 rs2 rs3 sel : Nat) : Word :=
  BitVec.ofNat 64 (sel * 2 ^ 24 + rs3 * 2 ^ 20 + rs2 * 2 ^ 16 + rs1 * 2 ^ 12 + rd * 2 ^ 8 + opc)

/-- The word of a well-formed command (R91, R96, R103). -/
def encode : Instr → Word
  | .mfact rd rs1 bs => commandWord 0x01 rd rs1 0 0 bs.toNat
  | .mullazy rd rs1 rs2 rs3 bs => commandWord 0x02 rd rs1 rs2 rs3 bs.toNat
  | .mulmod rd rs1 rs2 => commandWord 0x03 rd rs1 rs2 0 0
  | .mulmodp rd rs1 rs2 rs3 => commandWord 0x04 rd rs1 rs2 rs3 0
  | .bred rd rs1 rs2 => commandWord 0x05 rd rs1 rs2 0 0
  | .reduce rd rs1 mf => commandWord 0x06 rd rs1 0 0 mf.toNat
  | .addmod rd rs1 rs2 => commandWord 0x10 rd rs1 rs2 0 0
  | .submod rd rs1 rs2 => commandWord 0x11 rd rs1 rs2 0 0
  | .powmod rd rs1 rs2 => commandWord 0x12 rd rs1 rs2 0 0
  | .invmod rd rs1 => commandWord 0x13 rd rs1 0 0 0
  | .bitrev rd rs1 rs2 => commandWord 0x20 rd rs1 rs2 0 0
  | .brevbuf => commandWord 0x21 0 0 0 0 0
  | .tbuild rs1 => commandWord 0x30 0 rs1 0 0 0
  | .fntt mode => commandWord 0x40 0 0 0 0 mode.toNat
  | .intt mode => commandWord 0x41 0 0 0 0 mode.toNat

end Sys2Proof
end

