-- ==== Sys2Proof/Config.lean ====
section
/-! DEFINITION. What an instance of the block fixes: the constants of the spec, the parameters of 00_scope.md R8, and the free
values that the spec leaves unspecified (93_implementation_defined.md U1, U2, U4). -/

namespace Sys2Proof

/-- The parameters of R8, fixed for a block instance. `State` carries them as constant data, so that a statement about every state
holds for every instance (notes/assumptions/3.md). No rule reads the lane counts (44_dispatch.md R210). -/
structure Config.Params where
  blockBase    : Nat    -- BLOCK_BASE, the host address of the window
  nMaxLog2     : Nat    -- N_MAX_LOG2, log2 of the capacity of each array in words
  wide64Impl   : Bool   -- WIDE64_IMPL
  narrow52Impl : Bool   -- NARROW52_IMPL
  lanesWide    : Nat    -- LANES_WIDE
  lanesNarrow  : Nat    -- LANES_NARROW
  deriving DecidableEq, Repr

/-- The legal values of R8's table. -/
def Config.Params.legal (p : Config.Params) : Bool :=
  3 ≤ p.nMaxLog2 && p.nMaxLog2 ≤ 20 && 1 ≤ p.lanesWide && 1 ≤ p.lanesNarrow

/-- DESIGN CHOICE (notes/assumptions/3.md): the instance that `State.reset` belongs to. The spec leaves every parameter open; the
paths and the capacity are those of 95_test_vectors.md's conventions (CAP = 0xA03). -/
def Config.params : Config.Params where
  blockBase := 0
  nMaxLog2 := 10
  wide64Impl := true
  narrow52Impl := true
  lanesWide := 1
  lanesNarrow := 1

/-- The value of ID for every instance (10_state.md R37). -/
def Config.idWord : Word := 0x000000004E540007

/-- The size in bytes of the host-visible window (20_memory.md R60). -/
def Config.windowSize : Nat := 0x08000000

/-- FULL_MOD_BOUND (R9): the paths SCALAR, WIDE64, REFERENCE and TBUILD need q below it. -/
def Config.fullModBound : Nat := 2 ^ 62

/-- NARROW_MOD_BOUND (R9): the path NARROW52 needs q below it. -/
def Config.narrowModBound : Nat := 2 ^ 50

/-- FREE VALUE (notes/assumptions/4.md): what the array byte at a window offset holds after the given reset, until it is written
(10_state.md R54; U2, U4). Arguments: how many resets there have been, the byte's offset. -/
opaque Config.arrayAtReset : Nat → Nat → Byte

/-- FREE VALUE (notes/assumptions/5.md): what a read while busy returns (20_memory.md R68; U1). Argument: the number of the draw. -/
opaque Config.busyRead : Nat → Word

end Sys2Proof
end

