-- ==== Sys2Proof/Machine/State.lean ====
section
/-! DEFINITION. The machine's state as plain data (10_state.md R30-R55), the reasons a step can stop, and the state after reset. The
list of every piece with its rule and reset value is INVENTORY.md, State. -/

namespace Sys2Proof.Machine

/-- The four datapath configurations behind the dispatch mux (44_dispatch.md R200). -/
inductive NttPath where
  | scalar
  | wide64
  | narrow52
  | reference
  deriving DecidableEq, Repr

/-- Error classes (60_exceptions.md R221). Values 5 to 7 of STATUS.ERR are never produced, so they have no constructor. -/
inductive ErrClass where
  | none
  | invalidArgument
  | domain
  | internal
  | illegalCommand
  deriving DecidableEq, Repr

/-- Detail codes 0 to 24 (R222), in the order of their numbers. Codes above 24 are never produced. -/
inductive Detail where
  | none
  | illegalOpcode
  | reservedBits
  | unusedField
  | modZero
  | badBitshift
  | badModfactor
  | badMode
  | operandGtMod
  | operandGeMod
  | xTooWide
  | modTooWide
  | bitrevWidth
  | bitrevValue
  | degreeNotPow2
  | degreeRange
  | pathUnavailable
  | modeUnsupported
  | modPathBound
  | modNotNttFriendly
  | rootNotPrimitive
  | tableMismatch
  | elemRange
  | notInvertible
  | postcondition
  deriving DecidableEq, Repr

/-- The enable bits of CTRL (10_state.md R39). CLR_HAZ reads 0 and holds nothing. -/
structure Ctrl where
  enWide64   : Bool
  enNarrow52 : Bool
  deriving DecidableEq, Repr

/-- The fields of STATUS (R40) but BUSY, which is 1 exactly while a command is pending (R220, R223; notes/assumptions/9.md). -/
structure Status where
  done      : Bool
  err       : ErrClass
  fatal     : Bool
  hazard    : Bool
  tblValid  : Bool
  lastPath  : Option NttPath   -- none is LAST_PATH 0
  errDetail : Detail
  deriving DecidableEq, Repr

/-- The snapshot that acceptance takes: X0 to X15, MODULUS, DEGREE and CTRL (R53, 60_exceptions.md R220). -/
structure Snapshot where
  x       : Vector Word 16
  modulus : Word
  degree  : Word
  ctrl    : Ctrl
  deriving DecidableEq, Repr

/-- The pending command: the accepted value and its snapshot (R53, R220). -/
structure Pending where
  word : Word
  snap : Snapshot
  deriving DecidableEq, Repr

/-- What host, platform and scheduler do next (notes/assumptions/1.md). Addresses are the host's byte addresses; a write carries
its byte lanes, lowest address first (20_memory.md R62). -/
inductive Input where
  | memRead (addr n : Nat)                    -- MemRead(addr, n) (00_scope.md R13)
  | memWrite (addr : Nat) (lanes : List Byte)  -- MemWrite(addr, n, v), n the number of lanes
  | reset (asserted : Bool)                   -- the reset input takes this level (70_reset_and_hazards.md R250)
  | completion                                -- the scheduler takes the completion step now (R258)
  deriving DecidableEq, Repr

/-- The block's answer to the last bus access: `ok v` or `busError` (60_exceptions.md R229), the data as byte lanes. -/
inductive Response where
  | noAccess
  | readOk (lanes : List Byte)
  | writeOk
  | busError
  deriving DecidableEq, Repr

/-- The arrays' bytes written since reset, keyed by window offset: a list in one canonical form (notes/assumptions/4.md). -/
abbrev Memory := List Host.Cell

/-- The whole machine. The fields from `params` on are the model's own or constant (INVENTORY.md, State). -/
structure State where
  x         : Vector Word 16    -- X0 to X15 (R30)
  ctrl      : Ctrl              -- CTRL (R39)
  status    : Status            -- STATUS (R40)
  cmd       : Word              -- CMD, the last accepted value (R41)
  errCmd    : Word              -- ERR_CMD (R42)
  modulus   : Word              -- MODULUS (R43)
  degree    : Word              -- DEGREE (R44)
  tblN      : Word              -- TBL_N (R51)
  tblQ      : Word              -- TBL_Q (R51)
  tblRoot   : Word              -- TBL_ROOT (R51)
  mem       : Memory            -- BUF and the five table arrays (R45-R50)
  pending   : Option Pending    -- the pending command (R53)
  inReset   : Bool              -- the reset input is asserted (R250)
  params    : Config.Params     -- the instance's parameters (00_scope.md R8)
  inputs    : List Input        -- what reaches the block next, in delivery order (R70)
  response  : Response          -- the answer to the last bus access (R229)
  draws     : Nat               -- unspecified values drawn by reads so far (R68)
  resets    : Nat               -- resets so far (R54)
  deriving DecidableEq, Repr

/-- Why the machine stops. -/
inductive Fault where
  /-- Raised by a bus access whose address lies outside the window (20_memory.md R60): the block does not receive it, and the spec
  says nothing of it. Safe: the model stops where the platform goes on (notes/assumptions/6.md). -/
  | outsideWindow
  deriving DecidableEq, Repr

/-- Why an instruction has no meaning. -/
inductive Refusal where
  /-- Raised by an arm of exec that has no meaning yet; no arm is in this state. Safe. -/
  | notModelled (mnemonic : String)
  deriving DecidableEq, Repr

/-- Right after reset (10_state.md R54, 70_reset_and_hazards.md R250, R252): idle, every register 0, no path but SCALAR and
REFERENCE enabled, no table valid, no array byte written. DESIGN CHOICE: the instance's parameters (notes/assumptions/3.md)
and the model's own fields (notes/assumptions/12.md). -/
def State.reset : State where
  x := Vector.replicate 16 0
  ctrl := { enWide64 := false, enNarrow52 := false }
  status := { done := false, err := .none, fatal := false, hazard := false, tblValid := false, lastPath := none, errDetail := .none }
  cmd := 0
  errCmd := 0
  modulus := 0
  degree := 0
  tblN := 0
  tblQ := 0
  tblRoot := 0
  mem := []
  pending := none
  inReset := false
  params := Config.params
  inputs := []
  response := .noAccess
  draws := 0
  resets := 0

end Sys2Proof.Machine
end

