-- ==== Sys2Proof/Machine/Flags.lean ====
section
/-! DEFINITION. STATUS: the class and the code of each detail (60_exceptions.md R221, R222), what acceptance and completion do to
the flags (R220, R224, R225), and the register words as the host reads them (10_state.md R38-R40). -/

namespace Sys2Proof.Machine

/-- STATUS.ERR of a class (R221). -/
def ErrClass.code : ErrClass → Nat
  | .none => 0
  | .invalidArgument => 1
  | .domain => 2
  | .internal => 3
  | .illegalCommand => 4

/-- STATUS.ERR_DETAIL of a detail (R222). -/
def Detail.code : Detail → Nat
  | .none => 0
  | .illegalOpcode => 1
  | .reservedBits => 2
  | .unusedField => 3
  | .modZero => 4
  | .badBitshift => 5
  | .badModfactor => 6
  | .badMode => 7
  | .operandGtMod => 8
  | .operandGeMod => 9
  | .xTooWide => 10
  | .modTooWide => 11
  | .bitrevWidth => 12
  | .bitrevValue => 13
  | .degreeNotPow2 => 14
  | .degreeRange => 15
  | .pathUnavailable => 16
  | .modeUnsupported => 17
  | .modPathBound => 18
  | .modNotNttFriendly => 19
  | .rootNotPrimitive => 20
  | .tableMismatch => 21
  | .elemRange => 22
  | .notInvertible => 23
  | .postcondition => 24

/-- The one class each detail belongs to (R222). -/
def Detail.errClass : Detail → ErrClass
  | .none => .none
  | .illegalOpcode => .illegalCommand
  | .reservedBits => .illegalCommand
  | .unusedField => .illegalCommand
  | .notInvertible => .domain
  | .postcondition => .internal
  | .modZero => .invalidArgument
  | .badBitshift => .invalidArgument
  | .badModfactor => .invalidArgument
  | .badMode => .invalidArgument
  | .operandGtMod => .invalidArgument
  | .operandGeMod => .invalidArgument
  | .xTooWide => .invalidArgument
  | .modTooWide => .invalidArgument
  | .bitrevWidth => .invalidArgument
  | .bitrevValue => .invalidArgument
  | .degreeNotPow2 => .invalidArgument
  | .degreeRange => .invalidArgument
  | .pathUnavailable => .invalidArgument
  | .modeUnsupported => .invalidArgument
  | .modPathBound => .invalidArgument
  | .modNotNttFriendly => .invalidArgument
  | .rootNotPrimitive => .invalidArgument
  | .tableMismatch => .invalidArgument
  | .elemRange => .invalidArgument

/-- STATUS.LAST_PATH of a path (44_dispatch.md R200). -/
def NttPath.code : NttPath → Nat
  | .scalar => 1
  | .wide64 => 2
  | .narrow52 => 3
  | .reference => 4

/-- STATUS.LAST_PATH, 0 for none (10_state.md R40). -/
def pathCode : Option NttPath → Nat
  | none => 0
  | some p => p.code

/-- Acceptance clears DONE, ERR and ERR_DETAIL (R220). -/
def Status.accepted (st : Status) : Status := { st with done := false, err := .none, errDetail := .none }

/-- Completion with a detail: DONE, ERR and ERR_DETAIL, and FATAL where the class is INTERNAL (R223-R225). Detail none is success. -/
def Status.completed (st : Status) (d : Detail) : Status :=
  { st with done := true, err := d.errClass, errDetail := d, fatal := st.fatal || d.errClass == .internal }

/-- STATUS.BUSY: 1 from acceptance until completion (R40). -/
def State.busy (s : State) : Bool := s.pending.isSome

/-- The number of a Bool as a bit. -/
def bitOf (b : Bool) : Nat := if b then 1 else 0

/-- STATUS as the host reads it (R40); reserved bits read 0. -/
def State.statusWord (s : State) : Word :=
  BitVec.ofNat 64
    (bitOf s.busy + bitOf s.status.done * 2 + s.status.err.code * 2 ^ 2 + bitOf s.status.fatal * 2 ^ 5
      + bitOf s.status.hazard * 2 ^ 6 + bitOf s.status.tblValid * 2 ^ 7 + pathCode s.status.lastPath * 2 ^ 8
      + s.status.errDetail.code * 2 ^ 16)

/-- CTRL as the host reads it (R39): CLR_HAZ and the reserved bits read 0. -/
def Ctrl.word (c : Ctrl) : Word := BitVec.ofNat 64 (bitOf c.enWide64 + bitOf c.enNarrow52 * 2)

/-- CAP as the host reads it (R38). -/
def capWord (p : Config.Params) : Word :=
  BitVec.ofNat 64 (bitOf p.wide64Impl + bitOf p.narrow52Impl * 2 + p.nMaxLog2 % 2 ^ 5 * 2 ^ 8)

/-- What a write of v leaves in CTRL's enables: an enable whose path is not implemented is hardwired 0 (R39). -/
def Ctrl.written (p : Config.Params) (v : Word) : Ctrl where
  enWide64 := p.wide64Impl && v.getLsbD 0
  enNarrow52 := p.narrow52Impl && v.getLsbD 1

end Sys2Proof.Machine
end

