-- ==== Sys2Proof/Machine/Operands.lean ====
section
/-! DEFINITION. Where a command's inputs come from: the snapshot taken at acceptance (10_state.md R32, R53), the select field
(30_encoding.md R93-R95), and the form of a rule's checks (00_scope.md R14). -/

namespace Sys2Proof.Machine

/-- The live values of the registers that a snapshot holds (60_exceptions.md R220). -/
def State.snapshot (s : State) : Snapshot where
  x := s.x
  modulus := s.modulus
  degree := s.degree
  ctrl := s.ctrl

/-- The values a command runs against: the pending command's snapshot (R223). DESIGN CHOICE (notes/assumptions/7.md): with nothing
pending, which no step runs a command in, the live values. -/
def State.operands (s : State) : Snapshot :=
  match s.pending with
  | some p => p.snap
  | none => s.snapshot

/-- `x[RSn]` at acceptance (30_encoding.md R92). -/
def State.src (s : State) (r : Reg) : Nat := (s.operands.x[r]).toNat

/-- `q = CSR.MODULUS` at acceptance (40_modmul.md R110). -/
def State.q (s : State) : Nat := s.operands.modulus.toNat

/-- `n = CSR.DEGREE` at acceptance (43_ntt.md R170). -/
def State.n (s : State) : Nat := s.operands.degree.toNat

/-- `check COND else D`, then the rest of the rule (R14). -/
def check {α : Type} (c : Prop) [Decidable c] (d : Detail) (rest : Except Detail α) : Except Detail α :=
  if c then rest else .error d

/-- The bit shift s that SEL names (30_encoding.md R93). -/
def shiftWidth : ShiftSel → Option Nat
  | .s64 => some 64
  | .s52 => some 52
  | .s32 => some 32
  | .sel _ => none

/-- The input mod factor that SEL names (R94). -/
def inputFactor : FactorSel → Option Nat
  | .f1 => some 1
  | .f2 => some 2
  | .f4 => some 4
  | .f8 => some 8
  | .sel _ => none

/-- The requested path that SEL names (R95): `some none` is AUTO, `some (some p)` the forced path p. -/
def requestedPath : ModeSel → Option (Option NttPath)
  | .auto => some none
  | .scalar => some (some .scalar)
  | .wide64 => some (some .wide64)
  | .narrow52 => some (some .narrow52)
  | .reference => some (some .reference)
  | .sel _ => none

/-- The value that a select names, else the detail that R101 raises for one that names none. -/
def withSelect {α β : Type} (value : Option β) (d : Detail) (rest : β → Except Detail α) : Except Detail α :=
  match value with
  | some b => rest b
  | none => .error d

end Sys2Proof.Machine
end

