-- ==== Sys2Proof/Machine/Ops.lean ====
section
/-! DEFINITION. The named operations over the arrays and the registers, acceptance, completion, and raising a command error. -/

namespace Sys2Proof.Machine

/-! ## The arrays -/

/-- The array byte written at window offset a, none where nothing has been written since reset. -/
def Memory.find (m : Memory) (a : Nat) : Option Byte :=
  match m with
  | [] => none
  | c :: m => if c.1 = a then some c.2 else Memory.find m a

/-- The cells that hold the bytes bs from offset a on. -/
def cellsAt (a : Nat) (bs : List Byte) : Memory :=
  match bs with
  | [] => []
  | b :: bs => (a, b) :: cellsAt (a + 1) bs

/-- Stores bytes at consecutive offsets from a, keeping the cells in rising order. -/
def Memory.store (m : Memory) (a : Nat) (bs : List Byte) : Memory :=
  m.filter (fun c => c.1 < a) ++ cellsAt a bs ++ m.filter (fun c => a + bs.length ≤ c.1)

/-- The canonical form: offsets strictly rising. An unlisted offset is one nothing has written, so no listed byte equals what it
reads as. -/
def Memory.wf : Memory → Bool
  | [] => true
  | c :: m => m.all (fun d => c.1 < d.1) && Memory.wf m

/-- The block's arrays (10_state.md R45-R50). -/
inductive ArrayId where
  | buf
  | fwdPow
  | fwdPre64
  | fwdPre52
  | invPow
  | invPre64
  deriving DecidableEq, Repr

/-- The window offset of an array's word 0 (20_memory.md R61). -/
def ArrayId.base : ArrayId → Nat
  | .buf => 0x01000000
  | .fwdPow => 0x02000000
  | .fwdPre64 => 0x03000000
  | .fwdPre52 => 0x04000000
  | .invPow => 0x05000000
  | .invPre64 => 0x06000000

/-- Stores words from word 0 of an array on. -/
def Memory.storeWords (m : Memory) (arr : ArrayId) (ws : List Word) : Memory := m.store arr.base (ws.flatMap bytesOfWord)

/-- N_MAX, the capacity in words of each array (00_scope.md R8). -/
def State.nMax (s : State) : Nat := 2 ^ s.params.nMaxLog2

/-- The array byte at window offset a: what was written last, else the free value of the last reset (10_state.md R54; U2, U4). -/
def State.readByte (s : State) (a : Nat) : Byte := (Memory.find s.mem a).getD (Config.arrayAtReset s.resets a)

/-- The eight array bytes from window offset a on, lowest first. -/
def State.readLanes (s : State) (a : Nat) : List Byte := (List.range 8).map fun b => s.readByte (a + b)

/-- The array word `A[k]` (R12, R62). -/
def State.readArray (s : State) (arr : ArrayId) (k : Nat) : Word := wordOfBytes (s.readLanes (arr.base + 8 * k))

/-- The array words `A[0 .. n-1]`. -/
def State.loadArray (s : State) (arr : ArrayId) (n : Nat) : List Word := (List.range n).map (s.readArray arr)

/-- The arrays' memory replaced. -/
def State.setMem (s : State) (m : Memory) : State := { s with mem := m }

/-- Stores bytes at a window offset of the arrays. -/
def State.storeBytes (s : State) (a : Nat) (bs : List Byte) : State := s.setMem (s.mem.store a bs)

/-- `A[0 .. length-1] <- ws` (R12); the words above are untouched (20_memory.md R78). -/
def State.storeArray (s : State) (arr : ArrayId) (ws : List Word) : State :=
  s.setMem (s.mem.storeWords arr ws)

/-! ## The registers -/

/-- `x[RD] <- v` (10_state.md R30: no register is hardwired). -/
def State.writeX (s : State) (r : Reg) (v : Word) : State := { s with x := s.x.set r.val v }

/-! ## The command life cycle -/

/-- Acceptance of the value v (60_exceptions.md R220): CMD, STATUS, and the pending command with its snapshot. -/
def State.accept (s : State) (v : Word) : State :=
  { s with cmd := v, status := s.status.accepted, pending := some { word := v, snap := s.snapshot } }

/-- Success (R223, R224): ERR and ERR_DETAIL 0, BUSY 0, DONE 1; ERR_CMD unchanged. -/
def State.succeed (s : State) : State := { s with status := s.status.completed .none, pending := none }

/-- Raising a command error, shared by every command (R223, R225): ERR and ERR_DETAIL, ERR_CMD <- CMD, FATAL for INTERNAL, BUSY 0,
DONE 1; nothing else changes. No control transfers, so there is no return (R231). -/
def State.raise (s : State) (d : Detail) : State :=
  { s with status := s.status.completed d, errCmd := s.cmd, pending := none }

/-- The end of the completion step: the rule's results or its error (R223). -/
def State.complete (s : State) (result : Except Detail State) : Host.Outcome State Fault Refusal :=
  match result with
  | .ok t => .next t.succeed
  | .error d => .next (s.raise d)

/-- The end of a scalar command: `x[RD] <- v`, or its error (R224). -/
def State.completeScalar (s : State) (rd : Reg) (result : Except Detail Nat) : Host.Outcome State Fault Refusal :=
  s.complete (result.map fun v => s.writeX rd (BitVec.ofNat 64 v))

/-- The detail that an illegal encoding raises (30_encoding.md R98, R101). -/
def detailOfDecodeError : DecodeError → Detail
  | .illegalOpcode => .illegalOpcode
  | .reservedBits => .reservedBits
  | .unusedField => .unusedField

end Sys2Proof.Machine
end

