-- ==== Sys2Proof/Machine/Bus.lean ====
section
/-! DEFINITION. The host's window (20_memory.md R60-R68): the address map, reads, writes with command issue, bus errors, and the
reset input (70_reset_and_hazards.md R250, R251). -/

namespace Sys2Proof.Machine

/-- What the address map names (R61; 10_state.md R34). -/
inductive Place where
  | id
  | cap
  | ctrl
  | status
  | cmd
  | errCmd
  | modulus
  | degree
  | tblN
  | tblQ
  | tblRoot
  | xreg (r : Reg)
  | array (arr : ArrayId) (k : Nat)
  | reserved
  deriving DecidableEq, Repr

/-- The control registers by word number, offset / 8 (10_state.md R34). -/
def registerAt (w : Nat) : Place :=
  match w with
  | 0x00 => .id
  | 0x01 => .cap
  | 0x02 => .ctrl
  | 0x03 => .status
  | 0x04 => .cmd
  | 0x05 => .errCmd
  | 0x06 => .modulus
  | 0x07 => .degree
  | 0x08 => .tblN
  | 0x09 => .tblQ
  | 0x0A => .tblRoot
  | _ => .reserved

/-- The array whose 16 MiB region has this number (20_memory.md R61). -/
def arrayAt (region : Nat) : Option ArrayId :=
  match region with
  | 1 => some .buf
  | 2 => some .fwdPow
  | 3 => some .fwdPre64
  | 4 => some .fwdPre52
  | 5 => some .invPow
  | 6 => some .invPre64
  | _ => none

/-- The address map (R61) at an aligned offset, for arrays of nMax words. -/
def placeAt (nMax off : Nat) : Place :=
  if off < 0x100 then registerAt (off / 8)
  else if off < 0x180 then .xreg (Fin.ofNat 16 ((off - 0x100) / 8))
  else
    match arrayAt (off / 0x01000000) with
    | some arr => if off % 0x01000000 / 8 < nMax then .array arr (off % 0x01000000 / 8) else .reserved
    | none => .reserved

/-- The word a place holds, as the host reads it while the block is idle (10_state.md R34-R51). -/
def State.placeWord (s : State) (p : Place) : Word :=
  match p with
  | .id => Config.idWord
  | .cap => capWord s.params
  | .ctrl => s.ctrl.word
  | .status => s.statusWord
  | .cmd => s.cmd
  | .errCmd => s.errCmd
  | .modulus => s.modulus
  | .degree => s.degree
  | .tblN => s.tblN
  | .tblQ => s.tblQ
  | .tblRoot => s.tblRoot
  | .xreg r => s.x[r]
  | .array arr k => s.readArray arr k
  | .reserved => 0

/-- The places whose reads return an unspecified value while the block is busy (20_memory.md R68). -/
def Place.unspecifiedWhileBusy : Place → Bool
  | .xreg _ => true
  | .array _ _ => true
  | .tblN => true
  | .tblQ => true
  | .tblRoot => true
  | .id => false
  | .cap => false
  | .ctrl => false
  | .status => false
  | .cmd => false
  | .errCmd => false
  | .modulus => false
  | .degree => false
  | .reserved => false

/-- The places a host may write (R61, R66); the others are RO or reserved. -/
def Place.writable : Place → Bool
  | .ctrl => true
  | .cmd => true
  | .modulus => true
  | .degree => true
  | .xreg _ => true
  | .array .buf _ => true
  | .array .fwdPow _ => false
  | .array .fwdPre64 _ => false
  | .array .fwdPre52 _ => false
  | .array .invPow _ => false
  | .array .invPre64 _ => false
  | .id => false
  | .cap => false
  | .status => false
  | .errCmd => false
  | .tblN => false
  | .tblQ => false
  | .tblRoot => false
  | .reserved => false

/-- A bus error response and no effect (60_exceptions.md R229). -/
def State.busError (s : State) : State := { s with response := .busError }

/-- The window takes only 8-byte accesses at offsets that are multiples of 8, and only while reset is not asserted (20_memory.md
R63, R64; 70_reset_and_hazards.md R250). -/
def State.takesAccess (s : State) (off n : Nat) : Bool := n == 8 && off % 8 == 0 && !s.inReset

/-- `MemRead(BLOCK_BASE + off, n)` (R63-R65, R68). No read has a side effect on the block (R67); a read of an unspecified value
draws the next free value. -/
def State.memRead (s : State) (off n : Nat) : State :=
  if s.takesAccess off n then
    let p := placeAt s.nMax off
    if p = .reserved then s.busError
    else if s.busy && p.unspecifiedWhileBusy then
      { s with response := .readOk (bytesOfWord (Config.busyRead s.draws)), draws := s.draws + 1 }
    else { s with response := .readOk (bytesOfWord (s.placeWord p)) }
  else s.busError

/-- A write of CTRL: the enables, and CLR_HAZ where bit 8 is set (10_state.md R39). -/
def State.writeCtrl (s : State) (v : Word) : State :=
  { s with
    ctrl := Ctrl.written s.params v
    status := { s.status with hazard := s.status.hazard && !v.getLsbD 8 } }

/-- An accepted write of v to a writable place other than CMD stores its value (20_memory.md R67). -/
def State.writePlace (s : State) (p : Place) (v : Word) : State :=
  match p with
  | .ctrl => s.writeCtrl v
  | .modulus => { s with modulus := v }
  | .degree => { s with degree := v }
  | .xreg r => s.writeX r v
  | .array arr k => s.storeBytes (arr.base + 8 * k) (bytesOfWord v)
  | .cmd => s.accept v
  | .id => s
  | .cap => s
  | .status => s
  | .errCmd => s
  | .tblN => s
  | .tblQ => s
  | .tblRoot => s
  | .reserved => s

/-- A write refused because the block is busy: bus error and HAZARD (R68; 60_exceptions.md R228). -/
def State.refuseBusy (s : State) : State := { s with response := .busError, status := { s.status with hazard := true } }

/-- `MemWrite(BLOCK_BASE + off, n, v)`, n and v given by the byte lanes (R63-R68; 60_exceptions.md R220, R227, R229).
DEDUCED (notes/assumptions/21.md): a busy block refuses a write of wrong width or alignment without setting HAZARD. -/
def State.memWrite (s : State) (off : Nat) (lanes : List Byte) : State :=
  if s.takesAccess off lanes.length then
    let p := placeAt s.nMax off
    if p.writable then
      if s.busy then s.refuseBusy
      else if p = .cmd ∧ s.status.fatal = true then s.busError
      else { s.writePlace p (wordOfBytes lanes) with response := .writeOk }
    else s.busError
  else s.busError

/-- The byte address addr lies in the window (R60). -/
def State.inWindow (s : State) (addr : Nat) : Bool :=
  s.params.blockBase ≤ addr && addr < s.params.blockBase + Config.windowSize

/-- The state when the reset input is released (70_reset_and_hazards.md R250, R251; 10_state.md R54): every piece at its reset
value, the instance's constants and the model's own fields kept, and new array contents. -/
def State.afterReset (s : State) : State :=
  { State.reset with
    params := s.params
    inputs := s.inputs
    response := s.response
    draws := s.draws
    resets := s.resets + 1 }

/-- The reset input takes a level (R250). DEDUCED (notes/assumptions/10.md, 11.md): the state takes its reset values at the release,
and a level the input already has changes nothing. -/
def State.setReset (s : State) (asserted : Bool) : State :=
  if asserted then { s with inReset := true } else if s.inReset then s.afterReset else s

/-- A host read at the byte address addr; an address outside the window is no access to the block (notes/assumptions/6.md). -/
def State.busRead (s : State) (addr n : Nat) : Host.Outcome State Fault Refusal :=
  if s.inWindow addr then .next (s.memRead (addr - s.params.blockBase) n) else .fault .outsideWindow

/-- A host write at the byte address addr; an address outside the window is no access to the block (notes/assumptions/6.md). -/
def State.busWrite (s : State) (addr : Nat) (lanes : List Byte) : Host.Outcome State Fault Refusal :=
  if s.inWindow addr then .next (s.memWrite (addr - s.params.blockBase) lanes) else .fault .outsideWindow

end Sys2Proof.Machine
end

