-- ==== Sys2Proof/Machine/Arith.lean ====
section
/-! DEFINITION. The named helper functions of 00_scope.md R15, on exact numbers. Every value is a natural number unless it can be
negative before `lo64` is taken, and then it is an integer (R10, R15). -/

namespace Sys2Proof.Machine

/-- `lo64(v)` = v mod 2^64, in [0, 2^64) also for a negative v (R10, R15). -/
def lo64 (v : Int) : Nat := (v % 2 ^ 64).toNat

/-- The word that stores `lo64(v)`. -/
def wordOf (v : Int) : Word := BitVec.ofNat 64 (lo64 v)

/-- `hi_s(a, b)`, the high-word product (R15). -/
def hiProduct (s a b : Nat) : Nat := lo64 (a * b / 2 ^ s : Nat)

/-- `MFACT_s(op, q)`, the Barrett factor (R15). -/
def barrettFactor (s op q : Nat) : Nat := lo64 (op * 2 ^ s / q : Nat)

/-- `LAZY_s(x, y, f, q)`, the lazy Barrett multiply (R15): the difference is taken in the integers, then mod 2^64. -/
def lazyMul (s x y f q : Nat) : Nat := lo64 ((y * x : Nat) - (hiProduct s x f * q : Nat))

/-- One conditional subtraction. -/
def subIfGe (r b : Nat) : Nat := if r ≥ b then r - b else r

/-- `REDUCE_mf(x, q)`: exact compares and subtractions of 4q, 2q and q, as far as mf asks (R15, 40_modmul.md R116). -/
def reduceBy (mf x q : Nat) : Nat :=
  let r := if mf ≥ 8 then subIfGe x (4 * q) else x
  let r := if mf ≥ 4 then subIfGe r (2 * q) else r
  if mf ≥ 2 then subIfGe r q else r

/-- `ADDM(a, b, q)` (R15). -/
def addMod (a b q : Nat) : Nat := subIfGe (a + b) q

/-- `SUBM(a, b, q)` (R15). -/
def subMod (a b q : Nat) : Nat := if a ≥ b then a - b else a + q - b

/-- `MULM(a, b, q)` (R15). -/
def mulMod (a b q : Nat) : Nat := a * b % q

/-- The loop of binary exponentiation (41_addsub_pow.md R133); `fuel` bounds the bits of e. -/
def powLoop (q : Nat) : (fuel r a e : Nat) → Nat
  | 0, r, _, _ => r
  | fuel + 1, r, a, e =>
    if e = 0 then r else powLoop q fuel (if e % 2 = 1 then r * a % q else r) (a * a % q) (e / 2)

/-- `(a mod q)^e mod q`, with 0^0 = 1 (R133). -/
def powMod (a e q : Nat) : Nat := powLoop q (e.log2 + 1) (1 % q) (a % q) e

/-- The loop of the extended Euclidean algorithm: r0, r1 are the remainders, and t0, t1 the multiples of a they are congruent to. -/
def euclidLoop : (fuel r0 r1 : Nat) → (t0 t1 : Int) → Int
  | 0, _, _, t0, _ => t0
  | fuel + 1, r0, r1, t0, t1 =>
    if r1 = 0 then t0 else euclidLoop fuel r1 (r0 % r1) t1 (t0 - (r0 / r1 : Nat) * t1)

/-- `INVM(a, q)`: the v in [0, q) with a v mod q = 1, where gcd(a, q) = 1 and q ≥ 2 (R15). The rules call it nowhere else. DEDUCED
(notes/assumptions/15.md): the spec fixes the value, not the method (41_addsub_pow.md R134). -/
def invMod (a q : Nat) : Nat := (euclidLoop (q + 1) q (a % q) 0 1 % q).toNat

/-- `bitrev_k(i)`: bit b of i goes to bit k - 1 - b (R15). -/
def bitRev : (k i : Nat) → Nat
  | 0, _ => 0
  | k + 1, i => i % 2 * 2 ^ k + bitRev k (i / 2)

end Sys2Proof.Machine
end

