-- ==== Sys2Proof/Machine/AddSub.lean ====
section
/-! DEFINITION. modular_add_sub_mod (41_addsub_pow.md): ADDMOD, SUBMOD, POWMOD, INVMOD. -/

namespace Sys2Proof.Machine

/-- R131. -/
def addmodResult (a b q : Nat) : Except Detail Nat :=
  check (q ≠ 0) .modZero <|
  check (a < q) .operandGeMod <|
  check (b < q) .operandGeMod <|
  .ok (addMod a b q)

/-- R132. -/
def submodResult (a b q : Nat) : Except Detail Nat :=
  check (q ≠ 0) .modZero <|
  check (a < q) .operandGeMod <|
  check (b < q) .operandGeMod <|
  .ok (subMod a b q)

/-- R133. -/
def powmodResult (a e q : Nat) : Except Detail Nat :=
  check (q ≠ 0) .modZero <|
  .ok (powMod a e q)

/-- R134: the argument is reduced first. -/
def invmodResult (a q : Nat) : Except Detail Nat :=
  check (q ≠ 0) .modZero <|
  check (a % q ≠ 0) .notInvertible <|
  check (Nat.gcd (a % q) q = 1) .notInvertible <|
  .ok (invMod (a % q) q)

/-- ADDMOD (R131): `x[RD] <- (A + B) mod q`. -/
def execAddmod (rd rs1 rs2 : Reg) (s : State) : Host.Outcome State Fault Refusal :=
  s.completeScalar rd (addmodResult (s.src rs1) (s.src rs2) s.q)

/-- SUBMOD (R132): `x[RD] <- (A - B) mod q`. -/
def execSubmod (rd rs1 rs2 : Reg) (s : State) : Host.Outcome State Fault Refusal :=
  s.completeScalar rd (submodResult (s.src rs1) (s.src rs2) s.q)

/-- POWMOD (R133): `x[RD] <- (A mod q)^E mod q`. -/
def execPowmod (rd rs1 rs2 : Reg) (s : State) : Host.Outcome State Fault Refusal :=
  s.completeScalar rd (powmodResult (s.src rs1) (s.src rs2) s.q)

/-- INVMOD (R134): `x[RD] <- INVM(A mod q, q)`. -/
def execInvmod (rd rs1 : Reg) (s : State) : Host.Outcome State Fault Refusal :=
  s.completeScalar rd (invmodResult (s.src rs1) s.q)

end Sys2Proof.Machine
end

