-- ==== Sys2Proof/Machine/BitReverse.lean ====
section
/-! DEFINITION. bit_reverse_unit (42_bitrev_table.md): BITREV, BREVBUF, and the degree check that BREVBUF, TBUILD, FNTT and INTT
share (43_ntt.md R170). -/

namespace Sys2Proof.Machine

/-- `CHECK_DEGREE(n)` (43_ntt.md R170). -/
def checkDegree {α : Type} (n nMax : Nat) (rest : Except Detail α) : Except Detail α :=
  check (n ≠ 0 ∧ n &&& (n - 1) = 0) .degreeNotPow2 <|
  check (2 ≤ n ∧ n ≤ nMax) .degreeRange <|
  rest

/-- R150. MODULUS is not read. -/
def bitrevResult (v k : Nat) : Except Detail Nat :=
  check (k ≤ 64) .bitrevWidth <|
  check (v < 2 ^ k) .bitrevValue <|
  .ok (bitRev k v)

/-- The words of old in bit-reversed order: word k is `old[bitrev_L(k)]`, L = log2 of their number (R151). -/
def bitReversed (old : List Word) : List Word :=
  (List.range old.length).map fun k => old.getD (bitRev old.length.log2 k) 0

/-- BITREV (R150): `x[RD] <- bitrev_K(V)`. -/
def execBitrev (rd rs1 rs2 : Reg) (s : State) : Host.Outcome State Fault Refusal :=
  s.completeScalar rd (bitrevResult (s.src rs1) (s.src rs2))

/-- BREVBUF (R151): BUF[0 .. n-1] in bit-reversed order; MODULUS is not read. -/
def execBrevbuf (s : State) : Host.Outcome State Fault Refusal :=
  s.complete (checkDegree s.n s.nMax (.ok (s.storeArray .buf (bitReversed (s.loadArray .buf s.n)))))

end Sys2Proof.Machine
end

