-- ==== Sys2Proof/Machine/ModMul.lean ====
section
/-! DEFINITION. modular_multiply_reduce (40_modmul.md): MFACT, MULLAZY, MULMOD, MULMODP, BRED, REDUCE. Each rule's checks and formula
stand in a function of its operand values; the meaning reads the operands and completes. -/

namespace Sys2Proof.Machine

/-- R111. -/
def mfactResult (bs : ShiftSel) (op q : Nat) : Except Detail Nat :=
  withSelect (shiftWidth bs) .badBitshift fun s =>
  check (q ≠ 0) .modZero <|
  check (op ≤ q) .operandGtMod <|
  .ok (barrettFactor s op q)

/-- R112. -/
def mullazyResult (bs : ShiftSel) (x y f q : Nat) : Except Detail Nat :=
  withSelect (shiftWidth bs) .badBitshift fun s =>
  check (q ≠ 0) .modZero <|
  check (y < q) .operandGeMod <|
  check (q ≤ 2 ^ s - 1) .modTooWide <|
  check (x ≤ 2 ^ s - 1) .xTooWide <|
  .ok (lazyMul s x y f q)

/-- R114. -/
def mulmodResult (a b q : Nat) : Except Detail Nat :=
  check (q ≠ 0) .modZero <|
  check (a < q) .operandGeMod <|
  check (b < q) .operandGeMod <|
  .ok (mulMod a b q)

/-- R115. -/
def mulmodpResult (a b p q : Nat) : Except Detail Nat :=
  check (q ≠ 0) .modZero <|
  check (a < q) .operandGeMod <|
  check (b < q) .operandGeMod <|
  .ok (subIfGe (lazyMul 64 a b p q) q)

/-- R118: `r <- lo64(V - Qh q)`, then one conditional subtraction. -/
def bredResult (v b q : Nat) : Except Detail Nat :=
  check (q ≠ 0) .modZero <|
  .ok (subIfGe (lo64 (v - (hiProduct 64 v b * q : Nat))) q)

/-- R116. -/
def reduceResult (mf : FactorSel) (v q : Nat) : Except Detail Nat :=
  withSelect (inputFactor mf) .badModfactor fun f =>
  check (q ≠ 0) .modZero <|
  .ok (reduceBy f v q)

/-- MFACT (R111): `x[RD] <- MFACT_s(op, q)`. -/
def execMfact (rd rs1 : Reg) (bs : ShiftSel) (s : State) : Host.Outcome State Fault Refusal :=
  s.completeScalar rd (mfactResult bs (s.src rs1) s.q)

/-- MULLAZY (R112): `x[RD] <- LAZY_s(X, Y, F, q)`. -/
def execMullazy (rd rs1 rs2 rs3 : Reg) (bs : ShiftSel) (s : State) : Host.Outcome State Fault Refusal :=
  s.completeScalar rd (mullazyResult bs (s.src rs1) (s.src rs2) (s.src rs3) s.q)

/-- MULMOD (R114): `x[RD] <- (A B) mod q`. -/
def execMulmod (rd rs1 rs2 : Reg) (s : State) : Host.Outcome State Fault Refusal :=
  s.completeScalar rd (mulmodResult (s.src rs1) (s.src rs2) s.q)

/-- MULMODP (R115): the lazy multiply at s = 64 and one conditional subtraction. -/
def execMulmodp (rd rs1 rs2 rs3 : Reg) (s : State) : Host.Outcome State Fault Refusal :=
  s.completeScalar rd (mulmodpResult (s.src rs1) (s.src rs2) (s.src rs3) s.q)

/-- BRED (R118): Barrett reduction of any 64-bit value. -/
def execBred (rd rs1 rs2 : Reg) (s : State) : Host.Outcome State Fault Refusal :=
  s.completeScalar rd (bredResult (s.src rs1) (s.src rs2) s.q)

/-- REDUCE (R116): bounded reduction by conditional subtractions. -/
def execReduce (rd rs1 : Reg) (mf : FactorSel) (s : State) : Host.Outcome State Fault Refusal :=
  s.completeScalar rd (reduceResult mf (s.src rs1) s.q)

end Sys2Proof.Machine
end

