-- ==== Sys2Proof/Machine/DispatchMux.lean ====
section
/-! DEFINITION. hardware_dispatch_mux (44_dispatch.md): availability, path selection, and the shared validation of FNTT and INTT
(43_ntt.md R170). -/

namespace Sys2Proof.Machine

/-- The direction of a transform. -/
inductive Direction where
  | fwd
  | inv
  deriving DecidableEq, Repr

/-- `avail(p)` (R201). -/
def avail (params : Config.Params) (ctrl : Ctrl) : NttPath → Bool
  | .scalar => true
  | .reference => true
  | .wide64 => params.wide64Impl && ctrl.enWide64
  | .narrow52 => params.narrow52Impl && ctrl.enNarrow52

/-- `bound(p)` (R204, R206). -/
def pathBound : NttPath → Nat
  | .narrow52 => Config.narrowModBound
  | .scalar => Config.fullModBound
  | .wide64 => Config.fullModBound
  | .reference => Config.fullModBound

/-- The path AUTO picks (R202, R203). -/
def autoPath (params : Config.Params) (ctrl : Ctrl) (dir : Direction) (q : Nat) : NttPath :=
  if dir = .fwd ∧ avail params ctrl .narrow52 = true ∧ q < Config.narrowModBound then .narrow52
  else if avail params ctrl .wide64 = true then .wide64
  else .scalar

/-- A forced path runs or the command raises; it never falls back (R204, R205). -/
def forcedPath (params : Config.Params) (ctrl : Ctrl) (dir : Direction) (p : NttPath) (q : Nat) : Except Detail NttPath :=
  check (¬(dir = .inv ∧ p = .narrow52)) .modeUnsupported <|
  check (avail params ctrl p = true) .pathUnavailable <|
  check (q < pathBound p) .modPathBound <|
  .ok p

/-- `RESOLVE_PATH(dir, mode, q)` (R204). -/
def resolvePath (params : Config.Params) (ctrl : Ctrl) (dir : Direction) (mode : Option NttPath) (q : Nat) :
    Except Detail NttPath :=
  match mode with
  | none => check (q < Config.fullModBound) .modPathBound <| .ok (autoPath params ctrl dir q)
  | some p => forcedPath params ctrl dir p q

/-- The checks of NTT_VALIDATE after the path is resolved (43_ntt.md R170): the congruence, the table match, the element range. -/
def State.nttChecks (s : State) (path : NttPath) : Except Detail NttPath :=
  check (s.q % (2 * s.n) = 1) .modNotNttFriendly <|
  check (s.status.tblValid = true ∧ s.tblN.toNat = s.n ∧ s.tblQ.toNat = s.q) .tableMismatch <|
  check ((s.loadArray .buf s.n).all fun w => w.toNat < s.q) .elemRange <|
  .ok path

/-- `NTT_VALIDATE(dir, mode)` (43_ntt.md R170), after the decode check of SEL (30_encoding.md R101). CTRL is the snapshot's
(44_dispatch.md R209). -/
def State.nttValidate (s : State) (dir : Direction) (m : ModeSel) : Except Detail NttPath :=
  withSelect (requestedPath m) .badMode fun mode =>
  check (s.q ≠ 0) .modZero <|
  checkDegree s.n s.nMax <|
  match resolvePath s.params s.operands.ctrl dir mode s.q with
  | .error d => .error d
  | .ok path => s.nttChecks path

end Sys2Proof.Machine
end

