-- ==== Sys2Proof/Machine/Ntt.lean ====
section
/-! DEFINITION. ntt_butterfly_engine (43_ntt.md): FNTT and INTT. The engine works on the list of the words BUF[0 .. n-1]. One stage
takes the groups in order; within a group every pair is disjoint from the others, so all of them are taken at once (00_scope.md
R16; notes/assumptions/16.md). -/

namespace Sys2Proof.Machine

/-- What a butterfly does to a pair (X, Y), given the twiddle W and its companion P. -/
abbrev Butterfly := Word → Word → Word → Word → Word × Word

/-- One stage (R172, R180): group i, of 2t words, pairs its word j with word j + t and uses the i-th twiddle. -/
def runStage (bfly : Butterfly) (t : Nat) : (twiddles : List (Word × Word)) → (buf : List Word) → List Word
  | [], buf => buf
  | tw :: tws, buf =>
    let pairs := List.zipWith (bfly tw.1 tw.2) (buf.take t) ((buf.drop t).take t)
    pairs.map Prod.fst ++ (pairs.map Prod.snd ++ runStage bfly t tws (buf.drop (2 * t)))

/-- The twiddles of stage m: table indexes m to 2m - 1 (R172, R180). -/
def stageTwiddles (table : List (Word × Word)) (m : Nat) : List (Word × Word) := (table.drop m).take m

/-- The forward stages m, 2m, 4m, … with half sizes t, t/2, … (R172). -/
def forwardStages (bfly : Butterfly) (table : List (Word × Word)) : (stages m t : Nat) → List Word → List Word
  | 0, _, _, buf => buf
  | stages + 1, m, t, buf =>
    forwardStages bfly table stages (2 * m) (t / 2) (runStage bfly t (stageTwiddles table m) buf)

/-- The inverse stages m, m/2, … with half sizes t, 2t, … (R180). -/
def inverseStages (bfly : Butterfly) (table : List (Word × Word)) : (stages m t : Nat) → List Word → List Word
  | 0, _, _, buf => buf
  | stages + 1, m, t, buf =>
    inverseStages bfly table stages (m / 2) (2 * t) (runStage bfly t (stageTwiddles table m) buf)

/-! ## Butterflies -/

/-- `FWD_BFLY` (R173), at precision s. -/
def fwdButterfly (s q : Nat) : Butterfly := fun w p x y =>
  let x := subIfGe x.toNat (2 * q)
  let t := lazyMul s y.toNat w.toNat p.toNat q
  (wordOf (x + t : Nat), wordOf ((x + 2 * q : Nat) - t))

/-- The butterfly of `FWD_REF` (R176): fully reduced, no companion. -/
def fwdRefButterfly (q : Nat) : Butterfly := fun w _ x y =>
  let t := mulMod y.toNat w.toNat q
  (wordOf (addMod x.toNat t q), wordOf (subMod x.toNat t q))

/-- `X' = X + Y`, kept below 2q by one conditional subtraction (R181, R183). -/
def inverseSum (q : Nat) (x y : Word) : Nat := subIfGe (x.toNat + y.toNat) (2 * q)

/-- `X + 2q - Y` (R181, R183). -/
def inverseDiff (q : Nat) (x y : Word) : Nat := lo64 ((x.toNat + 2 * q : Nat) - y.toNat)

/-- `INV_BFLY` (R181). -/
def invButterfly (q : Nat) : Butterfly := fun w p x y =>
  (wordOf (inverseSum q x y), wordOf (lazyMul 64 (inverseDiff q x y) w.toNat p.toNat q))

/-- The butterfly of `INV_REF` for m > 1 (R185). -/
def invRefButterfly (q : Nat) : Butterfly := fun w _ x y =>
  (wordOf (addMod x.toNat y.toNat q), wordOf (mulMod (subMod x.toNat y.toNat q) w.toNat q))

/-- The constants of the inverse's final stage, computed once per call (R182). -/
structure InverseConstants where
  invN   : Nat   -- inv_n
  invNP  : Nat   -- inv_n_p
  invNW  : Nat   -- inv_n_w
  invNWP : Nat   -- inv_n_w_p
  deriving DecidableEq, Repr

/-- R182, from W1 = INV_POW[1]. -/
def inverseConstants (n q w1 : Nat) : InverseConstants :=
  let invN := invMod n q
  let invNW := mulMod invN w1 q
  { invN := invN, invNP := barrettFactor 64 invN q, invNW := invNW, invNWP := barrettFactor 64 invNW q }

/-- The final stage's pair (R183): the 1/n scaling is folded into both halves. -/
def invLastButterfly (q : Nat) (c : InverseConstants) : Butterfly := fun _ _ x y =>
  (wordOf (lazyMul 64 (inverseSum q x y) c.invN c.invNP q), wordOf (lazyMul 64 (inverseDiff q x y) c.invNW c.invNWP q))

/-- The final stage's pair of `INV_REF`, m = 1 (R185). -/
def invRefLastButterfly (q : Nat) (c : InverseConstants) : Butterfly := fun _ _ x y =>
  (wordOf (mulMod (addMod x.toNat y.toNat q) c.invN q), wordOf (mulMod (subMod x.toNat y.toNat q) c.invNW q))

/-! ## The transforms of a buffer -/

/-- The final pass: `BUF[k] <- REDUCE_4(BUF[k], q)` (R174, R184). -/
def finalPass (q : Nat) (buf : List Word) : List Word := buf.map fun w => wordOf (reduceBy 4 w.toNat q)

/-- `FWD_STAGES(s, PRE)` and the final pass (R171, R172, R174). -/
def forwardLazy (s n q : Nat) (table : List (Word × Word)) (buf : List Word) : List Word :=
  finalPass q (forwardStages (fwdButterfly s q) table n.log2 1 (n / 2) buf)

/-- `FWD_REF()` (R176). -/
def forwardReference (n q : Nat) (table : List (Word × Word)) (buf : List Word) : List Word :=
  forwardStages (fwdRefButterfly q) table n.log2 1 (n / 2) buf

/-- `INV_STAGES()`, `INV_LAST()` and the final pass (R179, R180, R183, R184). -/
def inverseLazy (n q : Nat) (table : List (Word × Word)) (buf : List Word) : List Word :=
  let c := inverseConstants n q (table.getD 1 (0, 0)).1.toNat
  let buf := inverseStages (invButterfly q) table (n.log2 - 1) (n / 2) 1 buf
  finalPass q (runStage (invLastButterfly q c) (n / 2) (stageTwiddles table 1) buf)

/-- `INV_REF()` (R185). -/
def inverseReference (n q : Nat) (table : List (Word × Word)) (buf : List Word) : List Word :=
  let c := inverseConstants n q (table.getD 1 (0, 0)).1.toNat
  let buf := inverseStages (invRefButterfly q) table (n.log2 - 1) (n / 2) 1 buf
  runStage (invRefLastButterfly q c) (n / 2) (stageTwiddles table 1) buf

/-- A table column with its companion column, words 0 to n-1. Word 0 is a sentinel that no stage reads (42_bitrev_table.md R159). -/
def State.twiddleTable (s : State) (powers companion : ArrayId) (n : Nat) : List (Word × Word) :=
  (s.loadArray powers n).zip (s.loadArray companion n)

/-- What FNTT computes from BUF[0 .. n-1] on a path (R171). -/
def State.forwardOutput (s : State) (path : NttPath) : List Word :=
  let buf := s.loadArray .buf s.n
  match path with
  | .reference => forwardReference s.n s.q (s.twiddleTable .fwdPow .fwdPre64 s.n) buf
  | .narrow52 => forwardLazy 52 s.n s.q (s.twiddleTable .fwdPow .fwdPre52 s.n) buf
  | .scalar => forwardLazy 64 s.n s.q (s.twiddleTable .fwdPow .fwdPre64 s.n) buf
  | .wide64 => forwardLazy 64 s.n s.q (s.twiddleTable .fwdPow .fwdPre64 s.n) buf

/-- What INTT computes from BUF[0 .. n-1] on a path (R179). NARROW52 is never resolved for it (44_dispatch.md R205). -/
def State.inverseOutput (s : State) (path : NttPath) : List Word :=
  let buf := s.loadArray .buf s.n
  let table := s.twiddleTable .invPow .invPre64 s.n
  match path with
  | .reference => inverseReference s.n s.q table buf
  | .narrow52 => inverseLazy s.n s.q table buf
  | .scalar => inverseLazy s.n s.q table buf
  | .wide64 => inverseLazy s.n s.q table buf

/-- The end of a transform: BUF takes the computed words, then `POSTCHECK()` (R175). On success LAST_PATH records the path
(44_dispatch.md R207); on INTERNAL(POSTCONDITION) BUF keeps the words and LAST_PATH stays. -/
def State.finishTransform (s : State) (path : NttPath) (out : List Word) : Host.Outcome State Fault Refusal :=
  let t := s.storeArray .buf out
  if out.all fun w => w.toNat < s.q then
    .next (State.succeed { t with status := { t.status with lastPath := some path } })
  else .next (t.raise .postcondition)

/-- FNTT (R171): the forward negacyclic NTT of BUF[0 .. n-1], in place. -/
def execFntt (mode : ModeSel) (s : State) : Host.Outcome State Fault Refusal :=
  match s.nttValidate .fwd mode with
  | .error d => .next (s.raise d)
  | .ok path => s.finishTransform path (s.forwardOutput path)

/-- INTT (R179): the inverse negacyclic NTT of BUF[0 .. n-1], in place. -/
def execIntt (mode : ModeSel) (s : State) : Host.Outcome State Fault Refusal :=
  match s.nttValidate .inv mode with
  | .error d => .next (s.raise d)
  | .ok path => s.finishTransform path (s.inverseOutput path)

end Sys2Proof.Machine
end

