-- ==== Sys2Proof/Machine/Table.lean ====
section
/-! DEFINITION. power_table_rom and its builder (42_bitrev_table.md R152-R159): TBUILD. -/

namespace Sys2Proof.Machine

/-- `IS_PRIMITIVE_2N(G)`: G^(2n) is 1 and G^n is not (R158). -/
def isPrimitive2n (g n q : Nat) : Bool := powMod g (2 * n) q == 1 && powMod g n q != 1

/-- R153: FWD_POW. The word at index k is G^bitrev_L(k) mod q, which puts G^i at bitrev_L(i), bitrev_L being its own inverse
(DEDUCED, notes/assumptions/14.md). -/
def fwdPowers (n q g : Nat) : List Nat := (List.range n).map fun k => powMod g (bitRev n.log2 k) q

/-- R155: INV_POW, the inverses of the forward powers. -/
def invPowers (n q g : Nat) : List Nat := (fwdPowers n q g).map fun w => invMod w q

/-- R154, R156: the companions of a column of powers at the bit shift s. -/
def companions (s q : Nat) (ws : List Nat) : List Nat := ws.map fun w => barrettFactor s w q

/-- Numbers below 2^64 as array words. -/
def toWords (vs : List Nat) : List Word := vs.map (BitVec.ofNat 64)

/-- R153-R156: the five columns. Words at index n and above keep their values (R152). -/
def State.storeTables (s : State) (n q g : Nat) : State :=
  let fwd := fwdPowers n q g
  let inv := invPowers n q g
  s.setMem
    (((((s.mem.storeWords .fwdPow (toWords fwd)).storeWords .fwdPre64 (toWords (companions 64 q fwd))).storeWords
      .fwdPre52 (toWords (companions 52 q fwd))).storeWords .invPow (toWords inv)).storeWords
      .invPre64 (toWords (companions 64 q inv)))

/-- R157: the metadata and TBL_VALID. -/
def State.recordTables (s : State) (n q g : Nat) : State :=
  { s with
    tblN := BitVec.ofNat 64 n
    tblQ := BitVec.ofNat 64 q
    tblRoot := BitVec.ofNat 64 g
    status := { s.status with tblValid := true } }

/-- R153-R157 together, as one update. -/
def State.buildTables (s : State) (n q g : Nat) : State := (s.storeTables n q g).recordTables n q g

/-- The checks of R152, then the update. -/
def tbuildResult (g n q : Nat) (s : State) : Except Detail State :=
  check (q ≠ 0) .modZero <|
  checkDegree n s.nMax <|
  check (q < Config.fullModBound) .modPathBound <|
  check (q % (2 * n) = 1) .modNotNttFriendly <|
  check (g < q) .operandGeMod <|
  check (isPrimitive2n g n q) .rootNotPrimitive <|
  .ok (s.buildTables n q g)

/-- TBUILD (R152): builds the tables from the root in RS1. -/
def execTbuild (rs1 : Reg) (s : State) : Host.Outcome State Fault Refusal :=
  s.complete (tbuildResult (s.src rs1) s.n s.q s)

end Sys2Proof.Machine
end

