-- ==== Sys2Proof/Machine/Dispatch.lean ====
section
/-! DEFINITION. One arm per command: what its completion step does (60_exceptions.md R223). -/

namespace Sys2Proof.Machine

def exec (i : Instr) (s : State) : Host.Outcome State Fault Refusal :=
  match i with
  | .mfact rd rs1 bs => Sys2Proof.Machine.execMfact rd rs1 bs s
  | .mullazy rd rs1 rs2 rs3 bs => Sys2Proof.Machine.execMullazy rd rs1 rs2 rs3 bs s
  | .mulmod rd rs1 rs2 => Sys2Proof.Machine.execMulmod rd rs1 rs2 s
  | .mulmodp rd rs1 rs2 rs3 => Sys2Proof.Machine.execMulmodp rd rs1 rs2 rs3 s
  | .bred rd rs1 rs2 => Sys2Proof.Machine.execBred rd rs1 rs2 s
  | .reduce rd rs1 mf => Sys2Proof.Machine.execReduce rd rs1 mf s
  | .addmod rd rs1 rs2 => Sys2Proof.Machine.execAddmod rd rs1 rs2 s
  | .submod rd rs1 rs2 => Sys2Proof.Machine.execSubmod rd rs1 rs2 s
  | .powmod rd rs1 rs2 => Sys2Proof.Machine.execPowmod rd rs1 rs2 s
  | .invmod rd rs1 => Sys2Proof.Machine.execInvmod rd rs1 s
  | .bitrev rd rs1 rs2 => Sys2Proof.Machine.execBitrev rd rs1 rs2 s
  | .brevbuf => Sys2Proof.Machine.execBrevbuf s
  | .tbuild rs1 => Sys2Proof.Machine.execTbuild rs1 s
  | .fntt mode => Sys2Proof.Machine.execFntt mode s
  | .intt mode => Sys2Proof.Machine.execIntt mode s

end Sys2Proof.Machine
end

