-- ==== Sys2Proof/Machine/Engine.lean ====
section
/-! DEFINITION. The completion step (60_exceptions.md R223), one input of the queue, and a command placed as the next thing to run. -/

namespace Sys2Proof.Machine

/-- The completion step: decodes the pending word and runs its rule, or raises the illegal encoding's error (R223; 30_encoding.md
R98, R101). An idle block does nothing (R238), and a command pending while reset is asserted does not complete
(70_reset_and_hazards.md R251). -/
def State.completionStep (s : State) : Host.Outcome State Fault Refusal :=
  if s.inReset then .next s
  else
    match s.pending with
    | none => .next s
    | some p =>
      match decodeCommand p.word with
      | .error e => .next (s.raise (detailOfDecodeError e))
      | .ok i => exec i s

/-- What one input does (notes/assumptions/1.md). -/
def State.inputStep (s : State) (i : Input) : Host.Outcome State Fault Refusal :=
  match i with
  | .completion => s.completionStep
  | .memRead addr n => s.busRead addr n
  | .memWrite addr lanes => s.busWrite addr lanes
  | .reset asserted => .next (s.setReset asserted)

/-- The next input of the queue; with the queue empty, the completion step, so that every accepted command completes
(70_reset_and_hazards.md R258; notes/assumptions/2.md). -/
def State.nextStep (s : State) : Host.Outcome State Fault Refusal :=
  match s.inputs with
  | [] => s.completionStep
  | i :: rest => State.inputStep { s with inputs := rest } i

/-- The word w of nbits bits accepted as the pending command, to be completed by the very next step: reset released, the command's
acceptance (R220), and a completion grant in front of any inputs still to come (notes/assumptions/19.md). -/
def State.placeCommand (s : State) (nbits w : Nat) : State :=
  State.accept
    { s with
      inReset := false
      inputs := match s.inputs with
        | [] => []
        | i :: rest => .completion :: i :: rest }
    (BitVec.ofNat 64 (w % 2 ^ nbits))

end Sys2Proof.Machine
end

