-- ==== Sys2Proof/Machine/Step.lean ====
section
/-! DEFINITION. One step of the machine, and the host's way to place a command as the next one to run. -/

namespace Sys2Proof.Machine

/-- One step (Machine/Engine.lean). -/
def step (s : State) : Host.Outcome State Fault Refusal := s.nextStep

/-- The command w of nbits bits placed so that the very next step runs it (Machine/Engine.lean). -/
def State.withFetchWord (s : State) (nbits w : Nat) : State := s.placeCommand nbits w

end Sys2Proof.Machine
end

