-- ==== Sys2Proof/Safety.lean ====
section
/-! DEFINITION. The terms that statements about the block use: what a completed command leaves, the checks of each rule in their
order, the invariants of a run, the arithmetic of the transforms, and single host accesses. -/

namespace Sys2Proof.Machine

/-! ## Commands -/

/-- The destination register a scalar command writes (10_state.md R31); none for BREVBUF, TBUILD, FNTT and INTT. -/
def destination : Instr → Option Reg
  | .mfact rd _ _ => some rd
  | .mullazy rd _ _ _ _ => some rd
  | .mulmod rd _ _ => some rd
  | .mulmodp rd _ _ _ => some rd
  | .bred rd _ _ => some rd
  | .reduce rd _ _ => some rd
  | .addmod rd _ _ => some rd
  | .submod rd _ _ => some rd
  | .powmod rd _ _ => some rd
  | .invmod rd _ => some rd
  | .bitrev rd _ _ => some rd
  | .brevbuf => none
  | .tbuild _ => none
  | .fntt _ => none
  | .intt _ => none

/-- The command word with these field values decodes to i (30_encoding.md R90, R103). -/
def Encodes (i : Instr) (opc rd rs1 rs2 rs3 sel : Nat) : Prop :=
  decodeCommand (BitVec.ofNat 64 (opc + rd * 2 ^ 8 + rs1 * 2 ^ 12 + rs2 * 2 ^ 16 + rs3 * 2 ^ 20 + sel * 2 ^ 24)) = .ok i

/-- What a scalar command that raises nothing leaves (60_exceptions.md R224): `x[RD]` holds v, STATUS reports success, nothing is
pending, and everything else is as it was. -/
def State.afterScalar (s : State) (rd : Reg) (v : Nat) : State :=
  { s with
    x := s.x.set rd.val (BitVec.ofNat 64 v)
    pending := none
    status := { s.status with done := true, err := .none, errDetail := .none } }

/-- The command i accepted by s, with no input to come: the next step completes it. -/
def State.issue (s : State) (i : Instr) : State := State.accept { s with inputs := [] } (encode i)

/-! ## The checks of a rule, in the order it writes them (60_exceptions.md R226) -/

/-- The detail of the first check that fails. -/
def firstFailure : List (Bool × Detail) → Option Detail
  | [] => none
  | c :: cs => if c.1 then firstFailure cs else some c.2

/-- n is a power of two (43_ntt.md R170). -/
def isPowerOfTwo (n : Nat) : Bool := n == 2 ^ n.log2

/-- CHECK_DEGREE (43_ntt.md R170). -/
def degreeChecks (s : State) : List (Bool × Detail) :=
  [(isPowerOfTwo s.n, .degreeNotPow2), (2 ≤ s.n && s.n ≤ 2 ^ s.params.nMaxLog2, .degreeRange)]

/-- The width a bit-shift select names, 0 for one that names none. -/
def widthOf (bs : ShiftSel) : Nat := (shiftWidth bs).getD 0

/-- The path checks of RESOLVE_PATH (44_dispatch.md R204). -/
def pathChecks (dir : Direction) (m : ModeSel) (s : State) : List (Bool × Detail) :=
  match requestedPath m with
  | some (some .narrow52) =>
    [(dir == .fwd, .modeUnsupported), (s.params.narrow52Impl && s.operands.ctrl.enNarrow52, .pathUnavailable),
      (s.q < 2 ^ 50, .modPathBound)]
  | some (some .wide64) => [(s.params.wide64Impl && s.operands.ctrl.enWide64, .pathUnavailable), (s.q < 2 ^ 62, .modPathBound)]
  | some (some .scalar) => [(s.q < 2 ^ 62, .modPathBound)]
  | some (some .reference) => [(s.q < 2 ^ 62, .modPathBound)]
  | some none => [(s.q < 2 ^ 62, .modPathBound)]
  | none => []

/-- NTT_VALIDATE after the decode check of SEL (43_ntt.md R170, 30_encoding.md R101). -/
def transformChecks (dir : Direction) (m : ModeSel) (s : State) : List (Bool × Detail) :=
  [((requestedPath m).isSome, .badMode), (s.q != 0, .modZero)] ++ degreeChecks s ++ pathChecks dir m s ++
    [(s.q % (2 * s.n) == 1, .modNotNttFriendly),
      (s.status.tblValid && s.tblN.toNat == s.n && s.tblQ.toNat == s.q, .tableMismatch),
      ((List.range s.n).all fun k => (s.readArray .buf k).toNat < s.q, .elemRange)]

/-- The checks of TBUILD on q and the root, after the degree (42_bitrev_table.md R152, R158). -/
def rootChecks (g n q : Nat) : List (Bool × Detail) :=
  [(q < 2 ^ 62, .modPathBound), (q % (2 * n) == 1, .modNotNttFriendly), (g < q, .operandGeMod),
    (g ^ (2 * n) % q == 1 && g ^ n % q != 1, .rootNotPrimitive)]

/-- The checks of each command, those of R101 on SEL first. -/
def ruleChecks (i : Instr) (s : State) : List (Bool × Detail) :=
  match i with
  | .mfact _ rs1 bs => [((shiftWidth bs).isSome, .badBitshift), (s.q != 0, .modZero), (s.src rs1 ≤ s.q, .operandGtMod)]
  | .mullazy _ rs1 rs2 _ bs =>
    [((shiftWidth bs).isSome, .badBitshift), (s.q != 0, .modZero), (s.src rs2 < s.q, .operandGeMod),
      (s.q ≤ 2 ^ widthOf bs - 1, .modTooWide), (s.src rs1 ≤ 2 ^ widthOf bs - 1, .xTooWide)]
  | .mulmod _ rs1 rs2 => [(s.q != 0, .modZero), (s.src rs1 < s.q, .operandGeMod), (s.src rs2 < s.q, .operandGeMod)]
  | .mulmodp _ rs1 rs2 _ => [(s.q != 0, .modZero), (s.src rs1 < s.q, .operandGeMod), (s.src rs2 < s.q, .operandGeMod)]
  | .bred _ _ _ => [(s.q != 0, .modZero)]
  | .reduce _ _ mf => [((inputFactor mf).isSome, .badModfactor), (s.q != 0, .modZero)]
  | .addmod _ rs1 rs2 => [(s.q != 0, .modZero), (s.src rs1 < s.q, .operandGeMod), (s.src rs2 < s.q, .operandGeMod)]
  | .submod _ rs1 rs2 => [(s.q != 0, .modZero), (s.src rs1 < s.q, .operandGeMod), (s.src rs2 < s.q, .operandGeMod)]
  | .powmod _ _ _ => [(s.q != 0, .modZero)]
  | .invmod _ rs1 =>
    [(s.q != 0, .modZero), (s.src rs1 % s.q != 0, .notInvertible), (Nat.gcd (s.src rs1) s.q == 1, .notInvertible)]
  | .bitrev _ rs1 rs2 => [(s.src rs2 ≤ 64, .bitrevWidth), (s.src rs1 < 2 ^ s.src rs2, .bitrevValue)]
  | .brevbuf => degreeChecks s
  | .tbuild rs1 => [(s.q != 0, .modZero)] ++ degreeChecks s ++ rootChecks (s.src rs1) s.n s.q
  | .fntt m => transformChecks .fwd m s
  | .intt m => transformChecks .inv m s

/-! ## Invariants of a run -/

/-- The window offset a is a byte of an array word below N_MAX (20_memory.md R61). -/
def inArrays (s : State) (a : Nat) : Prop :=
  ∃ arr : ArrayId, arr.base ≤ a ∧ a < arr.base + 8 * 2 ^ s.params.nMaxLog2

/-- What holds between two steps of every run from reset. -/
structure State.Sound (s : State) : Prop where
  paramsLegal : s.params.legal = true                                      -- 00_scope.md R8
  memCanonical : Memory.wf s.mem = true                                    -- the memory's one form
  memInArrays : ∀ c ∈ s.mem, inArrays s c.1                                -- R61
  wideEnable : s.ctrl.enWide64 = true → s.params.wide64Impl = true         -- 10_state.md R39
  narrowEnable : s.ctrl.enNarrow52 = true → s.params.narrow52Impl = true   -- R39
  errMatchesDetail : s.status.err = s.status.errDetail.errClass            -- 60_exceptions.md R222
  fatalIsPostcondition : s.status.fatal = true ↔ s.status.errDetail = .postcondition   -- R227
  busyReport : s.busy = true → s.status.done = false ∧ s.status.errDetail = .none      -- R220
  pendingIsCmd : ∀ p, s.pending = some p → p.word = s.cmd                  -- R220
  snapshotIsLive : ∀ p, s.pending = some p → p.snap = s.snapshot           -- R220, 20_memory.md R68

/-- The five columns are those of R153 to R156 (42_bitrev_table.md) for the degree n, the modulus q and the root g. -/
structure State.TableHolds (s : State) (n q g : Nat) : Prop where
  fwdPow : ∀ i < n, (s.readArray .fwdPow (bitRev n.log2 i)).toNat = g ^ i % q
  fwdPre64 : ∀ k < n, (s.readArray .fwdPre64 k).toNat = (s.readArray .fwdPow k).toNat * 2 ^ 64 / q
  fwdPre52 : ∀ k < n, (s.readArray .fwdPre52 k).toNat = (s.readArray .fwdPow k).toNat * 2 ^ 52 / q
  invPow : ∀ k < n, (s.readArray .invPow k).toNat < q ∧ (s.readArray .fwdPow k).toNat * (s.readArray .invPow k).toNat % q = 1
  invPre64 : ∀ k < n, (s.readArray .invPre64 k).toNat = (s.readArray .invPow k).toNat * 2 ^ 64 / q

/-- What a successful TBUILD has checked of n, q and g (R152, R158). -/
structure RootAccepted (n q g : Nat) : Prop where
  degreePow : n = 2 ^ n.log2
  degreeMin : 2 ≤ n
  bound : q < 2 ^ 62
  friendly : q % (2 * n) = 1
  rootLt : g < q
  rootFull : g ^ (2 * n) % q = 1
  rootHalf : g ^ n % q ≠ 1

/-- The tables are as TBL_VALID and the metadata say (10_state.md R51). -/
structure State.TablesAgree (s : State) : Prop where
  none : s.status.tblValid = false → s.tblN = 0 ∧ s.tblQ = 0 ∧ s.tblRoot = 0
  accepted : s.status.tblValid = true → RootAccepted s.tblN.toNat s.tblQ.toNat s.tblRoot.toNat
  capacity : s.tblN.toNat ≤ 2 ^ s.params.nMaxLog2
  columns : s.status.tblValid = true → s.TableHolds s.tblN.toNat s.tblQ.toNat s.tblRoot.toNat

/-! ## The transforms -/

/-- The value at G^(2 bitrev_L(k) + 1) of the polynomial whose coefficients are a (43_ntt.md R177). -/
def negacyclicValue (n q g : Nat) (a : Nat → Nat) (k : Nat) : Nat :=
  (∑ j ∈ Finset.range n, a j * g ^ ((2 * bitRev n.log2 k + 1) * j)) % q

/-- n times the coefficient j of the polynomial whose values are b, with G^(-e) written G^(2n - e mod 2n) (43_ntt.md R186). -/
def scaledCoefficient (n q g : Nat) (b : Nat → Nat) (j : Nat) : Nat :=
  (∑ k ∈ Finset.range n, b k * g ^ (2 * n - (2 * bitRev n.log2 k + 1) * j % (2 * n))) % q

/-- The path AUTO takes for FNTT (44_dispatch.md R202). -/
def autoForward (s : State) : NttPath :=
  if (s.params.narrow52Impl && s.operands.ctrl.enNarrow52) = true ∧ s.q < 2 ^ 50 then .narrow52
  else if (s.params.wide64Impl && s.operands.ctrl.enWide64) = true then .wide64
  else .scalar

/-- The path AUTO takes for INTT (R203). -/
def autoInverse (s : State) : NttPath :=
  if (s.params.wide64Impl && s.operands.ctrl.enWide64) = true then .wide64 else .scalar

/-- The path LAST_PATH records for a mode that names one: the forced path, or AUTO's (R202-R204, R207). -/
def recordedPath (m : ModeSel) (auto : NttPath) : NttPath := ((requestedPath m).getD none).getD auto

/-- What a transform leaves beside BUF: STATUS reports success on the path p and nothing is pending (60_exceptions.md R224). -/
def TransformReport (s t : State) (p : NttPath) : Prop :=
  t.status = { s.status with done := true, err := .none, errDetail := .none, lastPath := some p } ∧ t.pending = none

/-- Everything but the arrays and the report of a completion is as it was. -/
structure SameControl (s t : State) : Prop where
  ctrl : t.ctrl = s.ctrl
  cmd : t.cmd = s.cmd
  modulus : t.modulus = s.modulus
  degree : t.degree = s.degree
  inReset : t.inReset = s.inReset
  params : t.params = s.params
  inputs : t.inputs = s.inputs
  response : t.response = s.response
  draws : t.draws = s.draws
  resets : t.resets = s.resets

/-- The table metadata are as they were. -/
structure SameTables (s t : State) : Prop where
  tblN : t.tblN = s.tblN
  tblQ : t.tblQ = s.tblQ
  tblRoot : t.tblRoot = s.tblRoot
  tblValid : t.status.tblValid = s.status.tblValid

/-! ## Host accesses -/

/-- One step whose only input is the read of n bytes at offset off of the window. -/
def State.hostRead (s : State) (off n : Nat) : Host.Outcome State Fault Refusal :=
  step { s with inputs := [.memRead (s.params.blockBase + off) n] }

/-- One step whose only input is the write of these byte lanes at offset off of the window. -/
def State.hostWrite (s : State) (off : Nat) (lanes : List Byte) : Host.Outcome State Fault Refusal :=
  step { s with inputs := [.memWrite (s.params.blockBase + off) lanes] }

/-- The reserved offsets (20_memory.md R61). -/
def reservedOffset (s : State) (off : Nat) : Prop :=
  (0x58 ≤ off ∧ off < 0x100) ∨ (0x180 ≤ off ∧ off < 0x01000000) ∨ 0x07000000 ≤ off ∨
    (0x01000000 ≤ off ∧ 8 * 2 ^ s.params.nMaxLog2 ≤ off % 0x01000000)

/-- The offsets of the RO registers and of the table words (R66). -/
def readOnlyOffset (off : Nat) : Prop :=
  off ∈ [0x000, 0x008, 0x018, 0x028, 0x040, 0x048, 0x050] ∨ 0x02000000 ≤ off

/-- The offsets whose reads are unspecified while busy: Xi, the arrays, TBL_N, TBL_Q, TBL_ROOT (R68). -/
def hiddenWhileBusy (off : Nat) : Prop :=
  off ∈ [0x040, 0x048, 0x050] ∨ (0x100 ≤ off ∧ off < 0x180) ∨ 0x01000000 ≤ off

end Sys2Proof.Machine
end

