-- ==== Sys2Proof/Certificates/Slice0/Obligations.lean ====
section
/-! DEFINITION. What is to be proved of the model, one proposition a statement. OBLIGATIONS.json says of each what it formalises.
A statement about exec holds of every state: a command reads the snapshot of the pending command, and where nothing is pending, which
no step reaches, the live registers (the model's choice, notes/assumptions/7.md). A host access is one step with that access as its
only input (the model's form, notes/assumptions/1.md). -/

open Sys2Proof Sys2Proof.Machine

/-! ## Encoding -/

/-- Decoding the word of a well-formed command gives the command back, for every command and every field value (30_encoding.md R90,
R91, R96, R103). -/
def Obligations.DecodeOfEncodeIsIdentity : Prop :=
  ∀ i : Instr, i.wellFormed = true → decodeCommand (encode i) = .ok i

/-- A CMD value that decodes is the word of the command it decodes to, and that command is well formed: each command has one word. -/
def Obligations.EncodeOfDecodeIsIdentity : Prop :=
  ∀ (v : Word) (i : Instr), decodeCommand v = .ok i → i.wellFormed = true ∧ encode i = v

/-- The assembly examples of R103, both ways. -/
def Obligations.AssemblyExamplesDecode : Prop :=
  encode (.mullazy 3 1 2 4 .s52) = 0x01421302 ∧ decodeCommand 0x01421302 = .ok (.mullazy 3 1 2 4 .s52) ∧
  encode (.fntt .auto) = 0x00000040 ∧ decodeCommand 0x00000040 = .ok (.fntt .auto) ∧
  encode (.intt .reference) = 0x04000041 ∧ decodeCommand 0x04000041 = .ok (.intt .reference) ∧
  encode (.tbuild 5) = 0x00005030 ∧ decodeCommand 0x00005030 = .ok (.tbuild 5)

/-- Which CMD values are illegal encodings, and with which error, in R101's order: a bit of [63:27], then the opcode, then a field
that the opcode's format marks 0. The mask of an opcode is that of the opcode table. -/
def Obligations.IllegalEncodingsAreExactlyThese : Prop :=
  let table : List (Nat × Nat) :=
    [(0x01, 0xF8FF00FF), (0x02, 0xF80000FF), (0x03, 0xFFF000FF), (0x04, 0xFF0000FF), (0x05, 0xFFF000FF), (0x06, 0xF8FF00FF),
      (0x10, 0xFFF000FF), (0x11, 0xFFF000FF), (0x12, 0xFFF000FF), (0x13, 0xFFFF00FF), (0x20, 0xFFF000FF), (0x21, 0xFFFFFFFF),
      (0x30, 0xFFFF0FFF), (0x40, 0xF8FFFFFF), (0x41, 0xF8FFFFFF)]
  ∀ v : Word,
    (decodeCommand v = .error .reservedBits ↔ 2 ^ 27 ≤ v.toNat) ∧
    (decodeCommand v = .error .illegalOpcode ↔ v.toNat < 2 ^ 27 ∧ v.toNat % 256 ∉ table.map Prod.fst) ∧
    (∀ row ∈ table, v.toNat < 2 ^ 27 → v.toNat % 256 = row.1 →
      (decodeCommand v = .error .unusedField ↔ v &&& BitVec.ofNat 64 row.2 ≠ BitVec.ofNat 64 row.1))

/-! ## The command life cycle -/

/-- A step with a pending command that decodes to i is exec of i, and a completion grant in the queue is consumed first. When the
step happens is the model's choice (notes/assumptions/1.md, 2.md). -/
def Obligations.StepRunsDecodedCommand : Prop :=
  ∀ (s : State) (p : Pending) (i : Instr), s.inReset = false → s.pending = some p → decodeCommand p.word = .ok i →
    (s.inputs = [] → step s = exec i s) ∧
    (∀ rest, s.inputs = .completion :: rest → step s = exec i { s with inputs := rest })

/-- Acceptance (60_exceptions.md R220): what a write of v to CMD does in each of its three cases. -/
def Obligations.CmdWriteIsAcceptedOrRefused : Prop :=
  ∀ (s : State) (v : Word), s.inReset = false →
    (s.busy = true → s.hostWrite 0x020 (bytesOfWord v) =
      .next { s with inputs := [], response := .busError, status := { s.status with hazard := true } }) ∧
    (s.busy = false → s.status.fatal = true →
      s.hostWrite 0x020 (bytesOfWord v) = .next { s with inputs := [], response := .busError }) ∧
    (s.busy = false → s.status.fatal = false → s.hostWrite 0x020 (bytesOfWord v) =
      .next
        { s with
          inputs := []
          response := .writeOk
          cmd := v
          status := { s.status with done := false, err := .none, errDetail := .none }
          pending := some { word := v, snap := { x := s.x, modulus := s.modulus, degree := s.degree, ctrl := s.ctrl } } })

/-- Every command completes in one step, whatever the state: nothing stays pending, DONE is 1, and a detail belongs to the class
reported (R223). -/
def Obligations.EveryCommandCompletes : Prop :=
  ∀ (i : Instr) (s : State), ∃ t, exec i s = .next t ∧ t.busy = false ∧ t.status.done = true ∧
    t.status.err = t.status.errDetail.errClass

/-- Each error of a command is the first of its checks that fails, and a command none of whose checks fails ends without error or,
for a transform only, with POSTCONDITION (R226). -/
def Obligations.FirstFailingCheckIsRaised : Prop :=
  ∀ (i : Instr) (s : State),
    (∀ d, firstFailure (ruleChecks i s) = some d → exec i s = .next (s.raise d)) ∧
    (firstFailure (ruleChecks i s) = none → ∃ t, exec i s = .next t ∧
      (t.status.errDetail = .none ∨
        (t.status.errDetail = .postcondition ∧ ∃ m, i = .fntt m ∨ i = .intt m)))

/-- An error changes STATUS and ERR_CMD only (R225): ERR and ERR_DETAIL report it, ERR_CMD takes CMD, FATAL is set for INTERNAL, and
every other piece keeps its value, BUF alone excepted for INTERNAL. -/
def Obligations.ErrorsArePrecise : Prop :=
  ∀ s t : State, s.inReset = false → s.inputs = [] → s.busy = true → step s = .next t → t.status.err ≠ .none →
    t.status.err = t.status.errDetail.errClass ∧ t.errCmd = s.cmd ∧
    t.status.fatal = (s.status.fatal || decide (t.status.err = .internal)) ∧
    t.status.lastPath = s.status.lastPath ∧ t.status.hazard = s.status.hazard ∧
    t.x = s.x ∧ SameControl s t ∧ SameTables s t ∧
    (t.status.err ≠ .internal → t.mem = s.mem) ∧
    (t.status.err = .internal → ∀ a, a < 0x01000000 ∨ 0x01000000 + 8 * s.n ≤ a → t.readByte a = s.readByte a)

/-- A pending word that does not decode completes with ILLEGAL_COMMAND and changes no operand, array or data register (30_encoding.md
R98). -/
def Obligations.IllegalWordCompletesWithError : Prop :=
  ∀ (s : State) (p : Pending) (e : DecodeError), s.inReset = false → s.inputs = [] → s.pending = some p →
    decodeCommand p.word = .error e →
    ∃ t, step s = .next t ∧ t.busy = false ∧ t.status.done = true ∧ t.status.err = .illegalCommand ∧
      t.status.errDetail.code = (match e with | .illegalOpcode => 1 | .reservedBits => 2 | .unusedField => 3) ∧
      t.errCmd = s.cmd ∧ t.x = s.x ∧ t.mem = s.mem ∧ SameControl s t ∧ SameTables s t ∧
      t.status.lastPath = s.status.lastPath ∧ t.status.fatal = s.status.fatal ∧ t.status.hazard = s.status.hazard

/-- A pending command completes, whatever accesses the host makes meanwhile (70_reset_and_hazards.md R258): with no assertion of
reset and no access outside the window among the inputs, at most one step more than there are inputs. The queue and its order are the
model's choice (notes/assumptions/1.md, 2.md). -/
def Obligations.PendingCommandCompletesUnlessReset : Prop :=
  ∀ s : State, s.inReset = false → s.busy = true →
    (∀ i ∈ s.inputs, match i with
      | .memRead addr _ => s.inWindow addr = true
      | .memWrite addr _ => s.inWindow addr = true
      | .reset asserted => asserted = false
      | .completion => True) →
    ∃ k t, k ≤ s.inputs.length + 1 ∧ Host.Core.run Sys2Proof.core k s = .next t ∧ t.busy = false ∧ t.status.done = true

/-! ## modular_multiply_reduce -/

/-- MFACT (40_modmul.md R111). -/
def Obligations.MfactGivesBarrettFactor : Prop :=
  ∀ (rd rs1 : Reg) (bs : ShiftSel) (s : State),
    (bs.wellFormed = true → Encodes (.mfact rd rs1 bs) 0x01 rd rs1 0 0 bs.toNat) ∧
    (shiftWidth bs = none → exec (.mfact rd rs1 bs) s = .next (s.raise .badBitshift)) ∧
    (∀ w, shiftWidth bs = some w →
      (s.q = 0 → exec (.mfact rd rs1 bs) s = .next (s.raise .modZero)) ∧
      (s.q ≠ 0 → s.q < s.src rs1 → exec (.mfact rd rs1 bs) s = .next (s.raise .operandGtMod)) ∧
      (s.q ≠ 0 → s.src rs1 ≤ s.q →
        exec (.mfact rd rs1 bs) s = .next (s.afterScalar rd (s.src rs1 * 2 ^ w / s.q % 2 ^ 64))))

/-- MULLAZY (R112): the formula, with the high product taken mod 2^64 and the difference in the integers mod 2^64. -/
def Obligations.MullazyGivesLazyProduct : Prop :=
  ∀ (rd rs1 rs2 rs3 : Reg) (bs : ShiftSel) (s : State),
    (bs.wellFormed = true → Encodes (.mullazy rd rs1 rs2 rs3 bs) 0x02 rd rs1 rs2 rs3 bs.toNat) ∧
    (shiftWidth bs = none → exec (.mullazy rd rs1 rs2 rs3 bs) s = .next (s.raise .badBitshift)) ∧
    (∀ w, shiftWidth bs = some w →
      (s.q = 0 → exec (.mullazy rd rs1 rs2 rs3 bs) s = .next (s.raise .modZero)) ∧
      (s.q ≠ 0 → s.q ≤ s.src rs2 → exec (.mullazy rd rs1 rs2 rs3 bs) s = .next (s.raise .operandGeMod)) ∧
      (s.q ≠ 0 → s.src rs2 < s.q → 2 ^ w - 1 < s.q → exec (.mullazy rd rs1 rs2 rs3 bs) s = .next (s.raise .modTooWide)) ∧
      (s.q ≠ 0 → s.src rs2 < s.q → s.q ≤ 2 ^ w - 1 → 2 ^ w - 1 < s.src rs1 →
        exec (.mullazy rd rs1 rs2 rs3 bs) s = .next (s.raise .xTooWide)) ∧
      (s.q ≠ 0 → s.src rs2 < s.q → s.q ≤ 2 ^ w - 1 → s.src rs1 ≤ 2 ^ w - 1 →
        exec (.mullazy rd rs1 rs2 rs3 bs) s = .next (s.afterScalar rd
          (((s.src rs2 * s.src rs1 : Int) - ((s.src rs1 * s.src rs3 / 2 ^ w % 2 ^ 64 : Nat) : Int) * s.q) % 2 ^ 64).toNat)))

/-- The range law of MULLAZY: with the exact factor the result is in [0, 2q) and congruent to X Y, where 2q fits. The spec's own
inference (R113, "derived: from rule R112"). -/
def Obligations.MullazyRangeLaw : Prop :=
  ∀ (rd rs1 rs2 rs3 : Reg) (bs : ShiftSel) (w : Nat) (s : State), shiftWidth bs = some w →
    s.src rs1 ≤ 2 ^ w - 1 → s.src rs2 < s.q → s.q ≤ 2 ^ w - 1 → s.src rs3 = s.src rs2 * 2 ^ w / s.q % 2 ^ 64 →
    (0 ≤ (s.src rs2 * s.src rs1 : Int) - ((s.src rs1 * s.src rs3 / 2 ^ w % 2 ^ 64 : Nat) : Int) * s.q ∧
      (s.src rs2 * s.src rs1 : Int) - ((s.src rs1 * s.src rs3 / 2 ^ w % 2 ^ 64 : Nat) : Int) * s.q < 2 * s.q ∧
      ((s.src rs2 * s.src rs1 : Int) - ((s.src rs1 * s.src rs3 / 2 ^ w % 2 ^ 64 : Nat) : Int) * s.q) % s.q =
        (s.src rs1 * s.src rs2 % s.q : Nat)) ∧
    (2 * s.q ≤ 2 ^ 64 → ∃ v, exec (.mullazy rd rs1 rs2 rs3 bs) s = .next (s.afterScalar rd v) ∧
      (v : Int) = (s.src rs2 * s.src rs1 : Int) - ((s.src rs1 * s.src rs3 / 2 ^ w % 2 ^ 64 : Nat) : Int) * s.q ∧
      v < 2 * s.q ∧ v % s.q = s.src rs1 * s.src rs2 % s.q)

/-- MULMOD (R114). -/
def Obligations.MulmodGivesProduct : Prop :=
  ∀ (rd rs1 rs2 : Reg) (s : State),
    Encodes (.mulmod rd rs1 rs2) 0x03 rd rs1 rs2 0 0 ∧
    (s.q = 0 → exec (.mulmod rd rs1 rs2) s = .next (s.raise .modZero)) ∧
    (s.q ≠ 0 → s.q ≤ s.src rs1 ∨ s.q ≤ s.src rs2 → exec (.mulmod rd rs1 rs2) s = .next (s.raise .operandGeMod)) ∧
    (s.src rs1 < s.q → s.src rs2 < s.q →
      exec (.mulmod rd rs1 rs2) s = .next (s.afterScalar rd (s.src rs1 * s.src rs2 % s.q)))

/-- MULMODP (R115): one lazy multiply at s = 64 and one conditional subtraction; with the exact factor and q ≤ 2^63 the
product, which is the spec's own inference ("derived: from rule R113"). -/
def Obligations.MulmodpGivesProductWithExactFactor : Prop :=
  ∀ (rd rs1 rs2 rs3 : Reg) (s : State),
    Encodes (.mulmodp rd rs1 rs2 rs3) 0x04 rd rs1 rs2 rs3 0 ∧
    (s.q = 0 → exec (.mulmodp rd rs1 rs2 rs3) s = .next (s.raise .modZero)) ∧
    (s.q ≠ 0 → s.q ≤ s.src rs1 ∨ s.q ≤ s.src rs2 → exec (.mulmodp rd rs1 rs2 rs3) s = .next (s.raise .operandGeMod)) ∧
    (s.src rs1 < s.q → s.src rs2 < s.q →
      (∃ r : Nat, (r : Int) =
          ((s.src rs2 * s.src rs1 : Int) - ((s.src rs1 * s.src rs3 / 2 ^ 64 % 2 ^ 64 : Nat) : Int) * s.q) % 2 ^ 64 ∧
        exec (.mulmodp rd rs1 rs2 rs3) s = .next (s.afterScalar rd (if s.q ≤ r then r - s.q else r))) ∧
      (s.src rs3 = s.src rs2 * 2 ^ 64 / s.q → s.q ≤ 2 ^ 63 →
        exec (.mulmodp rd rs1 rs2 rs3) s = .next (s.afterScalar rd (s.src rs1 * s.src rs2 % s.q))))

/-- BRED (R118): the formula, for every input and every factor. -/
def Obligations.BredGivesBarrettReduction : Prop :=
  ∀ (rd rs1 rs2 : Reg) (s : State),
    Encodes (.bred rd rs1 rs2) 0x05 rd rs1 rs2 0 0 ∧
    (s.q = 0 → exec (.bred rd rs1 rs2) s = .next (s.raise .modZero)) ∧
    (s.q ≠ 0 → ∃ r : Nat, (r : Int) = ((s.src rs1 : Int) - ((s.src rs1 * s.src rs2 / 2 ^ 64 : Nat) : Int) * s.q) % 2 ^ 64 ∧
      exec (.bred rd rs1 rs2) s = .next (s.afterScalar rd (if s.q ≤ r then r - s.q else r)))

/-- The law of BRED: with the factor floor(2^64 / q) the quotient estimate is exact or one less, and the result is the remainder. The
spec's own inference (R119, "derived: from rule R118"). -/
def Obligations.BredLaw : Prop :=
  ∀ (rd rs1 rs2 : Reg) (s : State), 2 ≤ s.q → s.src rs2 = 2 ^ 64 / s.q →
    (s.src rs1 * s.src rs2 / 2 ^ 64 = s.src rs1 / s.q ∨ s.src rs1 * s.src rs2 / 2 ^ 64 + 1 = s.src rs1 / s.q) ∧
    exec (.bred rd rs1 rs2) s = .next (s.afterScalar rd (s.src rs1 % s.q))

/-- REDUCE (R116): up to three exact conditional subtractions, the input range unchecked. -/
def Obligations.ReduceSubtractsConditionally : Prop :=
  let sub (r b : Nat) : Nat := if b ≤ r then r - b else r
  ∀ (rd rs1 : Reg) (mf : FactorSel) (s : State),
    (mf.wellFormed = true → Encodes (.reduce rd rs1 mf) 0x06 rd rs1 0 0 mf.toNat) ∧
    (inputFactor mf = none → exec (.reduce rd rs1 mf) s = .next (s.raise .badModfactor)) ∧
    (inputFactor mf ≠ none → s.q = 0 → exec (.reduce rd rs1 mf) s = .next (s.raise .modZero)) ∧
    (inputFactor mf = some 1 → s.q ≠ 0 → exec (.reduce rd rs1 mf) s = .next (s.afterScalar rd (s.src rs1))) ∧
    (inputFactor mf = some 2 → s.q ≠ 0 → exec (.reduce rd rs1 mf) s = .next (s.afterScalar rd (sub (s.src rs1) s.q))) ∧
    (inputFactor mf = some 4 → s.q ≠ 0 →
      exec (.reduce rd rs1 mf) s = .next (s.afterScalar rd (sub (sub (s.src rs1) (2 * s.q)) s.q))) ∧
    (inputFactor mf = some 8 → s.q ≠ 0 →
      exec (.reduce rd rs1 mf) s = .next (s.afterScalar rd (sub (sub (sub (s.src rs1) (4 * s.q)) (2 * s.q)) s.q)))

/-- The law of REDUCE: below mf q the result is the remainder, and each step that runs halves the bound. The spec's own inference
(R117, "derived: from rule R116"). -/
def Obligations.ReduceLaw : Prop :=
  (∀ (rd rs1 : Reg) (mf : FactorSel) (f : Nat) (s : State), inputFactor mf = some f → s.src rs1 < f * s.q →
    exec (.reduce rd rs1 mf) s = .next (s.afterScalar rd (s.src rs1 % s.q))) ∧
  (∀ r b, r < 2 * b → subIfGe r b < b ∧ (r - subIfGe r b = 0 ∨ r - subIfGe r b = b))

/-! ## modular_add_sub_mod -/

/-- ADDMOD (41_addsub_pow.md R131). -/
def Obligations.AddmodGivesSum : Prop :=
  ∀ (rd rs1 rs2 : Reg) (s : State),
    Encodes (.addmod rd rs1 rs2) 0x10 rd rs1 rs2 0 0 ∧
    (s.q = 0 → exec (.addmod rd rs1 rs2) s = .next (s.raise .modZero)) ∧
    (s.q ≠ 0 → s.q ≤ s.src rs1 ∨ s.q ≤ s.src rs2 → exec (.addmod rd rs1 rs2) s = .next (s.raise .operandGeMod)) ∧
    (s.src rs1 < s.q → s.src rs2 < s.q →
      exec (.addmod rd rs1 rs2) s = .next (s.afterScalar rd ((s.src rs1 + s.src rs2) % s.q)))

/-- SUBMOD (R132): the difference mod q, in [0, q). -/
def Obligations.SubmodGivesDifference : Prop :=
  ∀ (rd rs1 rs2 : Reg) (s : State),
    Encodes (.submod rd rs1 rs2) 0x11 rd rs1 rs2 0 0 ∧
    (s.q = 0 → exec (.submod rd rs1 rs2) s = .next (s.raise .modZero)) ∧
    (s.q ≠ 0 → s.q ≤ s.src rs1 ∨ s.q ≤ s.src rs2 → exec (.submod rd rs1 rs2) s = .next (s.raise .operandGeMod)) ∧
    (s.src rs1 < s.q → s.src rs2 < s.q →
      exec (.submod rd rs1 rs2) s = .next (s.afterScalar rd (((s.src rs1 : Int) - s.src rs2) % s.q).toNat))

/-- POWMOD (R133): the power, for every base and exponent, with 0^0 = 1. -/
def Obligations.PowmodGivesPower : Prop :=
  ∀ (rd rs1 rs2 : Reg) (s : State),
    Encodes (.powmod rd rs1 rs2) 0x12 rd rs1 rs2 0 0 ∧
    (s.q = 0 → exec (.powmod rd rs1 rs2) s = .next (s.raise .modZero)) ∧
    (s.q ≠ 0 → exec (.powmod rd rs1 rs2) s = .next (s.afterScalar rd ((s.src rs1 % s.q) ^ s.src rs2 % s.q)))

/-- INVMOD (R134): the inverse in [1, q) where there is one, else DOMAIN(NOT_INVERTIBLE). -/
def Obligations.InvmodGivesInverse : Prop :=
  ∀ (rd rs1 : Reg) (s : State),
    Encodes (.invmod rd rs1) 0x13 rd rs1 0 0 0 ∧
    (s.q = 0 → exec (.invmod rd rs1) s = .next (s.raise .modZero)) ∧
    (s.q ≠ 0 → s.src rs1 % s.q = 0 ∨ Nat.gcd (s.src rs1) s.q ≠ 1 →
      exec (.invmod rd rs1) s = .next (s.raise .notInvertible)) ∧
    (s.q ≠ 0 → s.src rs1 % s.q ≠ 0 → Nat.gcd (s.src rs1) s.q = 1 →
      ∃ v, exec (.invmod rd rs1) s = .next (s.afterScalar rd v) ∧ 1 ≤ v ∧ v < s.q ∧ s.src rs1 * v % s.q = 1 ∧
        ∀ w, 1 ≤ w → w < s.q → s.src rs1 * w % s.q = 1 → w = v)

/-! ## bit_reverse_unit -/

/-- BITREV (42_bitrev_table.md R150): bit b of V goes to bit K - 1 - b, no bit above K - 1 is set; MODULUS is not read. -/
def Obligations.BitrevReversesBits : Prop :=
  ∀ (rd rs1 rs2 : Reg) (s : State),
    Encodes (.bitrev rd rs1 rs2) 0x20 rd rs1 rs2 0 0 ∧
    (64 < s.src rs2 → exec (.bitrev rd rs1 rs2) s = .next (s.raise .bitrevWidth)) ∧
    (s.src rs2 ≤ 64 → 2 ^ s.src rs2 ≤ s.src rs1 → exec (.bitrev rd rs1 rs2) s = .next (s.raise .bitrevValue)) ∧
    (s.src rs2 ≤ 64 → s.src rs1 < 2 ^ s.src rs2 →
      ∃ v, exec (.bitrev rd rs1 rs2) s = .next (s.afterScalar rd v) ∧ v < 2 ^ s.src rs2 ∧
        (∀ b < s.src rs2, v.testBit (s.src rs2 - 1 - b) = (s.src rs1).testBit b) ∧
        bitRev (s.src rs2) v = s.src rs1)

/-- BREVBUF (R151): word k takes the old word at bitrev_L(k), for every k below the degree, and nothing else of the arrays or the
registers changes; MODULUS is not read. -/
def Obligations.BrevbufPermutesBuffer : Prop :=
  ∀ s : State,
    Encodes .brevbuf 0x21 0 0 0 0 0 ∧
    (isPowerOfTwo s.n = false → exec .brevbuf s = .next (s.raise .degreeNotPow2)) ∧
    (isPowerOfTwo s.n = true → s.n < 2 ∨ 2 ^ s.params.nMaxLog2 < s.n → exec .brevbuf s = .next (s.raise .degreeRange)) ∧
    (isPowerOfTwo s.n = true → 2 ≤ s.n → s.n ≤ 2 ^ s.params.nMaxLog2 →
      ∃ t, exec .brevbuf s = .next t ∧
        (∀ k < s.n, t.readArray .buf k = s.readArray .buf (bitRev s.n.log2 k)) ∧
        (∀ a, a < 0x01000000 ∨ 0x01000000 + 8 * s.n ≤ a → t.readByte a = s.readByte a) ∧
        t.x = s.x ∧ t.errCmd = s.errCmd ∧ SameControl s t ∧ SameTables s t ∧
        t.pending = none ∧ t.status = { s.status with done := true, err := .none, errDetail := .none })

/-! ## power_table_rom -/

/-- TBUILD (R152 to R158): a root accepted by the checks builds the five columns below n and the metadata in one step; words at n and
above, BUF and the registers keep their values. -/
def Obligations.TbuildBuildsTables : Prop :=
  ∀ (rs1 : Reg) (s : State), s.params.legal = true → firstFailure (ruleChecks (.tbuild rs1) s) = none →
    ∃ t, exec (.tbuild rs1) s = .next t ∧ RootAccepted s.n s.q (s.src rs1) ∧ t.TableHolds s.n s.q (s.src rs1) ∧
      t.tblN.toNat = s.n ∧ t.tblQ.toNat = s.q ∧ t.tblRoot.toNat = s.src rs1 ∧
      t.status = { s.status with done := true, err := .none, errDetail := .none, tblValid := true } ∧
      t.pending = none ∧ t.errCmd = s.errCmd ∧ t.x = s.x ∧ SameControl s t ∧
      (∀ a, a < 0x02000000 ∨ 0x07000000 ≤ a ∨ 8 * s.n ≤ a % 0x01000000 → t.readByte a = s.readByte a)

/-- The table laws after a successful TBUILD with a prime q. The spec's own inference (R160, "derived: from rules R153, R155,
R158"). -/
def Obligations.TableLaws : Prop :=
  ∀ (s : State) (n q g : Nat), Nat.Prime q → RootAccepted n q g → s.TableHolds n q g →
    (∀ k < n, (s.readArray .fwdPow k).toNat * (s.readArray .invPow k).toNat % q = 1) ∧
    (s.readArray .fwdPow 1).toNat = g ^ (n / 2) % q ∧
    g ^ n % q = q - 1 ∧
    (∀ t : State, t.TableHolds n q g → ∀ k < n,
      t.readArray .fwdPow k = s.readArray .fwdPow k ∧ t.readArray .fwdPre64 k = s.readArray .fwdPre64 k ∧
      t.readArray .fwdPre52 k = s.readArray .fwdPre52 k ∧ t.readArray .invPow k = s.readArray .invPow k ∧
      t.readArray .invPre64 k = s.readArray .invPre64 k)

/-- The sentinel slot: word 0 of a built table is 1, and no transform depends on what word 0 of a table holds. The spec's own
inference (R159, "derived: from rules R153, R155"). -/
def Obligations.SentinelSlotIsUnused : Prop :=
  (∀ (s : State) (n q g : Nat), RootAccepted n q g → s.TableHolds n q g →
    (s.readArray .fwdPow 0).toNat = 1 ∧ (s.readArray .invPow 0).toNat = 1) ∧
  (∀ s t : State, s.n = t.n → s.q = t.q → isPowerOfTwo s.n = true → 2 ≤ s.n →
    (∀ k < s.n, s.readArray .buf k = t.readArray .buf k) →
    (∀ arr, ∀ k < s.n, k ≠ 0 → s.readArray arr k = t.readArray arr k) →
    ∀ p, s.forwardOutput p = t.forwardOutput p ∧ s.inverseOutput p = t.inverseOutput p)

/-! ## ntt_butterfly_engine -/

/-- FNTT completes, and its postcondition never fails (43_ntt.md R175; the spec's own inference in R178, "derived"): with tables as
TBUILD leaves them, every command whose checks pass ends with every word below q, LAST_PATH recorded, and nothing outside BUF[0 ..
n-1] changed. -/
def Obligations.FnttCompletesBelowModulus : Prop :=
  ∀ (m : ModeSel) (s : State), s.params.legal = true → s.TablesAgree → firstFailure (ruleChecks (.fntt m) s) = none →
    ∃ t, exec (.fntt m) s = .next t ∧ TransformReport s t (recordedPath m (autoForward s)) ∧
      (∀ k < s.n, (t.readArray .buf k).toNat < s.q) ∧
      (∀ a, a < 0x01000000 ∨ 0x01000000 + 8 * s.n ≤ a → t.readByte a = s.readByte a) ∧
      t.x = s.x ∧ t.errCmd = s.errCmd ∧ SameControl s t ∧ SameTables s t

/-- INTT completes, and its postcondition never fails (R175; the spec's own inference in R187, "derived"). -/
def Obligations.InttCompletesBelowModulus : Prop :=
  ∀ (m : ModeSel) (s : State), s.params.legal = true → s.TablesAgree → firstFailure (ruleChecks (.intt m) s) = none →
    ∃ t, exec (.intt m) s = .next t ∧ TransformReport s t (recordedPath m (autoInverse s)) ∧
      (∀ k < s.n, (t.readArray .buf k).toNat < s.q) ∧
      (∀ a, a < 0x01000000 ∨ 0x01000000 + 8 * s.n ≤ a → t.readByte a = s.readByte a) ∧
      t.x = s.x ∧ t.errCmd = s.errCmd ∧ SameControl s t ∧ SameTables s t

/-- The forward law (the spec's own inference in R177, "derived"): for a prime q, FNTT leaves in word k the value at G^(2
bitrev_L(k) + 1) of the input polynomial. -/
def Obligations.FnttComputesNegacyclicTransform : Prop :=
  ∀ (m : ModeSel) (s : State), s.params.legal = true → s.TablesAgree → Nat.Prime s.q →
    firstFailure (ruleChecks (.fntt m) s) = none →
    ∃ t, exec (.fntt m) s = .next t ∧ t.status.err = .none ∧
      ∀ k < s.n, (t.readArray .buf k).toNat =
        negacyclicValue s.n s.q s.tblRoot.toNat (fun j => (s.readArray .buf j).toNat) k

/-- The inverse law (the spec's own inference in R186, second part, "derived"): for a prime q, INTT leaves in word j the coefficient
j of the polynomial whose values, in bit-reversed order, BUF held. -/
def Obligations.InttComputesInverseTransform : Prop :=
  ∀ (m : ModeSel) (s : State), s.params.legal = true → s.TablesAgree → Nat.Prime s.q →
    firstFailure (ruleChecks (.intt m) s) = none →
    ∃ t, exec (.intt m) s = .next t ∧ t.status.err = .none ∧
      ∀ j < s.n, (t.readArray .buf j).toNat < s.q ∧ s.n * (t.readArray .buf j).toNat % s.q =
        scaledCoefficient s.n s.q s.tblRoot.toNat (fun k => (s.readArray .buf k).toNat) j

/-- The round trip (R186, the spec's own inference, "derived"): FNTT issued and completed with any mode, then INTT with any mode,
gives BUF[0 .. n-1] back. -/
def Obligations.InttAfterFnttRestoresBuffer : Prop :=
  ∀ (m m' : ModeSel) (s : State), m.wellFormed = true → m'.wellFormed = true → s.params.legal = true → s.TablesAgree →
    s.inReset = false → s.pending = none → Nat.Prime s.q →
    firstFailure (ruleChecks (.fntt m) s) = none →
    firstFailure (pathChecks .inv m' s) = none → (requestedPath m').isSome = true →
    ∃ t u, step (s.issue (.fntt m)) = .next t ∧ t.status.err = .none ∧
      step (t.issue (.intt m')) = .next u ∧ u.status.err = .none ∧
      ∀ k < s.n, u.readArray .buf k = s.readArray .buf k

/-- The paths are bit-exact (44_dispatch.md R208, the spec's own inference for a prime q, "derived"; for a composite q it rests on
43_ntt.md sections 2 and 3 and 40_modmul.md): two modes that both pass the checks leave
the same BUF, forward and inverse. -/
def Obligations.PathsAreBitExact : Prop :=
  ∀ (m m' : ModeSel) (s : State), s.params.legal = true → s.TablesAgree →
    (firstFailure (ruleChecks (.fntt m) s) = none → firstFailure (ruleChecks (.fntt m') s) = none →
      ∃ t t', exec (.fntt m) s = .next t ∧ exec (.fntt m') s = .next t' ∧ t.mem = t'.mem) ∧
    (firstFailure (ruleChecks (.intt m) s) = none → firstFailure (ruleChecks (.intt m') s) = none →
      ∃ t t', exec (.intt m) s = .next t ∧ exec (.intt m') s = .next t' ∧ t.mem = t'.mem)

/-! ## hardware_dispatch_mux -/

/-- RESOLVE_PATH (44_dispatch.md R204), in both directions. -/
def Obligations.PathSelectionFollowsMux : Prop :=
  ∀ (params : Config.Params) (ctrl : Ctrl) (q : Nat),
    let narrow := params.narrow52Impl && ctrl.enNarrow52
    let wide := params.wide64Impl && ctrl.enWide64
    (∀ dir, 2 ^ 62 ≤ q → resolvePath params ctrl dir none q = .error .modPathBound) ∧
    (q < 2 ^ 62 →
      resolvePath params ctrl .fwd none q =
        .ok (if narrow = true ∧ q < 2 ^ 50 then .narrow52 else if wide = true then .wide64 else .scalar) ∧
      resolvePath params ctrl .inv none q = .ok (if wide = true then .wide64 else .scalar)) ∧
    (∀ dir p, p = .scalar ∨ p = .reference →
      resolvePath params ctrl dir (some p) q = if q < 2 ^ 62 then .ok p else .error .modPathBound) ∧
    (∀ dir, resolvePath params ctrl dir (some .wide64) q =
      if wide = true then (if q < 2 ^ 62 then .ok .wide64 else .error .modPathBound) else .error .pathUnavailable) ∧
    (resolvePath params ctrl .fwd (some .narrow52) q =
      if narrow = true then (if q < 2 ^ 50 then .ok .narrow52 else .error .modPathBound) else .error .pathUnavailable) ∧
    resolvePath params ctrl .inv (some .narrow52) q = .error .modeUnsupported

/-- No narrow inverse (R205): INTT in mode NARROW52 raises MODE_UNSUPPORTED whatever CAP and CTRL say, once the checks of R170 that
come before the path hold. -/
def Obligations.InttNarrowIsUnsupported : Prop :=
  ∀ s : State, s.q ≠ 0 → firstFailure (degreeChecks s) = none →
    exec (.intt .narrow52) s = .next (s.raise .modeUnsupported)

/-- LAST_PATH (R207): a transform that completes without error records its path, and every other completion leaves LAST_PATH as it
was. -/
def Obligations.LastPathRecordsTransformsOnly : Prop :=
  ∀ (s t : State) (p : Pending), s.inReset = false → s.inputs = [] → s.pending = some p → step s = .next t →
    (t.status.err = .none → ∀ m, decodeCommand p.word = .ok (.fntt m) →
      t.status.lastPath = some (recordedPath m (autoForward s))) ∧
    (t.status.err = .none → ∀ m, decodeCommand p.word = .ok (.intt m) →
      t.status.lastPath = some (recordedPath m (autoInverse s))) ∧
    (t.status.err ≠ .none → t.status.lastPath = s.status.lastPath) ∧
    ((∀ m, decodeCommand p.word ≠ .ok (.fntt m) ∧ decodeCommand p.word ≠ .ok (.intt m)) →
      t.status.lastPath = s.status.lastPath)

/-! ## Frames -/

/-- A scalar command changes its destination register and the report of its completion, and nothing else (10_state.md R31,
60_exceptions.md R224): MFACT, MULLAZY, MULMOD, MULMODP, BRED, REDUCE, ADDMOD, SUBMOD, POWMOD, INVMOD, BITREV. -/
def Obligations.ScalarCommandFrame : Prop :=
  ∀ (i : Instr) (rd : Reg) (s t : State), destination i = some rd → exec i s = .next t →
    (∀ r, r ≠ rd → t.x[r] = s.x[r]) ∧ (t.status.err ≠ .none → t.x = s.x) ∧ (t.status.err = .none → t.errCmd = s.errCmd) ∧
    (∀ a, t.readByte a = s.readByte a) ∧ t.mem = s.mem ∧ SameControl s t ∧ SameTables s t ∧
    t.status.hazard = s.status.hazard ∧ t.status.fatal = s.status.fatal ∧ t.status.lastPath = s.status.lastPath

/-- FNTT, INTT and BREVBUF change BUF[0 .. n-1] and STATUS, ERR_CMD only where they raise, and nothing else; TBUILD changes the first
n words of the five tables, their metadata and STATUS, ERR_CMD only where it raises (20_memory.md R78, 42_bitrev_table.md R152). -/
def Obligations.ArrayCommandFrame : Prop :=
  ∀ (i : Instr) (s t : State), s.params.legal = true → destination i = none → exec i s = .next t →
    t.x = s.x ∧ SameControl s t ∧ t.status.hazard = s.status.hazard ∧ (t.status.err = .none → t.errCmd = s.errCmd) ∧
    ((∀ r, i ≠ .tbuild r) → SameTables s t ∧
      ∀ a, a < 0x01000000 ∨ 0x01000000 + 8 * s.n ≤ a → t.readByte a = s.readByte a) ∧
    ((∃ r, i = .tbuild r) → t.status.fatal = s.status.fatal ∧ t.status.lastPath = s.status.lastPath ∧
      ∀ a, a < 0x02000000 ∨ 0x07000000 ≤ a ∨ 8 * s.n ≤ a % 0x01000000 → t.readByte a = s.readByte a)

/-! ## The host's window -/

/-- A host access gets a bus error exactly in the cases of 60_exceptions.md R229, and then changes nothing but HAZARD, which the
refusals for busy set; stated while reset is not asserted. That a busy block's refusal of a write of wrong width or alignment leaves
HAZARD is an inference, where R229's cases 1 and 4 both hold (notes/assumptions/21.md). -/
def Obligations.BusErrorsExactlyWhenListed : Prop :=
  ∀ (s : State) (off : Nat), s.inReset = false → off < 0x08000000 →
    (∀ n, ∃ t, s.hostRead off n = .next t ∧
      (t.response = .busError ↔ n ≠ 8 ∨ off % 8 ≠ 0 ∨ reservedOffset s off) ∧
      (t.response = .busError → t = { s with inputs := [], response := .busError })) ∧
    (∀ lanes : List Byte, ∃ t, s.hostWrite off lanes = .next t ∧
      (t.response = .busError ↔ lanes.length ≠ 8 ∨ off % 8 ≠ 0 ∨ reservedOffset s off ∨ readOnlyOffset off ∨ s.busy = true ∨
        (off = 0x020 ∧ s.status.fatal = true)) ∧
      (t.response = .busError →
        (s.busy = true ∧ lanes.length = 8 ∧ off % 8 = 0 ∧ ¬reservedOffset s off ∧ ¬readOnlyOffset off →
          t = { s with inputs := [], response := .busError, status := { s.status with hazard := true } }) ∧
        (¬(s.busy = true ∧ lanes.length = 8 ∧ off % 8 = 0 ∧ ¬reservedOffset s off ∧ ¬readOnlyOffset off) →
          t = { s with inputs := [], response := .busError })))

/-- An idle block answers a read with the word at the offset, in little-endian lanes, for every register and array word of the map
(20_memory.md R61, R62, R63; 10_state.md R34, R37), and the read changes nothing. -/
def Obligations.IdleReadsReturnTheMap : Prop :=
  ∀ s : State, s.inReset = false → s.busy = false → s.params.legal = true →
    let reads (off : Nat) (w : Word) : Prop := s.hostRead off 8 = .next { s with inputs := [], response := .readOk (bytesOfWord w) }
    reads 0x000 0x000000004E540007 ∧ reads 0x008 (capWord s.params) ∧ reads 0x010 s.ctrl.word ∧ reads 0x018 s.statusWord ∧
    reads 0x020 s.cmd ∧ reads 0x028 s.errCmd ∧ reads 0x030 s.modulus ∧ reads 0x038 s.degree ∧ reads 0x040 s.tblN ∧
    reads 0x048 s.tblQ ∧ reads 0x050 s.tblRoot ∧ (∀ r : Reg, reads (0x100 + 8 * r.val) s.x[r]) ∧
    (∀ arr k, k < 2 ^ s.params.nMaxLog2 → reads (arr.base + 8 * k) (s.readArray arr k))

/-- The bits of STATUS, CTRL and CAP as the host reads them, every unnamed bit 0 (10_state.md R35, R38, R39, R40). -/
def Obligations.StatusWordLayout : Prop :=
  ∀ s : State, s.params.nMaxLog2 < 32 →
    (s.statusWord.getLsbD 0 = s.busy ∧ s.statusWord.getLsbD 1 = s.status.done ∧
      bits s.statusWord.toNat 4 2 = s.status.err.code ∧ s.statusWord.getLsbD 5 = s.status.fatal ∧
      s.statusWord.getLsbD 6 = s.status.hazard ∧ s.statusWord.getLsbD 7 = s.status.tblValid ∧
      bits s.statusWord.toNat 10 8 = pathCode s.status.lastPath ∧ bits s.statusWord.toNat 15 11 = 0 ∧
      bits s.statusWord.toNat 23 16 = s.status.errDetail.code ∧ s.statusWord.toNat < 2 ^ 24) ∧
    (s.ctrl.word.getLsbD 0 = s.ctrl.enWide64 ∧ s.ctrl.word.getLsbD 1 = s.ctrl.enNarrow52 ∧ s.ctrl.word.toNat < 4) ∧
    ((capWord s.params).getLsbD 0 = s.params.wide64Impl ∧ (capWord s.params).getLsbD 1 = s.params.narrow52Impl ∧
      bits (capWord s.params).toNat 7 2 = 0 ∧ bits (capWord s.params).toNat 12 8 = s.params.nMaxLog2 ∧
      (capWord s.params).toNat < 2 ^ 13)

/-- What the idle block's writes store (20_memory.md R63, R67; 10_state.md R30, R43, R44, R45): Xi, MODULUS, DEGREE and BUF[k] hold
the value written, and nothing else changes. -/
def Obligations.IdleWritesStoreTheirWord : Prop :=
  ∀ (s : State) (v : Word), s.inReset = false → s.busy = false → s.params.legal = true →
    s.hostWrite 0x030 (bytesOfWord v) = .next { s with inputs := [], response := .writeOk, modulus := v } ∧
    s.hostWrite 0x038 (bytesOfWord v) = .next { s with inputs := [], response := .writeOk, degree := v } ∧
    (∀ r : Reg, s.hostWrite (0x100 + 8 * r.val) (bytesOfWord v) =
      .next { s with inputs := [], response := .writeOk, x := s.x.set r.val v }) ∧
    (∀ k, k < 2 ^ s.params.nMaxLog2 → ∃ t, s.hostWrite (0x01000000 + 8 * k) (bytesOfWord v) = .next t ∧
      t = { s with inputs := [], response := .writeOk, mem := t.mem } ∧ t.readArray .buf k = v ∧
      ∀ a, a < 0x01000000 + 8 * k ∨ 0x01000000 + 8 * k + 8 ≤ a → t.readByte a = s.readByte a)

/-- A CTRL write (10_state.md R39): an enable follows its bit where the path is implemented and stays 0 elsewhere; bit 8 clears
HAZARD; the other bits are ignored. -/
def Obligations.CtrlWriteSetsEnablesAndClearsHazard : Prop :=
  ∀ (s : State) (v : Word), s.inReset = false → s.busy = false →
    s.hostWrite 0x010 (bytesOfWord v) =
      .next
        { s with
          inputs := []
          response := .writeOk
          ctrl :=
            { enWide64 := if s.params.wide64Impl then v.getLsbD 0 else false
              enNarrow52 := if s.params.narrow52Impl then v.getLsbD 1 else false }
          status := { s.status with hazard := if v.getLsbD 8 then false else s.status.hazard } }

/-- Accesses while busy (20_memory.md R68): Xi, the arrays and the table metadata draw an unspecified value and the command is not
affected, the other registers answer their value, STATUS with BUSY 1 and no error, and a write to a writable place is refused and
sets HAZARD. The value drawn is the model's free value (notes/assumptions/5.md). -/
def Obligations.BusyAccesses : Prop :=
  ∀ s : State, s.Sound → s.inReset = false → s.busy = true →
    let reads (off : Nat) (w : Word) : Prop := s.hostRead off 8 = .next { s with inputs := [], response := .readOk (bytesOfWord w) }
    (∀ off, off < 0x08000000 → off % 8 = 0 → ¬reservedOffset s off → hiddenWhileBusy off → s.hostRead off 8 =
      .next { s with inputs := [], response := .readOk (bytesOfWord (Config.busyRead s.draws)), draws := s.draws + 1 }) ∧
    reads 0x000 0x000000004E540007 ∧ reads 0x008 (capWord s.params) ∧ reads 0x010 s.ctrl.word ∧ reads 0x018 s.statusWord ∧
    reads 0x020 s.cmd ∧ reads 0x028 s.errCmd ∧ reads 0x030 s.modulus ∧ reads 0x038 s.degree ∧
    s.statusWord.getLsbD 0 = true ∧ bits s.statusWord.toNat 4 2 = 0 ∧ bits s.statusWord.toNat 23 16 = 0 ∧
    (∀ off (lanes : List Byte), off < 0x08000000 → lanes.length = 8 → off % 8 = 0 → ¬reservedOffset s off → ¬readOnlyOffset off →
      s.hostWrite off lanes =
        .next { s with inputs := [], response := .busError, status := { s.status with hazard := true } })

/-! ## Whole-machine rules -/

/-- FATAL (60_exceptions.md R227): no step clears it but a release of reset, and only an INTERNAL completion sets it. -/
def Obligations.OnlyResetClearsFatal : Prop :=
  ∀ s t : State, step s = .next t →
    (s.status.fatal = true → t.status.fatal = true ∨ (s.inReset = true ∧ ∃ rest, s.inputs = .reset false :: rest)) ∧
    (s.status.fatal = false → t.status.fatal = true →
      t.status.err = .internal ∧ s.busy = true ∧ t.busy = false)

/-- HAZARD (R228): a step that sets it is a write refused because the block is busy; a step that clears it is an idle CTRL write with
bit 8 set, or a release of reset. -/
def Obligations.HazardChangesOnlyAsListed : Prop :=
  ∀ s t : State, step s = .next t →
    (s.status.hazard = false → t.status.hazard = true →
      s.busy = true ∧ t.response = .busError ∧ ∃ addr lanes rest, s.inputs = .memWrite addr lanes :: rest) ∧
    (s.status.hazard = true → t.status.hazard = false →
      (s.busy = false ∧ ∃ lanes rest, s.inputs = .memWrite (s.params.blockBase + 0x010) lanes :: rest ∧
        (wordOfBytes lanes).getLsbD 8 = true) ∨
      (s.inReset = true ∧ ∃ rest, s.inputs = .reset false :: rest))

/-- Tables are immutable once built (20_memory.md R66, R77; 10_state.md R51): a step that changes a table byte or the metadata is a
release of reset or the completion, in that step, of a pending TBUILD without error. -/
def Obligations.OnlyTbuildOrResetChangesTables : Prop :=
  ∀ s t : State, s.params.legal = true → step s = .next t →
    (SameTables s t ∧ ∀ a, 0x02000000 ≤ a → t.readByte a = s.readByte a) ∨
    (s.inReset = true ∧ ∃ rest, s.inputs = .reset false :: rest) ∨
    (t.status.err = .none ∧ s.inReset = false ∧ t.busy = false ∧
      ∃ p r, s.pending = some p ∧ decodeCommand p.word = .ok (.tbuild r))

/-- The operand registers (10_state.md R31): a step that changes Xi is an 8-byte host write to its address while not busy, which stores
its value, the completion, in that step, without error of a pending scalar command whose destination is Xi, or a release of reset. -/
def Obligations.OperandRegisterWriters : Prop :=
  ∀ (s t : State) (r : Reg), step s = .next t → t.x[r] ≠ s.x[r] →
    (s.inReset = false ∧ s.busy = false ∧
      ∃ lanes rest, s.inputs = .memWrite (s.params.blockBase + 0x100 + 8 * r.val) lanes :: rest ∧
        lanes.length = 8 ∧ t.x[r] = wordOfBytes lanes) ∨
    (t.status.err = .none ∧ s.inReset = false ∧ t.busy = false ∧
      ∃ p i, s.pending = some p ∧ decodeCommand p.word = .ok i ∧ destination i = some r) ∨
    (s.inReset = true ∧ ∃ rest, s.inputs = .reset false :: rest)

/-- The lane counts are invisible to every rule (00_scope.md R8; the spec's own inference in 44_dispatch.md R210, "derived"): a step
with other lane counts is the same step. -/
def Obligations.LaneCountsAreInvisible : Prop :=
  ∀ (s : State) (w n : Nat),
    let lanes (s : State) : State := { s with params := { s.params with lanesWide := w, lanesNarrow := n } }
    step (lanes s) = match step s with
      | .next t => .next (lanes t)
      | .fault f => .fault f
      | .refused r => .refused r

/-- A command reads its operand registers, MODULUS, DEGREE and CTRL from the snapshot taken at acceptance only (10_state.md R32, R53;
20_memory.md R71): other live values give the same outcome on everything but those live registers. -/
def Obligations.CommandsReadTheSnapshot : Prop :=
  ∀ (i : Instr) (s t : State) (p : Pending) (x : Vector Word 16) (modulus degree : Word) (ctrl : Ctrl),
    s.pending = some p → exec i s = .next t →
    ∃ u, exec i { s with x := x, modulus := modulus, degree := degree, ctrl := ctrl } = .next u ∧
      u.mem = t.mem ∧ u.status = t.status ∧ u.errCmd = t.errCmd ∧ SameTables t u ∧
      (∀ rd, destination i = some rd → t.status.err = .none → u.x[rd] = t.x[rd])

/-! ## Reset -/

/-- The state after reset (10_state.md R54; 70_reset_and_hazards.md R252): every register 0, the block idle with nothing pending. That
the array bytes are the free values of notes/assumptions/4.md is the model's choice. -/
def Obligations.ResetStateHoldsResetValues : Prop :=
  (∀ r : Reg, State.reset.x[r] = 0) ∧ State.reset.placeWord .id = 0x000000004E540007 ∧
  State.reset.placeWord .cap = capWord State.reset.params ∧ State.reset.ctrl.word = 0 ∧ State.reset.statusWord = 0 ∧
  State.reset.cmd = 0 ∧ State.reset.errCmd = 0 ∧ State.reset.modulus = 0 ∧ State.reset.degree = 0 ∧ State.reset.tblN = 0 ∧
  State.reset.tblQ = 0 ∧ State.reset.tblRoot = 0 ∧ State.reset.pending = none ∧
  (∀ a, State.reset.readByte a = Config.arrayAtReset 0 a) ∧ step State.reset = .next State.reset

/-- Reset (70_reset_and_hazards.md R250, R251): while it is asserted every access gets a bus error and changes nothing, and nothing
pending completes; its release gives every piece its reset value, keeps the instance's parameters, and leaves no trace of a pending
command. That a pending command is still held until the release is an inference (notes/assumptions/10.md); the array's free values
are the model's choice (notes/assumptions/4.md). -/
def Obligations.ResetReleaseClearsEverything : Prop :=
  (∀ (s : State) (off : Nat), s.inReset = true → off < 0x08000000 →
    (∀ n, s.hostRead off n = .next { s with inputs := [], response := .busError }) ∧
    (∀ lanes, s.hostWrite off lanes = .next { s with inputs := [], response := .busError }) ∧
    step { s with inputs := [] } = .next { s with inputs := [] } ∧
    step { s with inputs := [.completion] } = .next { s with inputs := [] }) ∧
  (∀ s : State, step { s with inputs := [.reset true] } = .next { s with inputs := [], inReset := true }) ∧
  (∀ s : State, s.inReset = true → ∃ t, step { s with inputs := [.reset false] } = .next t ∧
    (∀ r : Reg, t.x[r] = 0) ∧ t.ctrl.word = 0 ∧ t.statusWord = 0 ∧ t.cmd = 0 ∧ t.errCmd = 0 ∧ t.modulus = 0 ∧ t.degree = 0 ∧
    t.tblN = 0 ∧ t.tblQ = 0 ∧ t.tblRoot = 0 ∧ t.pending = none ∧ t.inReset = false ∧ t.params = s.params ∧
    ∀ a, t.readByte a = Config.arrayAtReset (s.resets + 1) a)

/-! ## Invariants -/

/-- The reset state is sound and its tables agree. -/
def Obligations.ResetStateIsSound : Prop := State.reset.Sound ∧ State.reset.TablesAgree

/-- Every step from a sound state leaves a sound state. -/
def Obligations.EveryStepKeepsSoundness : Prop := ∀ s t : State, s.Sound → step s = .next t → t.Sound

/-- Every step keeps the tables in agreement with TBL_VALID and the metadata (10_state.md R51, 42_bitrev_table.md R160). -/
def Obligations.EveryStepKeepsTablesAgreeing : Prop :=
  ∀ s t : State, s.params.legal = true → s.TablesAgree → step s = .next t → t.TablesAgree

/-- INTERNAL is never raised and FATAL never set (the spec's own inference in 43_ntt.md R178 and R187, "derived"): from a state
whose tables agree and whose FATAL is 0, every step leaves FATAL 0. -/
def Obligations.FatalIsNeverSet : Prop :=
  ∀ s t : State, s.params.legal = true → s.TablesAgree → s.status.fatal = false → step s = .next t → t.status.fatal = false
end

