-- ==== Sys2Proof/Laws/Arith.lean ====
section
/-! SUPPORT. What the helper functions of 00_scope.md R15 compute, in ordinary arithmetic. -/

namespace Sys2Proof.Machine

/-! ## lo64 -/

theorem lo64_lt (v : Int) : lo64 v < 2 ^ 64 := by
  unfold lo64
  omega

theorem lo64_of_lt {v : Nat} (h : v < 2 ^ 64) : lo64 (v : Int) = v := by
  unfold lo64
  omega

/-- An exact value in [0, 2^64) is its own lo64. -/
theorem lo64_of_range {v : Int} (h0 : 0 ≤ v) (h : v < 2 ^ 64) : (lo64 v : Int) = v := by
  unfold lo64
  omega

@[simp] theorem wordOf_toNat (v : Int) : (wordOf v).toNat = lo64 v := by
  exact Nat.mod_eq_of_lt (lo64_lt v)

theorem wordOf_toNat_of_lt {v : Nat} (h : v < 2 ^ 64) : (wordOf (v : Int)).toNat = v := by
  rw [wordOf_toNat, lo64_of_lt h]

/-! ## Conditional subtraction and REDUCE -/

theorem subIfGe_lt {r b : Nat} (h : r < 2 * b) : subIfGe r b < b := by
  unfold subIfGe
  split <;> omega

theorem subIfGe_le (r b : Nat) : subIfGe r b ≤ r := by
  unfold subIfGe
  split <;> omega

/-- A conditional subtraction of a multiple of q keeps the residue. -/
theorem subIfGe_mod (r c q : Nat) : subIfGe r (c * q) % q = r % q := by
  unfold subIfGe
  split
  · rename_i h
    conv_rhs => rw [← Nat.sub_add_cancel h]
    simp [Nat.add_mod]
  · rfl

theorem subIfGe_mod_self (r q : Nat) : subIfGe r q % q = r % q := by
  simpa using subIfGe_mod r 1 q

/-- Below twice the modulus one conditional subtraction is the remainder. -/
theorem subIfGe_eq_mod {r q : Nat} (h : r < 2 * q) : subIfGe r q = r % q := by
  rw [← subIfGe_mod_self r q, Nat.mod_eq_of_lt (subIfGe_lt h)]

/-- REDUCE at factor 4 of a value below 4q is its remainder (40_modmul.md R117 at mf = 4). -/
theorem reduceBy_four {x q : Nat} (h : x < 4 * q) : reduceBy 4 x q = x % q := by
  have h1 : subIfGe x (2 * q) < 2 * q := subIfGe_lt (by omega)
  simp only [reduceBy, show ¬ (4 : Nat) ≥ 8 by omega, show (4 : Nat) ≥ 4 by omega, show (4 : Nat) ≥ 2 by omega, if_true, if_false]
  rw [subIfGe_eq_mod h1, subIfGe_mod]

/-! ## The Barrett factor and the lazy multiply -/

/-- For an operand below the modulus the factor is the exact quotient, below 2^s (40_modmul.md R111). -/
theorem barrettFactor_eq {s op q : Nat} (hs : s ≤ 64) (h : op < q) :
    barrettFactor s op q = op * 2 ^ s / q ∧ op * 2 ^ s / q < 2 ^ s := by
  have hlt : op * 2 ^ s / q < 2 ^ s := Nat.div_lt_of_lt_mul (Nat.mul_lt_mul_of_pos_right h (by positivity))
  exact ⟨lo64_of_lt (lt_of_lt_of_le hlt (Nat.pow_le_pow_right (by omega) hs)), hlt⟩

/-- The quotient estimate with the exact factor is the quotient or one less (the proof sketch of 40_modmul.md R113). -/
theorem quotient_estimate {b x y q : Nat} (hb : 0 < b) (hq : 0 < q) (hx : x < b) :
    x * (y * b / q) / b * q ≤ y * x ∧ y * x < x * (y * b / q) / b * q + 2 * q := by
  obtain ⟨f, hf⟩ : ∃ f, f = y * b / q := ⟨_, rfl⟩
  obtain ⟨k, hk⟩ : ∃ k, k = x * f / b := ⟨_, rfl⟩
  rw [← hf, ← hk]
  have h1 : q * f ≤ y * b := hf ▸ Nat.mul_div_le (y * b) q
  have h2 : y * b < q * f + q := by
    have := Nat.lt_mul_div_succ (y * b) hq
    rw [← hf] at this
    linarith [Nat.mul_succ q f]
  have h3 : b * k ≤ x * f := hk ▸ Nat.mul_div_le (x * f) b
  have h4 : x * f < b * k + b := by
    have := Nat.lt_mul_div_succ (x * f) hb
    rw [← hk] at this
    linarith [Nat.mul_succ b k]
  constructor
  · have : b * (k * q) ≤ b * (y * x) := by nlinarith
    exact Nat.le_of_mul_le_mul_left this hb
  · have : b * (y * x) < b * (k * q + 2 * q) := by nlinarith
    exact Nat.lt_of_mul_lt_mul_left this

/-- The lazy multiply with the exact factor lies in [0, 2q) and is congruent to the product (40_modmul.md R113). -/
theorem lazyMul_range {s x y q : Nat} (hs : s ≤ 64) (hx : x < 2 ^ s) (hy : y < q) (hq : 2 * q ≤ 2 ^ 64) :
    lazyMul s x y (barrettFactor s y q) q < 2 * q ∧ lazyMul s x y (barrettFactor s y q) q % q = x * y % q := by
  have hq0 : 0 < q := by omega
  obtain ⟨hf, hflt⟩ := barrettFactor_eq hs hy
  obtain ⟨h1, h2⟩ := quotient_estimate (y := y) (q := q) (show 0 < 2 ^ s by positivity) hq0 hx
  have hk : x * (y * 2 ^ s / q) / 2 ^ s < 2 ^ 64 := by
    apply Nat.div_lt_of_lt_mul
    calc x * (y * 2 ^ s / q) ≤ x * 2 ^ s := Nat.mul_le_mul_left _ hflt.le
      _ < 2 ^ s * 2 ^ s := Nat.mul_lt_mul_of_pos_right hx (by positivity)
      _ ≤ 2 ^ s * 2 ^ 64 := Nat.mul_le_mul_left _ (Nat.pow_le_pow_right (by omega) hs)
  have hh : hiProduct s x (barrettFactor s y q) = x * (y * 2 ^ s / q) / 2 ^ s := by
    unfold hiProduct
    rw [hf, lo64_of_lt hk]
  obtain ⟨k, hkd⟩ : ∃ k, k = x * (y * 2 ^ s / q) / 2 ^ s := ⟨_, rfl⟩
  rw [← hkd] at h1 h2 hh
  have hv : lazyMul s x y (barrettFactor s y q) q = y * x - k * q := by
    unfold lazyMul
    rw [hh, ← Nat.cast_sub h1, lo64_of_lt (by omega)]
  rw [hv]
  refine ⟨by omega, ?_⟩
  conv_rhs => rw [Nat.mul_comm x y, ← Nat.sub_add_cancel h1]
  simp [Nat.add_mod]

/-! ## Powers -/

theorem powLoop_eq (q fuel r a e : Nat) (he : e < 2 ^ fuel) (hr : r = r % q) : powLoop q fuel r a e = r * a ^ e % q := by
  induction fuel generalizing r a e with
  | zero =>
    have : e = 0 := by simpa using he
    subst this
    simpa [powLoop] using hr
  | succ fuel ih =>
    unfold powLoop
    split
    · rename_i h
      subst h
      simpa using hr
    · rename_i h
      rw [ih _ _ _ (by omega) (by split <;> simp [← hr])]
      rw [Nat.mul_mod, Nat.pow_mod (a * a % q), Nat.mod_mod, ← Nat.pow_mod, ← Nat.mul_mod]
      have e2 : (a * a) ^ (e / 2) = a ^ (2 * (e / 2)) := by rw [pow_mul, pow_two]
      rw [e2]
      split
      · rename_i h1
        rw [Nat.mul_mod, Nat.mod_mod, ← Nat.mul_mod, Nat.mul_assoc, ← pow_succ', show 2 * (e / 2) + 1 = e by omega]
      · rw [show 2 * (e / 2) = e by omega]

/-- Binary exponentiation computes the power (41_addsub_pow.md R133). -/
theorem powMod_eq (a e q : Nat) : powMod a e q = a ^ e % q := by
  unfold powMod
  rw [powLoop_eq _ _ _ _ _ Nat.lt_log2_self (by simp), Nat.mul_mod, Nat.mod_mod, Nat.pow_mod (a % q), Nat.mod_mod,
    ← Nat.pow_mod, ← Nat.mul_mod, Nat.one_mul]

/-! ## Inverses -/

theorem euclidLoop_spec (q a : Nat) (fuel r0 r1 : Nat) (t0 t1 : Int) (hf : r1 < fuel) (h0 : (r0 : Int) ≡ t0 * a [ZMOD q])
    (h1 : (r1 : Int) ≡ t1 * a [ZMOD q]) : euclidLoop fuel r0 r1 t0 t1 * a ≡ (Nat.gcd r0 r1 : Int) [ZMOD q] := by
  induction fuel generalizing r0 r1 t0 t1 with
  | zero => omega
  | succ fuel ih =>
    unfold euclidLoop
    split
    · rename_i h
      subst h
      simpa using h0.symm
    · rename_i h
      have hlt : r0 % r1 < r1 := Nat.mod_lt _ (by omega)
      have hg : Nat.gcd r0 r1 = Nat.gcd r1 (r0 % r1) := by rw [Nat.gcd_comm, Nat.gcd_rec, Nat.gcd_comm]
      rw [hg]
      apply ih _ _ _ _ (by omega) h1
      have hdm : ((r0 % r1 : Nat) : Int) = r0 - (r0 / r1 : Nat) * r1 := by
        have e : (r0 : Int) = r1 * (r0 / r1 : Nat) + (r0 % r1 : Nat) := by exact_mod_cast (Nat.div_add_mod r0 r1).symm
        linarith [mul_comm (r1 : Int) (r0 / r1 : Nat)]
      rw [hdm, sub_mul, mul_assoc]
      exact h0.sub (h1.mul_left _)

/-- The inverse is below the modulus and multiplies to 1 (41_addsub_pow.md R134). -/
theorem invMod_spec {a q : Nat} (hq : 2 ≤ q) (hg : Nat.gcd a q = 1) : invMod a q < q ∧ a * invMod a q % q = 1 := by
  have hs := euclidLoop_spec q a (q + 1) q (a % q) 0 1 (by have := Nat.mod_lt a (show 0 < q by omega); omega)
    (by rw [zero_mul]; exact Int.modEq_zero_iff_dvd.mpr dvd_rfl)
    (by push_cast; simpa using Int.mod_modEq (a : Int) q)
  have hg' : Nat.gcd q (a % q) = 1 := by rw [← hg, Nat.gcd_comm a q, Nat.gcd_rec q a, Nat.gcd_comm]
  rw [hg'] at hs
  obtain ⟨t, ht⟩ : ∃ t, t = euclidLoop (q + 1) q (a % q) 0 1 := ⟨_, rfl⟩
  rw [← ht] at hs
  have hq0 : (0 : Int) < q := by omega
  have h0 := Int.emod_nonneg t (ne_of_gt hq0)
  have hlt := Int.emod_lt_of_pos t hq0
  have hinv : (invMod a q : Int) = t % q := by
    unfold invMod
    rw [← ht]
    exact Int.toNat_of_nonneg h0
  refine ⟨by omega, ?_⟩
  have : ((a * invMod a q % q : Nat) : Int) = 1 := by
    push_cast
    rw [hinv, Int.mul_emod, Int.emod_emod_of_dvd _ (dvd_refl _), ← Int.mul_emod, mul_comm]
    have := hs
    unfold Int.ModEq at this
    rw [this]
    exact Int.emod_eq_of_lt (by simp) (by simp; omega)
  exact_mod_cast this

/-- The inverse is unique below the modulus. -/
theorem inverse_unique {a v w q : Nat} (hv : v < q) (hw : w < q) (h : a * v % q = 1) (h' : a * w % q = 1) : v = w := by
  have h1 : a * v ≡ 1 [MOD q] := by
    have : 1 < q ∨ q = 1 := by omega
    rcases this with h2 | h2
    · rw [Nat.ModEq, h, Nat.mod_eq_of_lt h2]
    · subst h2; simp [Nat.mod_one] at h
  have h2 : a * w ≡ 1 [MOD q] := by
    have : 1 < q ∨ q = 1 := by omega
    rcases this with h2 | h2
    · rw [Nat.ModEq, h', Nat.mod_eq_of_lt h2]
    · subst h2; simp [Nat.mod_one] at h'
  have e : v ≡ w [MOD q] := by
    calc v ≡ (a * w) * v [MOD q] := by simpa using (h2.symm.mul_right v)
      _ = w * (a * v) := by ring
      _ ≡ w * 1 [MOD q] := h1.mul_left w
      _ = w := by ring
  exact Nat.ModEq.eq_of_lt_of_lt e hv hw

/-! ## Bit reversal -/

theorem bitRev_succ (k i : Nat) : bitRev (k + 1) i = i % 2 * 2 ^ k + bitRev k (i / 2) := rfl

theorem bitRev_lt (k i : Nat) : bitRev k i < 2 ^ k := by
  induction k generalizing i with
  | zero => simp [bitRev]
  | succ k ih =>
    rw [bitRev_succ, pow_succ]
    have := ih (i / 2)
    rcases (show i % 2 = 0 ∨ i % 2 = 1 by omega) with h | h <;> rw [h] <;> omega

/-- The low bits first: the reversal of k + 1 bits by the top bit. -/
theorem bitRev_top (k i b : Nat) (hi : i < 2 ^ k) (hb : b < 2) : bitRev (k + 1) (i + b * 2 ^ k) = 2 * bitRev k i + b := by
  induction k generalizing i with
  | zero =>
    have : i = 0 := by simpa using hi
    subst this
    simp [bitRev]
    omega
  | succ k ih =>
    have hp : b * 2 ^ (k + 1) = 2 * (b * 2 ^ k) := by ring
    rw [bitRev_succ (k + 1), bitRev_succ k i, show (i + b * 2 ^ (k + 1)) / 2 = i / 2 + b * 2 ^ k by omega,
      show (i + b * 2 ^ (k + 1)) % 2 = i % 2 by omega, ih (i / 2) (by rw [pow_succ] at hi; omega)]
    ring

/-- Reversing twice gives the value back (42_bitrev_table.md R150). -/
theorem bitRev_bitRev (k i : Nat) (hi : i < 2 ^ k) : bitRev k (bitRev k i) = i := by
  induction k generalizing i with
  | zero =>
    have : i = 0 := by simpa using hi
    simp [bitRev, this]
  | succ k ih =>
    rw [bitRev_succ k i, Nat.add_comm (i % 2 * 2 ^ k), bitRev_top k _ _ (bitRev_lt k _) (Nat.mod_lt _ (by omega)),
      ih (i / 2) (by rw [pow_succ] at hi; omega)]
    omega

end Sys2Proof.Machine
end

