-- ==== Sys2Proof/Laws/State.lean ====
section
/-! SUPPORT. One lemma a field of State for each named update: what the field holds after it. -/

namespace Sys2Proof.Machine

variable (s : State)

/-! ## writeX -/

@[simp] theorem writeX_x (r : Reg) (v : Word) : (s.writeX r v).x = s.x.set r.val v := rfl
@[simp] theorem writeX_ctrl (r : Reg) (v : Word) : (s.writeX r v).ctrl = s.ctrl := rfl
@[simp] theorem writeX_status (r : Reg) (v : Word) : (s.writeX r v).status = s.status := rfl
@[simp] theorem writeX_cmd (r : Reg) (v : Word) : (s.writeX r v).cmd = s.cmd := rfl
@[simp] theorem writeX_errCmd (r : Reg) (v : Word) : (s.writeX r v).errCmd = s.errCmd := rfl
@[simp] theorem writeX_modulus (r : Reg) (v : Word) : (s.writeX r v).modulus = s.modulus := rfl
@[simp] theorem writeX_degree (r : Reg) (v : Word) : (s.writeX r v).degree = s.degree := rfl
@[simp] theorem writeX_tblN (r : Reg) (v : Word) : (s.writeX r v).tblN = s.tblN := rfl
@[simp] theorem writeX_tblQ (r : Reg) (v : Word) : (s.writeX r v).tblQ = s.tblQ := rfl
@[simp] theorem writeX_tblRoot (r : Reg) (v : Word) : (s.writeX r v).tblRoot = s.tblRoot := rfl
@[simp] theorem writeX_mem (r : Reg) (v : Word) : (s.writeX r v).mem = s.mem := rfl
@[simp] theorem writeX_pending (r : Reg) (v : Word) : (s.writeX r v).pending = s.pending := rfl
@[simp] theorem writeX_inReset (r : Reg) (v : Word) : (s.writeX r v).inReset = s.inReset := rfl
@[simp] theorem writeX_params (r : Reg) (v : Word) : (s.writeX r v).params = s.params := rfl
@[simp] theorem writeX_inputs (r : Reg) (v : Word) : (s.writeX r v).inputs = s.inputs := rfl
@[simp] theorem writeX_response (r : Reg) (v : Word) : (s.writeX r v).response = s.response := rfl
@[simp] theorem writeX_draws (r : Reg) (v : Word) : (s.writeX r v).draws = s.draws := rfl
@[simp] theorem writeX_resets (r : Reg) (v : Word) : (s.writeX r v).resets = s.resets := rfl

/-! ## setMem -/

@[simp] theorem setMem_x (m : Memory) : (s.setMem m).x = s.x := rfl
@[simp] theorem setMem_ctrl (m : Memory) : (s.setMem m).ctrl = s.ctrl := rfl
@[simp] theorem setMem_status (m : Memory) : (s.setMem m).status = s.status := rfl
@[simp] theorem setMem_cmd (m : Memory) : (s.setMem m).cmd = s.cmd := rfl
@[simp] theorem setMem_errCmd (m : Memory) : (s.setMem m).errCmd = s.errCmd := rfl
@[simp] theorem setMem_modulus (m : Memory) : (s.setMem m).modulus = s.modulus := rfl
@[simp] theorem setMem_degree (m : Memory) : (s.setMem m).degree = s.degree := rfl
@[simp] theorem setMem_tblN (m : Memory) : (s.setMem m).tblN = s.tblN := rfl
@[simp] theorem setMem_tblQ (m : Memory) : (s.setMem m).tblQ = s.tblQ := rfl
@[simp] theorem setMem_tblRoot (m : Memory) : (s.setMem m).tblRoot = s.tblRoot := rfl
@[simp] theorem setMem_mem (m : Memory) : (s.setMem m).mem = m := rfl
@[simp] theorem setMem_pending (m : Memory) : (s.setMem m).pending = s.pending := rfl
@[simp] theorem setMem_inReset (m : Memory) : (s.setMem m).inReset = s.inReset := rfl
@[simp] theorem setMem_params (m : Memory) : (s.setMem m).params = s.params := rfl
@[simp] theorem setMem_inputs (m : Memory) : (s.setMem m).inputs = s.inputs := rfl
@[simp] theorem setMem_response (m : Memory) : (s.setMem m).response = s.response := rfl
@[simp] theorem setMem_draws (m : Memory) : (s.setMem m).draws = s.draws := rfl
@[simp] theorem setMem_resets (m : Memory) : (s.setMem m).resets = s.resets := rfl

/-! ## storeBytes -/

@[simp] theorem storeBytes_x (a : Nat) (bs : List Byte) : (s.storeBytes a bs).x = s.x := setMem_x s _
@[simp] theorem storeBytes_ctrl (a : Nat) (bs : List Byte) : (s.storeBytes a bs).ctrl = s.ctrl := setMem_ctrl s _
@[simp] theorem storeBytes_status (a : Nat) (bs : List Byte) : (s.storeBytes a bs).status = s.status := setMem_status s _
@[simp] theorem storeBytes_cmd (a : Nat) (bs : List Byte) : (s.storeBytes a bs).cmd = s.cmd := setMem_cmd s _
@[simp] theorem storeBytes_errCmd (a : Nat) (bs : List Byte) : (s.storeBytes a bs).errCmd = s.errCmd := setMem_errCmd s _
@[simp] theorem storeBytes_modulus (a : Nat) (bs : List Byte) : (s.storeBytes a bs).modulus = s.modulus := setMem_modulus s _
@[simp] theorem storeBytes_degree (a : Nat) (bs : List Byte) : (s.storeBytes a bs).degree = s.degree := setMem_degree s _
@[simp] theorem storeBytes_tblN (a : Nat) (bs : List Byte) : (s.storeBytes a bs).tblN = s.tblN := setMem_tblN s _
@[simp] theorem storeBytes_tblQ (a : Nat) (bs : List Byte) : (s.storeBytes a bs).tblQ = s.tblQ := setMem_tblQ s _
@[simp] theorem storeBytes_tblRoot (a : Nat) (bs : List Byte) : (s.storeBytes a bs).tblRoot = s.tblRoot := setMem_tblRoot s _
@[simp] theorem storeBytes_mem (a : Nat) (bs : List Byte) : (s.storeBytes a bs).mem = s.mem.store a bs := setMem_mem s _
@[simp] theorem storeBytes_pending (a : Nat) (bs : List Byte) : (s.storeBytes a bs).pending = s.pending := setMem_pending s _
@[simp] theorem storeBytes_inReset (a : Nat) (bs : List Byte) : (s.storeBytes a bs).inReset = s.inReset := setMem_inReset s _
@[simp] theorem storeBytes_params (a : Nat) (bs : List Byte) : (s.storeBytes a bs).params = s.params := setMem_params s _
@[simp] theorem storeBytes_inputs (a : Nat) (bs : List Byte) : (s.storeBytes a bs).inputs = s.inputs := setMem_inputs s _
@[simp] theorem storeBytes_response (a : Nat) (bs : List Byte) : (s.storeBytes a bs).response = s.response := setMem_response s _
@[simp] theorem storeBytes_draws (a : Nat) (bs : List Byte) : (s.storeBytes a bs).draws = s.draws := setMem_draws s _
@[simp] theorem storeBytes_resets (a : Nat) (bs : List Byte) : (s.storeBytes a bs).resets = s.resets := setMem_resets s _

/-! ## storeArray -/

@[simp] theorem storeArray_x (arr : ArrayId) (ws : List Word) : (s.storeArray arr ws).x = s.x := setMem_x s _
@[simp] theorem storeArray_ctrl (arr : ArrayId) (ws : List Word) : (s.storeArray arr ws).ctrl = s.ctrl := setMem_ctrl s _
@[simp] theorem storeArray_status (arr : ArrayId) (ws : List Word) : (s.storeArray arr ws).status = s.status := setMem_status s _
@[simp] theorem storeArray_cmd (arr : ArrayId) (ws : List Word) : (s.storeArray arr ws).cmd = s.cmd := setMem_cmd s _
@[simp] theorem storeArray_errCmd (arr : ArrayId) (ws : List Word) : (s.storeArray arr ws).errCmd = s.errCmd := setMem_errCmd s _
@[simp] theorem storeArray_modulus (arr : ArrayId) (ws : List Word) : (s.storeArray arr ws).modulus = s.modulus := setMem_modulus s _
@[simp] theorem storeArray_degree (arr : ArrayId) (ws : List Word) : (s.storeArray arr ws).degree = s.degree := setMem_degree s _
@[simp] theorem storeArray_tblN (arr : ArrayId) (ws : List Word) : (s.storeArray arr ws).tblN = s.tblN := setMem_tblN s _
@[simp] theorem storeArray_tblQ (arr : ArrayId) (ws : List Word) : (s.storeArray arr ws).tblQ = s.tblQ := setMem_tblQ s _
@[simp] theorem storeArray_tblRoot (arr : ArrayId) (ws : List Word) : (s.storeArray arr ws).tblRoot = s.tblRoot := setMem_tblRoot s _
@[simp] theorem storeArray_mem (arr : ArrayId) (ws : List Word) : (s.storeArray arr ws).mem = s.mem.storeWords arr ws := setMem_mem s _
@[simp] theorem storeArray_pending (arr : ArrayId) (ws : List Word) : (s.storeArray arr ws).pending = s.pending := setMem_pending s _
@[simp] theorem storeArray_inReset (arr : ArrayId) (ws : List Word) : (s.storeArray arr ws).inReset = s.inReset := setMem_inReset s _
@[simp] theorem storeArray_params (arr : ArrayId) (ws : List Word) : (s.storeArray arr ws).params = s.params := setMem_params s _
@[simp] theorem storeArray_inputs (arr : ArrayId) (ws : List Word) : (s.storeArray arr ws).inputs = s.inputs := setMem_inputs s _
@[simp] theorem storeArray_response (arr : ArrayId) (ws : List Word) : (s.storeArray arr ws).response = s.response := setMem_response s _
@[simp] theorem storeArray_draws (arr : ArrayId) (ws : List Word) : (s.storeArray arr ws).draws = s.draws := setMem_draws s _
@[simp] theorem storeArray_resets (arr : ArrayId) (ws : List Word) : (s.storeArray arr ws).resets = s.resets := setMem_resets s _

/-! ## succeed -/

@[simp] theorem succeed_x : s.succeed.x = s.x := rfl
@[simp] theorem succeed_ctrl : s.succeed.ctrl = s.ctrl := rfl
@[simp] theorem succeed_status : s.succeed.status = s.status.completed .none := rfl
@[simp] theorem succeed_cmd : s.succeed.cmd = s.cmd := rfl
@[simp] theorem succeed_errCmd : s.succeed.errCmd = s.errCmd := rfl
@[simp] theorem succeed_modulus : s.succeed.modulus = s.modulus := rfl
@[simp] theorem succeed_degree : s.succeed.degree = s.degree := rfl
@[simp] theorem succeed_tblN : s.succeed.tblN = s.tblN := rfl
@[simp] theorem succeed_tblQ : s.succeed.tblQ = s.tblQ := rfl
@[simp] theorem succeed_tblRoot : s.succeed.tblRoot = s.tblRoot := rfl
@[simp] theorem succeed_mem : s.succeed.mem = s.mem := rfl
@[simp] theorem succeed_pending : s.succeed.pending = none := rfl
@[simp] theorem succeed_inReset : s.succeed.inReset = s.inReset := rfl
@[simp] theorem succeed_params : s.succeed.params = s.params := rfl
@[simp] theorem succeed_inputs : s.succeed.inputs = s.inputs := rfl
@[simp] theorem succeed_response : s.succeed.response = s.response := rfl
@[simp] theorem succeed_draws : s.succeed.draws = s.draws := rfl
@[simp] theorem succeed_resets : s.succeed.resets = s.resets := rfl

/-! ## raise -/

@[simp] theorem raise_x (d : Detail) : (s.raise d).x = s.x := rfl
@[simp] theorem raise_ctrl (d : Detail) : (s.raise d).ctrl = s.ctrl := rfl
@[simp] theorem raise_status (d : Detail) : (s.raise d).status = s.status.completed d := rfl
@[simp] theorem raise_cmd (d : Detail) : (s.raise d).cmd = s.cmd := rfl
@[simp] theorem raise_errCmd (d : Detail) : (s.raise d).errCmd = s.cmd := rfl
@[simp] theorem raise_modulus (d : Detail) : (s.raise d).modulus = s.modulus := rfl
@[simp] theorem raise_degree (d : Detail) : (s.raise d).degree = s.degree := rfl
@[simp] theorem raise_tblN (d : Detail) : (s.raise d).tblN = s.tblN := rfl
@[simp] theorem raise_tblQ (d : Detail) : (s.raise d).tblQ = s.tblQ := rfl
@[simp] theorem raise_tblRoot (d : Detail) : (s.raise d).tblRoot = s.tblRoot := rfl
@[simp] theorem raise_mem (d : Detail) : (s.raise d).mem = s.mem := rfl
@[simp] theorem raise_pending (d : Detail) : (s.raise d).pending = none := rfl
@[simp] theorem raise_inReset (d : Detail) : (s.raise d).inReset = s.inReset := rfl
@[simp] theorem raise_params (d : Detail) : (s.raise d).params = s.params := rfl
@[simp] theorem raise_inputs (d : Detail) : (s.raise d).inputs = s.inputs := rfl
@[simp] theorem raise_response (d : Detail) : (s.raise d).response = s.response := rfl
@[simp] theorem raise_draws (d : Detail) : (s.raise d).draws = s.draws := rfl
@[simp] theorem raise_resets (d : Detail) : (s.raise d).resets = s.resets := rfl

/-! ## accept -/

@[simp] theorem accept_x (v : Word) : (s.accept v).x = s.x := rfl
@[simp] theorem accept_ctrl (v : Word) : (s.accept v).ctrl = s.ctrl := rfl
@[simp] theorem accept_status (v : Word) : (s.accept v).status = s.status.accepted := rfl
@[simp] theorem accept_cmd (v : Word) : (s.accept v).cmd = v := rfl
@[simp] theorem accept_errCmd (v : Word) : (s.accept v).errCmd = s.errCmd := rfl
@[simp] theorem accept_modulus (v : Word) : (s.accept v).modulus = s.modulus := rfl
@[simp] theorem accept_degree (v : Word) : (s.accept v).degree = s.degree := rfl
@[simp] theorem accept_tblN (v : Word) : (s.accept v).tblN = s.tblN := rfl
@[simp] theorem accept_tblQ (v : Word) : (s.accept v).tblQ = s.tblQ := rfl
@[simp] theorem accept_tblRoot (v : Word) : (s.accept v).tblRoot = s.tblRoot := rfl
@[simp] theorem accept_mem (v : Word) : (s.accept v).mem = s.mem := rfl
@[simp] theorem accept_pending (v : Word) : (s.accept v).pending = some { word := v, snap := s.snapshot } := rfl
@[simp] theorem accept_inReset (v : Word) : (s.accept v).inReset = s.inReset := rfl
@[simp] theorem accept_params (v : Word) : (s.accept v).params = s.params := rfl
@[simp] theorem accept_inputs (v : Word) : (s.accept v).inputs = s.inputs := rfl
@[simp] theorem accept_response (v : Word) : (s.accept v).response = s.response := rfl
@[simp] theorem accept_draws (v : Word) : (s.accept v).draws = s.draws := rfl
@[simp] theorem accept_resets (v : Word) : (s.accept v).resets = s.resets := rfl

/-! ## busError -/

@[simp] theorem busError_x : s.busError.x = s.x := rfl
@[simp] theorem busError_ctrl : s.busError.ctrl = s.ctrl := rfl
@[simp] theorem busError_status : s.busError.status = s.status := rfl
@[simp] theorem busError_cmd : s.busError.cmd = s.cmd := rfl
@[simp] theorem busError_errCmd : s.busError.errCmd = s.errCmd := rfl
@[simp] theorem busError_modulus : s.busError.modulus = s.modulus := rfl
@[simp] theorem busError_degree : s.busError.degree = s.degree := rfl
@[simp] theorem busError_tblN : s.busError.tblN = s.tblN := rfl
@[simp] theorem busError_tblQ : s.busError.tblQ = s.tblQ := rfl
@[simp] theorem busError_tblRoot : s.busError.tblRoot = s.tblRoot := rfl
@[simp] theorem busError_mem : s.busError.mem = s.mem := rfl
@[simp] theorem busError_pending : s.busError.pending = s.pending := rfl
@[simp] theorem busError_inReset : s.busError.inReset = s.inReset := rfl
@[simp] theorem busError_params : s.busError.params = s.params := rfl
@[simp] theorem busError_inputs : s.busError.inputs = s.inputs := rfl
@[simp] theorem busError_response : s.busError.response = .busError := rfl
@[simp] theorem busError_draws : s.busError.draws = s.draws := rfl
@[simp] theorem busError_resets : s.busError.resets = s.resets := rfl

/-! ## refuseBusy -/

@[simp] theorem refuseBusy_x : s.refuseBusy.x = s.x := rfl
@[simp] theorem refuseBusy_ctrl : s.refuseBusy.ctrl = s.ctrl := rfl
@[simp] theorem refuseBusy_status : s.refuseBusy.status = { s.status with hazard := true } := rfl
@[simp] theorem refuseBusy_cmd : s.refuseBusy.cmd = s.cmd := rfl
@[simp] theorem refuseBusy_errCmd : s.refuseBusy.errCmd = s.errCmd := rfl
@[simp] theorem refuseBusy_modulus : s.refuseBusy.modulus = s.modulus := rfl
@[simp] theorem refuseBusy_degree : s.refuseBusy.degree = s.degree := rfl
@[simp] theorem refuseBusy_tblN : s.refuseBusy.tblN = s.tblN := rfl
@[simp] theorem refuseBusy_tblQ : s.refuseBusy.tblQ = s.tblQ := rfl
@[simp] theorem refuseBusy_tblRoot : s.refuseBusy.tblRoot = s.tblRoot := rfl
@[simp] theorem refuseBusy_mem : s.refuseBusy.mem = s.mem := rfl
@[simp] theorem refuseBusy_pending : s.refuseBusy.pending = s.pending := rfl
@[simp] theorem refuseBusy_inReset : s.refuseBusy.inReset = s.inReset := rfl
@[simp] theorem refuseBusy_params : s.refuseBusy.params = s.params := rfl
@[simp] theorem refuseBusy_inputs : s.refuseBusy.inputs = s.inputs := rfl
@[simp] theorem refuseBusy_response : s.refuseBusy.response = .busError := rfl
@[simp] theorem refuseBusy_draws : s.refuseBusy.draws = s.draws := rfl
@[simp] theorem refuseBusy_resets : s.refuseBusy.resets = s.resets := rfl

/-! ## recordTables -/

@[simp] theorem recordTables_x (n q g : Nat) : (s.recordTables n q g).x = s.x := rfl
@[simp] theorem recordTables_ctrl (n q g : Nat) : (s.recordTables n q g).ctrl = s.ctrl := rfl
@[simp] theorem recordTables_status (n q g : Nat) : (s.recordTables n q g).status = { s.status with tblValid := true } := rfl
@[simp] theorem recordTables_cmd (n q g : Nat) : (s.recordTables n q g).cmd = s.cmd := rfl
@[simp] theorem recordTables_errCmd (n q g : Nat) : (s.recordTables n q g).errCmd = s.errCmd := rfl
@[simp] theorem recordTables_modulus (n q g : Nat) : (s.recordTables n q g).modulus = s.modulus := rfl
@[simp] theorem recordTables_degree (n q g : Nat) : (s.recordTables n q g).degree = s.degree := rfl
@[simp] theorem recordTables_tblN (n q g : Nat) : (s.recordTables n q g).tblN = BitVec.ofNat 64 n := rfl
@[simp] theorem recordTables_tblQ (n q g : Nat) : (s.recordTables n q g).tblQ = BitVec.ofNat 64 q := rfl
@[simp] theorem recordTables_tblRoot (n q g : Nat) : (s.recordTables n q g).tblRoot = BitVec.ofNat 64 g := rfl
@[simp] theorem recordTables_mem (n q g : Nat) : (s.recordTables n q g).mem = s.mem := rfl
@[simp] theorem recordTables_pending (n q g : Nat) : (s.recordTables n q g).pending = s.pending := rfl
@[simp] theorem recordTables_inReset (n q g : Nat) : (s.recordTables n q g).inReset = s.inReset := rfl
@[simp] theorem recordTables_params (n q g : Nat) : (s.recordTables n q g).params = s.params := rfl
@[simp] theorem recordTables_inputs (n q g : Nat) : (s.recordTables n q g).inputs = s.inputs := rfl
@[simp] theorem recordTables_response (n q g : Nat) : (s.recordTables n q g).response = s.response := rfl
@[simp] theorem recordTables_draws (n q g : Nat) : (s.recordTables n q g).draws = s.draws := rfl
@[simp] theorem recordTables_resets (n q g : Nat) : (s.recordTables n q g).resets = s.resets := rfl

/-! ## storeTables -/

@[simp] theorem storeTables_x (n q g : Nat) : (s.storeTables n q g).x = s.x := setMem_x s _
@[simp] theorem storeTables_ctrl (n q g : Nat) : (s.storeTables n q g).ctrl = s.ctrl := setMem_ctrl s _
@[simp] theorem storeTables_status (n q g : Nat) : (s.storeTables n q g).status = s.status := setMem_status s _
@[simp] theorem storeTables_cmd (n q g : Nat) : (s.storeTables n q g).cmd = s.cmd := setMem_cmd s _
@[simp] theorem storeTables_errCmd (n q g : Nat) : (s.storeTables n q g).errCmd = s.errCmd := setMem_errCmd s _
@[simp] theorem storeTables_modulus (n q g : Nat) : (s.storeTables n q g).modulus = s.modulus := setMem_modulus s _
@[simp] theorem storeTables_degree (n q g : Nat) : (s.storeTables n q g).degree = s.degree := setMem_degree s _
@[simp] theorem storeTables_tblN (n q g : Nat) : (s.storeTables n q g).tblN = s.tblN := setMem_tblN s _
@[simp] theorem storeTables_tblQ (n q g : Nat) : (s.storeTables n q g).tblQ = s.tblQ := setMem_tblQ s _
@[simp] theorem storeTables_tblRoot (n q g : Nat) : (s.storeTables n q g).tblRoot = s.tblRoot := setMem_tblRoot s _
@[simp] theorem storeTables_pending (n q g : Nat) : (s.storeTables n q g).pending = s.pending := setMem_pending s _
@[simp] theorem storeTables_inReset (n q g : Nat) : (s.storeTables n q g).inReset = s.inReset := setMem_inReset s _
@[simp] theorem storeTables_params (n q g : Nat) : (s.storeTables n q g).params = s.params := setMem_params s _
@[simp] theorem storeTables_inputs (n q g : Nat) : (s.storeTables n q g).inputs = s.inputs := setMem_inputs s _
@[simp] theorem storeTables_response (n q g : Nat) : (s.storeTables n q g).response = s.response := setMem_response s _
@[simp] theorem storeTables_draws (n q g : Nat) : (s.storeTables n q g).draws = s.draws := setMem_draws s _
@[simp] theorem storeTables_resets (n q g : Nat) : (s.storeTables n q g).resets = s.resets := setMem_resets s _

/-! ## buildTables -/

@[simp] theorem buildTables_x (n q g : Nat) : (s.buildTables n q g).x = s.x := by
  rw [State.buildTables, recordTables_x, storeTables_x]

@[simp] theorem buildTables_ctrl (n q g : Nat) : (s.buildTables n q g).ctrl = s.ctrl := by
  rw [State.buildTables, recordTables_ctrl, storeTables_ctrl]

@[simp] theorem buildTables_status (n q g : Nat) : (s.buildTables n q g).status = { s.status with tblValid := true } := by
  rw [State.buildTables, recordTables_status, storeTables_status]

@[simp] theorem buildTables_cmd (n q g : Nat) : (s.buildTables n q g).cmd = s.cmd := by
  rw [State.buildTables, recordTables_cmd, storeTables_cmd]

@[simp] theorem buildTables_errCmd (n q g : Nat) : (s.buildTables n q g).errCmd = s.errCmd := by
  rw [State.buildTables, recordTables_errCmd, storeTables_errCmd]

@[simp] theorem buildTables_modulus (n q g : Nat) : (s.buildTables n q g).modulus = s.modulus := by
  rw [State.buildTables, recordTables_modulus, storeTables_modulus]

@[simp] theorem buildTables_degree (n q g : Nat) : (s.buildTables n q g).degree = s.degree := by
  rw [State.buildTables, recordTables_degree, storeTables_degree]

@[simp] theorem buildTables_tblN (n q g : Nat) : (s.buildTables n q g).tblN = BitVec.ofNat 64 n := recordTables_tblN (s.storeTables n q g) n q g
@[simp] theorem buildTables_tblQ (n q g : Nat) : (s.buildTables n q g).tblQ = BitVec.ofNat 64 q := recordTables_tblQ (s.storeTables n q g) n q g
@[simp] theorem buildTables_tblRoot (n q g : Nat) : (s.buildTables n q g).tblRoot = BitVec.ofNat 64 g := recordTables_tblRoot (s.storeTables n q g) n q g
@[simp] theorem buildTables_mem (n q g : Nat) : (s.buildTables n q g).mem = (s.storeTables n q g).mem := recordTables_mem (s.storeTables n q g) n q g
@[simp] theorem buildTables_pending (n q g : Nat) : (s.buildTables n q g).pending = s.pending := by
  rw [State.buildTables, recordTables_pending, storeTables_pending]

@[simp] theorem buildTables_inReset (n q g : Nat) : (s.buildTables n q g).inReset = s.inReset := by
  rw [State.buildTables, recordTables_inReset, storeTables_inReset]

@[simp] theorem buildTables_params (n q g : Nat) : (s.buildTables n q g).params = s.params := by
  rw [State.buildTables, recordTables_params, storeTables_params]

@[simp] theorem buildTables_inputs (n q g : Nat) : (s.buildTables n q g).inputs = s.inputs := by
  rw [State.buildTables, recordTables_inputs, storeTables_inputs]

@[simp] theorem buildTables_response (n q g : Nat) : (s.buildTables n q g).response = s.response := by
  rw [State.buildTables, recordTables_response, storeTables_response]

@[simp] theorem buildTables_draws (n q g : Nat) : (s.buildTables n q g).draws = s.draws := by
  rw [State.buildTables, recordTables_draws, storeTables_draws]

@[simp] theorem buildTables_resets (n q g : Nat) : (s.buildTables n q g).resets = s.resets := by
  rw [State.buildTables, recordTables_resets, storeTables_resets]


/-! ## writeCtrl -/

@[simp] theorem writeCtrl_x (v : Word) : (s.writeCtrl v).x = s.x := rfl
@[simp] theorem writeCtrl_ctrl (v : Word) : (s.writeCtrl v).ctrl = Ctrl.written s.params v := rfl
@[simp] theorem writeCtrl_status (v : Word) : (s.writeCtrl v).status = { s.status with hazard := s.status.hazard && !v.getLsbD 8 } := rfl
@[simp] theorem writeCtrl_cmd (v : Word) : (s.writeCtrl v).cmd = s.cmd := rfl
@[simp] theorem writeCtrl_errCmd (v : Word) : (s.writeCtrl v).errCmd = s.errCmd := rfl
@[simp] theorem writeCtrl_modulus (v : Word) : (s.writeCtrl v).modulus = s.modulus := rfl
@[simp] theorem writeCtrl_degree (v : Word) : (s.writeCtrl v).degree = s.degree := rfl
@[simp] theorem writeCtrl_tblN (v : Word) : (s.writeCtrl v).tblN = s.tblN := rfl
@[simp] theorem writeCtrl_tblQ (v : Word) : (s.writeCtrl v).tblQ = s.tblQ := rfl
@[simp] theorem writeCtrl_tblRoot (v : Word) : (s.writeCtrl v).tblRoot = s.tblRoot := rfl
@[simp] theorem writeCtrl_mem (v : Word) : (s.writeCtrl v).mem = s.mem := rfl
@[simp] theorem writeCtrl_pending (v : Word) : (s.writeCtrl v).pending = s.pending := rfl
@[simp] theorem writeCtrl_inReset (v : Word) : (s.writeCtrl v).inReset = s.inReset := rfl
@[simp] theorem writeCtrl_params (v : Word) : (s.writeCtrl v).params = s.params := rfl
@[simp] theorem writeCtrl_inputs (v : Word) : (s.writeCtrl v).inputs = s.inputs := rfl
@[simp] theorem writeCtrl_response (v : Word) : (s.writeCtrl v).response = s.response := rfl
@[simp] theorem writeCtrl_draws (v : Word) : (s.writeCtrl v).draws = s.draws := rfl
@[simp] theorem writeCtrl_resets (v : Word) : (s.writeCtrl v).resets = s.resets := rfl

/-- The last memory set is the one that stays. -/
@[simp] theorem setMem_setMem (m m' : Memory) : (s.setMem m).setMem m' = s.setMem m' := rfl

/-! ## Status -/

variable (st : Status) (d : Detail)

@[simp] theorem completed_done : (st.completed d).done = true := rfl
@[simp] theorem completed_err : (st.completed d).err = d.errClass := rfl
@[simp] theorem completed_errDetail : (st.completed d).errDetail = d := rfl
@[simp] theorem completed_hazard : (st.completed d).hazard = st.hazard := rfl
@[simp] theorem completed_tblValid : (st.completed d).tblValid = st.tblValid := rfl
@[simp] theorem completed_lastPath : (st.completed d).lastPath = st.lastPath := rfl
@[simp] theorem accepted_done : st.accepted.done = false := rfl
@[simp] theorem accepted_err : st.accepted.err = .none := rfl
@[simp] theorem accepted_errDetail : st.accepted.errDetail = .none := rfl
@[simp] theorem accepted_fatal : st.accepted.fatal = st.fatal := rfl
@[simp] theorem accepted_hazard : st.accepted.hazard = st.hazard := rfl
@[simp] theorem accepted_tblValid : st.accepted.tblValid = st.tblValid := rfl
@[simp] theorem accepted_lastPath : st.accepted.lastPath = st.lastPath := rfl

/-- FATAL changes only with an INTERNAL detail, and there is one. -/
theorem completed_fatal : (st.completed d).fatal = (st.fatal || decide (d = .postcondition)) := by
  cases d <;> rfl

/-- A successful completion keeps FATAL. -/
@[simp] theorem completed_none_fatal : (st.completed .none).fatal = st.fatal := by
  simp [completed_fatal]

/-! ## The snapshot and the operands -/

@[simp] theorem snapshot_x : s.snapshot.x = s.x := rfl
@[simp] theorem snapshot_modulus : s.snapshot.modulus = s.modulus := rfl
@[simp] theorem snapshot_degree : s.snapshot.degree = s.degree := rfl
@[simp] theorem snapshot_ctrl : s.snapshot.ctrl = s.ctrl := rfl

/-- The operands are the pending command's snapshot. -/
theorem operands_of_pending {p : Pending} (h : s.pending = some p) : s.operands = p.snap := by
  simp [State.operands, h]

/-- With nothing pending they are the live registers. -/
theorem operands_of_idle (h : s.pending = none) : s.operands = s.snapshot := by
  simp [State.operands, h]

@[simp] theorem storeArray_operands (arr : ArrayId) (ws : List Word) : (s.storeArray arr ws).operands = s.operands := rfl
@[simp] theorem storeArray_nMax (arr : ArrayId) (ws : List Word) : (s.storeArray arr ws).nMax = s.nMax := rfl

/-! ## The register file -/

/-- A write gives the register written its value. -/
@[simp] theorem writeX_get_same (r : Reg) (v : Word) : (s.writeX r v).x[r] = v := by
  simp [State.writeX]

/-- A write leaves every other register alone. -/
theorem writeX_get_other {r r' : Reg} (v : Word) (h : r' ≠ r) : (s.writeX r v).x[r'] = s.x[r'] := by
  have : r.val ≠ r'.val := fun e => h (Fin.ext e.symm)
  simp [State.writeX, this]

end Sys2Proof.Machine
end

