-- ==== Sys2Proof/Laws/Memory.lean ====
section
/-! SUPPORT. The arrays' memory: reading after storing, the canonical form, and whole words over byte lanes. -/

namespace Sys2Proof.Machine

/-! ## Byte lanes -/

theorem bytesOfWord_length (w : Word) : (bytesOfWord w).length = 8 := by simp [bytesOfWord]

/-- Eight lanes of a word give the word back (20_memory.md R62). -/
theorem wordOfBytes_bytesOfWord (w : Word) : wordOfBytes (bytesOfWord w) = w := by
  have h := w.isLt
  apply BitVec.eq_of_toNat_eq
  have e : bytesOfWord w = [byteLane w 0, byteLane w 1, byteLane w 2, byteLane w 3, byteLane w 4, byteLane w 5, byteLane w 6,
    byteLane w 7] := rfl
  simp only [e, wordOfBytes, natOfBytes, byteLane, bits, BitVec.toNat_ofNat]
  norm_num
  omega

theorem flatMap_bytes_length (ws : List Word) : (ws.flatMap bytesOfWord).length = 8 * ws.length := by
  induction ws with
  | nil => rfl
  | cons w ws ih => simp only [List.flatMap_cons, List.length_append, bytesOfWord_length, ih, List.length_cons]; omega

/-- Lane b of word k stands at position 8k + b of the words' lanes. -/
theorem flatMap_bytes_get (ws : List Word) (k b : Nat) (hk : k < ws.length) (hb : b < 8) :
    (ws.flatMap bytesOfWord)[8 * k + b]? = some (byteLane ws[k] b) := by
  induction ws generalizing k with
  | nil => simp at hk
  | cons w ws ih =>
    cases k with
    | zero =>
      rw [List.flatMap_cons, List.getElem?_append_left (by rw [bytesOfWord_length]; omega)]
      simp [bytesOfWord, hb]
    | succ k =>
      rw [List.flatMap_cons, List.getElem?_append_right (by rw [bytesOfWord_length]; omega), bytesOfWord_length,
        show 8 * (k + 1) + b - 8 = 8 * k + b by omega, ih k (by simpa using hk)]
      simp

/-! ## Cells -/

theorem mem_cellsAt {a : Nat} {bs : List Byte} {c : Host.Cell} (h : c ∈ cellsAt a bs) : a ≤ c.1 ∧ c.1 < a + bs.length := by
  induction bs generalizing a with
  | nil => simp [cellsAt] at h
  | cons b bs ih =>
    simp only [cellsAt, List.mem_cons] at h
    rcases h with rfl | h
    · simp
    · have := ih h
      simp only [List.length_cons]
      omega

theorem find_append (m m' : Memory) (x : Nat) :
    Memory.find (m ++ m') x = (Memory.find m x).or (Memory.find m' x) := by
  induction m with
  | nil => simp [Memory.find]
  | cons c m ih =>
    simp only [List.cons_append, Memory.find]
    split <;> simp_all

theorem find_none_of_forall {m : Memory} {x : Nat} (h : ∀ c ∈ m, c.1 ≠ x) : Memory.find m x = none := by
  induction m with
  | nil => rfl
  | cons c m ih =>
    simp only [List.mem_cons, forall_eq_or_imp] at h
    simp [Memory.find, h.1, ih h.2]

theorem find_filter_pos (p : Nat → Bool) (m : Memory) {x : Nat} (h : p x = true) :
    Memory.find (m.filter fun c => p c.1) x = Memory.find m x := by
  induction m with
  | nil => rfl
  | cons c m ih =>
    by_cases hc : c.1 = x
    · subst hc
      simp [h, Memory.find]
    · by_cases hp : p c.1 = true <;> simp [hp, Memory.find, hc, ih]

theorem find_filter_neg (p : Nat → Bool) (m : Memory) {x : Nat} (h : p x = false) :
    Memory.find (m.filter fun c => p c.1) x = none := by
  apply find_none_of_forall
  intro c hc e
  simp only [List.mem_filter] at hc
  rw [e, h] at hc
  exact absurd hc.2 (by simp)

theorem find_cellsAt (a : Nat) (bs : List Byte) (x : Nat) :
    Memory.find (cellsAt a bs) x = if a ≤ x then bs[x - a]? else none := by
  induction bs generalizing a with
  | nil => simp [cellsAt, Memory.find]
  | cons b bs ih =>
    simp only [cellsAt, Memory.find, ih]
    by_cases h : a = x
    · simp [h]
    · by_cases h' : a ≤ x
      · rw [if_neg h, if_pos (by omega), if_pos h', show x - a = (x - (a + 1)) + 1 by omega]
        rfl
      · rw [if_neg h, if_neg (by omega), if_neg h']

/-- What a store does to the byte at x: the stored byte inside, what was there outside. -/
theorem find_store (m : Memory) (a : Nat) (bs : List Byte) (x : Nat) :
    Memory.find (Memory.store m a bs) x = if a ≤ x ∧ x < a + bs.length then bs[x - a]? else Memory.find m x := by
  have below := fun h => find_filter_pos (fun i => decide (i < a)) m (x := x) h
  have below' := fun h => find_filter_neg (fun i => decide (i < a)) m (x := x) h
  have above := fun h => find_filter_pos (fun i => decide (a + bs.length ≤ i)) m (x := x) h
  have above' := fun h => find_filter_neg (fun i => decide (a + bs.length ≤ i)) m (x := x) h
  unfold Memory.store
  simp only [find_append, find_cellsAt]
  by_cases h1 : a ≤ x
  · rw [below' (by simpa using h1)]
    by_cases h2 : x < a + bs.length
    · rw [above' (by simpa using h2), if_pos h1, if_pos ⟨h1, h2⟩]
      simp
    · rw [above (by simpa using h2), if_pos h1, if_neg (by omega)]
      rw [List.getElem?_eq_none (by omega)]
      simp
  · rw [below (by simpa using h1), above' (by simp; omega), if_neg h1, if_neg (by omega)]
    simp

/-! ## The canonical form -/

/-- The form as Mathlib states it: offsets strictly rising. -/
theorem wf_iff_pairwise (m : Memory) : Memory.wf m = true ↔ m.Pairwise fun c d => c.1 < d.1 := by
  induction m with
  | nil => simp [Memory.wf]
  | cons c m ih => simp [Memory.wf, ih]

theorem cellsAt_pairwise (a : Nat) (bs : List Byte) : (cellsAt a bs).Pairwise fun c d => c.1 < d.1 := by
  induction bs generalizing a with
  | nil => simp [cellsAt]
  | cons b bs ih =>
    simp only [cellsAt, List.pairwise_cons]
    refine ⟨fun c hc => ?_, ih _⟩
    have := (mem_cellsAt hc).1
    omega

/-- A store keeps the canonical form. -/
theorem store_wf {m : Memory} (h : Memory.wf m = true) (a : Nat) (bs : List Byte) : Memory.wf (Memory.store m a bs) = true := by
  rw [wf_iff_pairwise] at *
  unfold Memory.store
  rw [List.pairwise_append, List.pairwise_append]
  refine ⟨⟨h.filter _, cellsAt_pairwise a bs, ?_⟩, h.filter _, ?_⟩
  · intro c hc d hd
    have := (mem_cellsAt hd).1
    simp only [List.mem_filter, decide_eq_true_eq] at hc
    omega
  · intro c hc d hd
    simp only [List.mem_filter, decide_eq_true_eq] at hd
    rw [List.mem_append] at hc
    rcases hc with hc | hc
    · simp only [List.mem_filter, decide_eq_true_eq] at hc
      omega
    · have := (mem_cellsAt hc).2
      omega

/-- What a stored-to memory lists was listed before or is one of the stored cells. -/
theorem mem_store {m : Memory} {a : Nat} {bs : List Byte} {c : Host.Cell} (h : c ∈ Memory.store m a bs) :
    c ∈ m ∨ a ≤ c.1 ∧ c.1 < a + bs.length := by
  unfold Memory.store at h
  simp only [List.mem_append, List.mem_filter] at h
  rcases h with (h | h) | h
  · exact .inl h.1
  · exact .inr (mem_cellsAt h)
  · exact .inl h.1

/-- The reset memory has the canonical form. -/
theorem reset_mem_wf : Memory.wf State.reset.mem = true := rfl

/-! ## Bytes and words of the state -/

variable (s : State)

/-- An array byte depends on the memory and the number of the reset only. -/
theorem readByte_congr {t : State} (hm : t.mem = s.mem) (hr : t.resets = s.resets) (a : Nat) : t.readByte a = s.readByte a := by
  unfold State.readByte
  rw [hm, hr]

/-- Storing an array's words is storing their bytes from its base on. -/
theorem storeArray_eq (arr : ArrayId) (ws : List Word) : s.storeArray arr ws = s.storeBytes arr.base (ws.flatMap bytesOfWord) :=
  rfl

/-- Outside the bytes stored, every array byte reads as before. -/
theorem readByte_storeBytes_outside {a x : Nat} {bs : List Byte} (h : x < a ∨ a + bs.length ≤ x) :
    (s.storeBytes a bs).readByte x = s.readByte x := by
  unfold State.readByte
  rw [storeBytes_mem, find_store, if_neg (by omega), storeBytes_resets]

/-- Inside the bytes stored, an array byte reads as the one stored. -/
theorem readByte_storeBytes_inside {a x : Nat} {bs : List Byte} (h : a ≤ x) (h' : x - a < bs.length) :
    (s.storeBytes a bs).readByte x = bs[x - a] := by
  unfold State.readByte
  rw [storeBytes_mem, find_store, if_pos (by omega), List.getElem?_eq_getElem h']
  rfl

/-- A word whose eight lanes are all known. -/
theorem readArray_of_lanes {arr : ArrayId} {k : Nat} {w : Word}
    (h : ∀ b < 8, s.readByte (arr.base + 8 * k + b) = byteLane w b) : s.readArray arr k = w := by
  rw [← wordOfBytes_bytesOfWord w]
  unfold State.readArray State.readLanes bytesOfWord
  congr 1
  apply List.map_congr_left
  intro b hb
  exact h b (by simpa using hb)

/-- Words whose lanes read alike are equal. -/
theorem readArray_congr {t : State} {arr : ArrayId} {k : Nat}
    (h : ∀ b < 8, t.readByte (arr.base + 8 * k + b) = s.readByte (arr.base + 8 * k + b)) :
    t.readArray arr k = s.readArray arr k := by
  unfold State.readArray State.readLanes
  congr 1
  apply List.map_congr_left
  intro b hb
  exact h b (by simpa using hb)

/-- A stored array word reads back. -/
theorem readArray_storeArray_same (arr : ArrayId) (ws : List Word) {k : Nat} (hk : k < ws.length) :
    (s.storeArray arr ws).readArray arr k = ws[k] := by
  apply readArray_of_lanes
  intro b hb
  have e : arr.base + 8 * k + b - arr.base = 8 * k + b := by omega
  have hl : arr.base + 8 * k + b - arr.base < (ws.flatMap bytesOfWord).length := by
    rw [e, flatMap_bytes_length]; omega
  rw [storeArray_eq]
  rw [readByte_storeBytes_inside s (by omega) hl, List.getElem_eq_iff, e]
  exact flatMap_bytes_get ws k b hk hb

/-- Array bytes outside the words stored read as before. -/
theorem readByte_storeArray_outside {arr : ArrayId} {ws : List Word} {x : Nat}
    (h : x < arr.base ∨ arr.base + 8 * ws.length ≤ x) : (s.storeArray arr ws).readByte x = s.readByte x := by
  rw [storeArray_eq]
  exact readByte_storeBytes_outside s (by rwa [flatMap_bytes_length])

/-- Words of the array above those stored keep their values (20_memory.md R78). -/
theorem readArray_storeArray_above (arr : ArrayId) (ws : List Word) {k : Nat} (hk : ws.length ≤ k) :
    (s.storeArray arr ws).readArray arr k = s.readArray arr k :=
  readArray_congr s fun _ _ => readByte_storeArray_outside s (.inr (by omega))

/-- The arrays lie in regions of 2^24 bytes each (20_memory.md R61). -/
theorem base_apart {arr arr' : ArrayId} (h : arr ≠ arr') : arr.base + 2 ^ 24 ≤ arr'.base ∨ arr'.base + 2 ^ 24 ≤ arr.base := by
  cases arr <;> cases arr' <;> first | exact absurd rfl h | decide

/-- A store to one array leaves the words of the others alone. -/
theorem readArray_storeArray_other {arr arr' : ArrayId} (h : arr' ≠ arr) {ws : List Word} {k : Nat} (hw : ws.length ≤ 2 ^ 21)
    (hk : k < 2 ^ 21) : (s.storeArray arr ws).readArray arr' k = s.readArray arr' k := by
  apply readArray_congr s
  intro b hb
  apply readByte_storeArray_outside s
  have := base_apart h
  omega

@[simp] theorem loadArray_length (arr : ArrayId) (n : Nat) : (s.loadArray arr n).length = n := by simp [State.loadArray]

@[simp] theorem loadArray_getElem (arr : ArrayId) {n k : Nat} (h : k < (s.loadArray arr n).length) :
    (s.loadArray arr n)[k] = s.readArray arr k := by
  simp [State.loadArray]

/-- Storing an array's words leaves exactly them to be loaded. -/
theorem loadArray_storeArray (arr : ArrayId) (ws : List Word) : (s.storeArray arr ws).loadArray arr ws.length = ws := by
  apply List.ext_getElem (by simp)
  intro k h1 h2
  rw [loadArray_getElem, readArray_storeArray_same s arr ws h2]

end Sys2Proof.Machine
end

