-- ==== Sys2Proof/Laws/Ops.lean ====
section
/-! SUPPORT. One lemma for each shared operation that says everything it can do. -/

namespace Sys2Proof.Machine

/-! ## Checks -/

@[simp] theorem check_pos {α : Type} {c : Prop} [Decidable c] {d : Detail} {rest : Except Detail α} (h : c) :
    check c d rest = rest := if_pos h

@[simp] theorem check_neg {α : Type} {c : Prop} [Decidable c] {d : Detail} {rest : Except Detail α} (h : ¬c) :
    check c d rest = .error d := if_neg h

/-- A check that succeeds held, and the rest succeeded. -/
theorem check_eq_ok {α : Type} {c : Prop} [Decidable c] {d : Detail} {rest : Except Detail α} {a : α} :
    check c d rest = .ok a ↔ c ∧ rest = .ok a := by
  unfold check
  split <;> simp_all

/-- A check that fails: its own detail, or the rest's. -/
theorem check_eq_error {α : Type} {c : Prop} [Decidable c] {d e : Detail} {rest : Except Detail α} :
    check c d rest = .error e ↔ (¬c ∧ d = e) ∨ (c ∧ rest = .error e) := by
  unfold check
  split <;> simp_all

theorem withSelect_eq_ok {α β : Type} {v : Option β} {d : Detail} {rest : β → Except Detail α} {a : α} :
    withSelect v d rest = .ok a ↔ ∃ b, v = some b ∧ rest b = .ok a := by
  cases v <;> simp [withSelect]

theorem withSelect_eq_error {α β : Type} {v : Option β} {d e : Detail} {rest : β → Except Detail α} :
    withSelect v d rest = .error e ↔ (v = none ∧ d = e) ∨ ∃ b, v = some b ∧ rest b = .error e := by
  cases v <;> simp [withSelect]

/-! ## Completion -/

variable (s : State)

@[simp] theorem complete_ok (t : State) : s.complete (.ok t) = .next t.succeed := rfl
@[simp] theorem complete_error (d : Detail) : s.complete (.error d) = .next (s.raise d) := rfl
@[simp] theorem completeScalar_ok (rd : Reg) (v : Nat) :
    s.completeScalar rd (.ok v) = .next (s.writeX rd (BitVec.ofNat 64 v)).succeed := rfl
@[simp] theorem completeScalar_error (rd : Reg) (d : Detail) : s.completeScalar rd (.error d) = .next (s.raise d) := rfl

/-- All a completion can do: the results with success, or the error. -/
theorem complete_cases (r : Except Detail State) :
    (∃ t, r = .ok t ∧ s.complete r = .next t.succeed) ∨ (∃ d, r = .error d ∧ s.complete r = .next (s.raise d)) := by
  cases r with
  | ok t => exact .inl ⟨t, rfl, rfl⟩
  | error d => exact .inr ⟨d, rfl, rfl⟩

/-- All a scalar completion can do. -/
theorem completeScalar_cases (rd : Reg) (r : Except Detail Nat) :
    (∃ v, r = .ok v ∧ s.completeScalar rd r = .next (s.writeX rd (BitVec.ofNat 64 v)).succeed) ∨
      (∃ d, r = .error d ∧ s.completeScalar rd r = .next (s.raise d)) := by
  cases r with
  | ok v => exact .inl ⟨v, rfl, rfl⟩
  | error d => exact .inr ⟨d, rfl, rfl⟩

/-- All the end of a transform can do (43_ntt.md R175). -/
theorem finishTransform_cases (path : NttPath) (out : List Word) :
    ((∀ w ∈ out, w.toNat < s.q) ∧ s.finishTransform path out =
        .next (State.succeed { s.storeArray .buf out with status := { s.status with lastPath := some path } })) ∨
      ((∃ w ∈ out, s.q ≤ w.toNat) ∧ s.finishTransform path out = .next ((s.storeArray .buf out).raise .postcondition)) := by
  unfold State.finishTransform
  by_cases h : (out.all fun w => decide (w.toNat < s.q)) = true
  · refine .inl ⟨by simpa using h, ?_⟩
    simp [h]
  · refine .inr ⟨by simpa using h, ?_⟩
    simp [h]

/-! ## Bus accesses -/

/-- All a read can do: it changes the response, and counts a draw. -/
theorem memRead_cases (off n : Nat) :
    s.memRead off n = s.busError ∨
      (s.busy = true ∧ s.memRead off n =
        { s with response := .readOk (bytesOfWord (Config.busyRead s.draws)), draws := s.draws + 1 }) ∨
      s.memRead off n = { s with response := .readOk (bytesOfWord (s.placeWord (placeAt s.nMax off))) } := by
  unfold State.memRead
  split
  · simp only
    split
    · exact .inl rfl
    · split
      · rename_i h
        simp only [Bool.and_eq_true] at h
        exact .inr (.inl ⟨h.1, rfl⟩)
      · exact .inr (.inr rfl)
  · exact .inl rfl

/-- All a write can do: nothing but the response, the refusal while busy, or the write of a writable place of an idle block. -/
theorem memWrite_cases (off : Nat) (lanes : List Byte) :
    s.memWrite off lanes = s.busError ∨
      (s.busy = true ∧ (placeAt s.nMax off).writable = true ∧ s.memWrite off lanes = s.refuseBusy) ∨
      (s.busy = false ∧ (placeAt s.nMax off).writable = true ∧ (placeAt s.nMax off = .cmd → s.status.fatal = false) ∧
        s.memWrite off lanes =
          { s.writePlace (placeAt s.nMax off) (wordOfBytes lanes) with response := .writeOk }) := by
  unfold State.memWrite
  split
  · simp only
    split
    · rename_i hw
      split
      · rename_i hb
        exact .inr (.inl ⟨hb, hw, rfl⟩)
      · rename_i hb
        split
        · exact .inl rfl
        · rename_i hf
          refine .inr (.inr ⟨by simpa using hb, hw, fun hc => ?_, rfl⟩)
          simpa [hc] using hf
    · exact .inl rfl
  · exact .inl rfl

/-- All a change of the reset input can do. -/
theorem setReset_cases (asserted : Bool) :
    (asserted = true ∧ s.setReset asserted = { s with inReset := true }) ∨
      (asserted = false ∧ s.inReset = true ∧ s.setReset asserted = s.afterReset) ∨
      (asserted = false ∧ s.inReset = false ∧ s.setReset asserted = s) := by
  cases asserted <;> cases h : s.inReset <;> simp [State.setReset, h]

/-- All the completion step can do: nothing, an illegal encoding's error, or the decoded command. -/
theorem completionStep_cases :
    ((s.inReset = true ∨ s.pending = none) ∧ s.completionStep = .next s) ∨
      (s.inReset = false ∧ ∃ p e, s.pending = some p ∧ decodeCommand p.word = .error e ∧
        s.completionStep = .next (s.raise (detailOfDecodeError e))) ∨
      (s.inReset = false ∧ ∃ p i, s.pending = some p ∧ decodeCommand p.word = .ok i ∧ s.completionStep = exec i s) := by
  unfold State.completionStep
  by_cases hr : s.inReset = true
  · simp [hr]
  · cases hp : s.pending with
    | none => simp [hr]
    | some p => cases hd : decodeCommand p.word <;> simp_all

/-- All one step can do: the completion step, or the next input. -/
theorem step_cases :
    (s.inputs = [] ∧ step s = s.completionStep) ∨
      (∃ rest, s.inputs = .completion :: rest ∧ step s = State.completionStep { s with inputs := rest }) ∨
      (∃ rest addr n, s.inputs = .memRead addr n :: rest ∧ step s = State.busRead { s with inputs := rest } addr n) ∨
      (∃ rest addr lanes, s.inputs = .memWrite addr lanes :: rest ∧
        step s = State.busWrite { s with inputs := rest } addr lanes) ∨
      (∃ rest asserted, s.inputs = .reset asserted :: rest ∧
        step s = .next (State.setReset { s with inputs := rest } asserted)) := by
  unfold step State.nextStep
  cases h : s.inputs with
  | nil => exact .inl ⟨rfl, rfl⟩
  | cons i rest =>
    cases i with
    | completion => exact .inr (.inl ⟨rest, rfl, rfl⟩)
    | memRead addr n => exact .inr (.inr (.inl ⟨rest, addr, n, rfl, rfl⟩))
    | memWrite addr lanes => exact .inr (.inr (.inr (.inl ⟨rest, addr, lanes, rfl, rfl⟩)))
    | reset asserted => exact .inr (.inr (.inr (.inr ⟨rest, asserted, rfl, rfl⟩)))

end Sys2Proof.Machine
end

