-- ==== Sys2Proof/Laws/Bus.lean ====
section
/-! SUPPORT. The address map read off the offset: which offsets are reserved, writable and unspecified while busy, and one host
access as one operation on the window. -/

namespace Sys2Proof.Machine

/-- Below 0x100 the map is the list of control registers. -/
theorem placeAt_low {nMax off : Nat} (h : off < 0x100) : placeAt nMax off = registerAt (off / 8) := by
  simp [placeAt, h]

/-- From 0x100 to 0x17F the map is the operand registers. -/
theorem placeAt_xreg {nMax off : Nat} (h : 0x100 ≤ off) (h' : off < 0x180) :
    placeAt nMax off = .xreg (Fin.ofNat 16 ((off - 0x100) / 8)) := by
  unfold placeAt
  rw [if_neg (by omega), if_pos h']

/-- From 0x180 on the map is the arrays' regions. -/
theorem placeAt_high {nMax off : Nat} (h : 0x180 ≤ off) :
    placeAt nMax off =
      match arrayAt (off / 0x01000000) with
      | some arr => if off % 0x01000000 / 8 < nMax then .array arr (off % 0x01000000 / 8) else .reserved
      | none => .reserved := by
  exact (if_neg (by omega)).trans (if_neg (by omega))

/-- The regions that hold an array are those of numbers 1 to 6. -/
theorem arrayAt_cases (r : Nat) :
    (∃ arr : ArrayId, arrayAt r = some arr ∧ arr.base = 0x01000000 * r ∧ (arr = .buf ↔ r = 1) ∧ 1 ≤ r ∧ r ≤ 6) ∨
      (arrayAt r = none ∧ (r = 0 ∨ 7 ≤ r)) := by
  match r with
  | 0 => exact .inr ⟨rfl, by decide⟩
  | 1 => exact .inl ⟨.buf, rfl, rfl, by decide⟩
  | 2 => exact .inl ⟨.fwdPow, rfl, rfl, by decide⟩
  | 3 => exact .inl ⟨.fwdPre64, rfl, rfl, by decide⟩
  | 4 => exact .inl ⟨.fwdPre52, rfl, rfl, by decide⟩
  | 5 => exact .inl ⟨.invPow, rfl, rfl, by decide⟩
  | 6 => exact .inl ⟨.invPre64, rfl, rfl, by decide⟩
  | r + 7 => exact .inr ⟨rfl, by omega⟩

/-- All the map can name at an offset of the window that is a multiple of 8. -/
theorem placeAt_cases (nMax off : Nat) (h8 : off % 8 = 0) :
    (off < 0x100 ∧ placeAt nMax off = registerAt (off / 8)) ∨
      (∃ r : Reg, off = 0x100 + 8 * r.val ∧ placeAt nMax off = .xreg r) ∨
      (∃ arr : ArrayId, ∃ k < nMax, off = arr.base + 8 * k ∧ 8 * k < 0x01000000 ∧ placeAt nMax off = .array arr k) ∨
      (placeAt nMax off = .reserved ∧
        ((0x180 ≤ off ∧ off < 0x01000000) ∨ 0x07000000 ≤ off ∨ (0x01000000 ≤ off ∧ 8 * nMax ≤ off % 0x01000000))) := by
  by_cases h1 : off < 0x100
  · exact .inl ⟨h1, placeAt_low h1⟩
  by_cases h2 : off < 0x180
  · refine .inr (.inl ⟨⟨(off - 0x100) / 8, by omega⟩, by simp only; omega, ?_⟩)
    rw [placeAt_xreg (by omega) h2]
    congr 1
    apply Fin.ext
    simp only [Fin.ofNat]
    omega
  rw [placeAt_high (by omega)]
  rcases arrayAt_cases (off / 0x01000000) with ⟨arr, ha, hb, -, h3, h4⟩ | ⟨ha, hr⟩
  · rw [ha]
    by_cases hk : off % 0x01000000 / 8 < nMax
    · exact .inr (.inr (.inl ⟨arr, _, hk, by omega, by omega, if_pos hk⟩))
    · exact .inr (.inr (.inr ⟨if_neg hk, by omega⟩))
  · rw [ha]
    exact .inr (.inr (.inr ⟨rfl, by omega⟩))

variable (s : State)

/-- The reserved offsets of 20_memory.md R61. -/
theorem placeAt_reserved_iff {off : Nat} (h8 : off % 8 = 0) :
    placeAt s.nMax off = .reserved ↔ reservedOffset s off := by
  have hN : s.nMax = 2 ^ s.params.nMaxLog2 := rfl
  rcases placeAt_cases s.nMax off h8 with ⟨h, e⟩ | ⟨r, h, e⟩ | ⟨arr, k, hk, h, h', e⟩ | ⟨e, h⟩
  · rw [e]
    unfold reservedOffset
    obtain ⟨w, rfl⟩ : ∃ w, off = 8 * w := ⟨off / 8, by omega⟩
    rw [Nat.mul_div_cancel_left _ (by decide)]
    have hw : w < 32 := by omega
    interval_cases w <;> simp [registerAt]
  · rw [e]
    unfold reservedOffset
    have := r.isLt
    simp only [reduceCtorEq, false_iff]
    omega
  · rw [e]
    unfold reservedOffset
    have : 0x01000000 ≤ arr.base ∧ arr.base ≤ 0x06000000 ∧ arr.base % 0x01000000 = 0 := by cases arr <;> decide
    simp only [reduceCtorEq, false_iff]
    omega
  · rw [e]
    unfold reservedOffset
    simp only [true_iff]
    omega

/-- The offsets a host may write (R61, R66). -/
theorem placeAt_writable_iff {off : Nat} (h : off < 0x08000000) (h8 : off % 8 = 0) :
    (placeAt s.nMax off).writable = true ↔ ¬reservedOffset s off ∧ ¬readOnlyOffset off := by
  rw [← placeAt_reserved_iff s h8]
  unfold readOnlyOffset
  rcases placeAt_cases s.nMax off h8 with ⟨h, e⟩ | ⟨r, h, e⟩ | ⟨arr, k, hk, h, h', e⟩ | ⟨e, h⟩
  · rw [e]
    obtain ⟨w, rfl⟩ : ∃ w, off = 8 * w := ⟨off / 8, by omega⟩
    rw [Nat.mul_div_cancel_left _ (by decide)]
    have hw : w < 32 := by omega
    interval_cases w <;> simp [registerAt, Place.writable]
  · rw [e]
    have := r.isLt
    simp [Place.writable]
    omega
  · rw [e]
    cases arr <;> simp [Place.writable, ArrayId.base] at * <;> omega
  · rw [e]
    simp [Place.writable]

/-- The offsets whose reads are unspecified while busy (R68). -/
theorem placeAt_unspecified_iff {off : Nat} (h8 : off % 8 = 0) (hr : ¬reservedOffset s off) :
    (placeAt s.nMax off).unspecifiedWhileBusy = true ↔ hiddenWhileBusy off := by
  rw [← placeAt_reserved_iff s h8] at hr
  unfold hiddenWhileBusy
  rcases placeAt_cases s.nMax off h8 with ⟨h, e⟩ | ⟨r, h, e⟩ | ⟨arr, k, hk, h, h', e⟩ | ⟨e, h⟩
  · rw [e] at *
    obtain ⟨w, rfl⟩ : ∃ w, off = 8 * w := ⟨off / 8, by omega⟩
    rw [Nat.mul_div_cancel_left _ (by decide)] at *
    have hw : w < 32 := by omega
    interval_cases w <;> simp_all [registerAt, Place.unspecifiedWhileBusy]
  · rw [e]
    have := r.isLt
    simp [Place.unspecifiedWhileBusy]
    omega
  · rw [e]
    have : 0x01000000 ≤ arr.base := by cases arr <;> decide
    simp [Place.unspecifiedWhileBusy]
    omega
  · exact absurd e hr

/-- CMD stands at offset 0x020 only. -/
theorem placeAt_cmd_iff {nMax off : Nat} (h8 : off % 8 = 0) : placeAt nMax off = .cmd ↔ off = 0x020 := by
  rcases placeAt_cases nMax off h8 with ⟨h, e⟩ | ⟨r, h, e⟩ | ⟨arr, k, hk, h, h', e⟩ | ⟨e, h⟩
  · rw [e]
    obtain ⟨w, rfl⟩ : ∃ w, off = 8 * w := ⟨off / 8, by omega⟩
    rw [Nat.mul_div_cancel_left _ (by decide)]
    have hw : w < 32 := by omega
    interval_cases w <;> simp [registerAt]
  · rw [e]
    simp only [reduceCtorEq, false_iff]
    omega
  · rw [e]
    have : 0x01000000 ≤ arr.base := by cases arr <;> decide
    simp only [reduceCtorEq, false_iff]
    omega
  · rw [e]
    simp only [reduceCtorEq, false_iff]
    omega

/-- CTRL stands at offset 0x010 only. -/
theorem placeAt_ctrl_iff {nMax off : Nat} (h8 : off % 8 = 0) : placeAt nMax off = .ctrl ↔ off = 0x010 := by
  rcases placeAt_cases nMax off h8 with ⟨h, e⟩ | ⟨r, h, e⟩ | ⟨arr, k, hk, h, h', e⟩ | ⟨e, h⟩
  · rw [e]
    obtain ⟨w, rfl⟩ : ∃ w, off = 8 * w := ⟨off / 8, by omega⟩
    rw [Nat.mul_div_cancel_left _ (by decide)]
    have hw : w < 32 := by omega
    interval_cases w <;> simp [registerAt]
  · rw [e]
    simp only [reduceCtorEq, false_iff]
    omega
  · rw [e]
    have : 0x01000000 ≤ arr.base := by cases arr <;> decide
    simp only [reduceCtorEq, false_iff]
    omega
  · rw [e]
    simp only [reduceCtorEq, false_iff]
    omega

/-- One host write is one operation on the window. -/
theorem hostWrite_eq {off : Nat} (h : off < 0x08000000) (lanes : List Byte) :
    s.hostWrite off lanes = .next (State.memWrite { s with inputs := [] } off lanes) := by
  have : off < Config.windowSize := h
  simp [State.hostWrite, step, State.nextStep, State.inputStep, State.busWrite, State.inWindow, this]

/-- One host read is one operation on the window. -/
theorem hostRead_eq {off : Nat} (h : off < 0x08000000) (n : Nat) :
    s.hostRead off n = .next (State.memRead { s with inputs := [] } off n) := by
  have : off < Config.windowSize := h
  simp [State.hostRead, step, State.nextStep, State.inputStep, State.busRead, State.inWindow, this]

/-! ## One access, case by case -/

/-- An access of another width, at another alignment or in reset (R64; 70_reset_and_hazards.md R250). -/
theorem memRead_notTaken {off n : Nat} (h : s.takesAccess off n = false) : s.memRead off n = s.busError := by
  simp [State.memRead, h]

theorem memRead_reserved {off n : Nat} (h : placeAt s.nMax off = .reserved) : s.memRead off n = s.busError := by
  unfold State.memRead
  split <;> simp [h]

theorem memRead_drawn {off n : Nat} (ht : s.takesAccess off n = true) (hr : placeAt s.nMax off ≠ .reserved)
    (hb : s.busy = true) (hu : (placeAt s.nMax off).unspecifiedWhileBusy = true) :
    s.memRead off n = { s with response := .readOk (bytesOfWord (Config.busyRead s.draws)), draws := s.draws + 1 } := by
  simp [State.memRead, ht, hr, hb, hu]

theorem memRead_answered {off n : Nat} (ht : s.takesAccess off n = true) (hr : placeAt s.nMax off ≠ .reserved)
    (hu : s.busy = false ∨ (placeAt s.nMax off).unspecifiedWhileBusy = false) :
    s.memRead off n = { s with response := .readOk (bytesOfWord (s.placeWord (placeAt s.nMax off))) } := by
  unfold State.memRead
  rw [if_pos ht]
  simp only [if_neg hr]
  rw [if_neg]
  rcases hu with h | h <;> simp [h]

theorem memWrite_notTaken {off : Nat} {lanes : List Byte} (h : s.takesAccess off lanes.length = false) :
    s.memWrite off lanes = s.busError := by
  simp [State.memWrite, h]

theorem memWrite_notWritable {off : Nat} {lanes : List Byte} (h : (placeAt s.nMax off).writable = false) :
    s.memWrite off lanes = s.busError := by
  unfold State.memWrite
  split <;> simp [h]

theorem memWrite_busy {off : Nat} {lanes : List Byte} (ht : s.takesAccess off lanes.length = true)
    (hw : (placeAt s.nMax off).writable = true) (hb : s.busy = true) : s.memWrite off lanes = s.refuseBusy := by
  simp [State.memWrite, ht, hw, hb]

theorem memWrite_fatal {off : Nat} {lanes : List Byte} (hb : s.busy = false) (hc : placeAt s.nMax off = .cmd)
    (hf : s.status.fatal = true) : s.memWrite off lanes = s.busError := by
  unfold State.memWrite
  split <;> simp [hc, hb, hf, Place.writable]

theorem memWrite_stored {off : Nat} {lanes : List Byte} (ht : s.takesAccess off lanes.length = true)
    (hw : (placeAt s.nMax off).writable = true) (hb : s.busy = false)
    (hf : placeAt s.nMax off = .cmd → s.status.fatal = false) :
    s.memWrite off lanes = { s.writePlace (placeAt s.nMax off) (wordOfBytes lanes) with response := .writeOk } := by
  unfold State.memWrite
  rw [if_pos ht]
  simp only [if_pos hw, hb, Bool.false_eq_true, if_false]
  rw [if_neg]
  rintro ⟨h, h'⟩
  simp [hf h] at h'

/-- All a write can do, place by place: nothing but the response, the refusal while busy, or one of the stores of an idle block. -/
theorem memWrite_inv (off : Nat) (lanes : List Byte) :
    s.memWrite off lanes = s.busError ∨ (s.inReset = false ∧ s.busy = true ∧ s.memWrite off lanes = s.refuseBusy) ∨
      (s.inReset = false ∧ s.busy = false ∧ off % 8 = 0 ∧ lanes.length = 8 ∧
        ((off = 0x010 ∧ s.memWrite off lanes = { s.writeCtrl (wordOfBytes lanes) with response := .writeOk }) ∨
          (off = 0x030 ∧ s.memWrite off lanes = { s with modulus := wordOfBytes lanes, response := .writeOk }) ∨
          (off = 0x038 ∧ s.memWrite off lanes = { s with degree := wordOfBytes lanes, response := .writeOk }) ∨
          (∃ r : Reg, off = 0x100 + 8 * r.val ∧
            s.memWrite off lanes = { s.writeX r (wordOfBytes lanes) with response := .writeOk }) ∨
          (∃ k < s.nMax, off = ArrayId.buf.base + 8 * k ∧
            s.memWrite off lanes = { s.storeBytes off (bytesOfWord (wordOfBytes lanes)) with response := .writeOk }) ∨
          (off = 0x020 ∧ s.status.fatal = false ∧
            s.memWrite off lanes = { s.accept (wordOfBytes lanes) with response := .writeOk }))) := by
  by_cases ht : s.takesAccess off lanes.length = true
  swap
  · exact .inl (memWrite_notTaken s (by simpa using ht))
  have ht' := ht
  simp only [State.takesAccess, Bool.and_eq_true, beq_iff_eq, Bool.not_eq_true'] at ht'
  obtain ⟨⟨hl, h8⟩, hi⟩ := ht'
  rcases memWrite_cases s off lanes with h | ⟨h1, h2, h3⟩ | ⟨h1, h2, h3, h4⟩
  · exact .inl h
  · exact .inr (.inl ⟨hi, h1, h3⟩)
  refine .inr (.inr ⟨hi, h1, h8, hl, ?_⟩)
  rw [h4]
  rcases placeAt_cases s.nMax off h8 with ⟨h, e⟩ | ⟨r, h, e⟩ | ⟨arr, k, hk, h, h', e⟩ | ⟨e, h⟩
  · obtain ⟨w, rfl⟩ : ∃ w, off = 8 * w := ⟨off / 8, by omega⟩
    rw [Nat.mul_div_cancel_left _ (by decide)] at e
    have hw : w < 32 := by omega
    rw [e] at h2 h3 ⊢
    interval_cases w <;> simp only [registerAt, Place.writable, Bool.false_eq_true] at h2
    · exact .inl ⟨rfl, rfl⟩
    · exact .inr (.inr (.inr (.inr (.inr ⟨rfl, h3 rfl, rfl⟩))))
    · exact .inr (.inl ⟨rfl, rfl⟩)
    · exact .inr (.inr (.inl ⟨rfl, rfl⟩))
  · rw [e]
    exact .inr (.inr (.inr (.inl ⟨r, h, rfl⟩)))
  · rw [e] at h2 ⊢
    cases arr <;> simp only [Place.writable, Bool.false_eq_true] at h2
    refine .inr (.inr (.inr (.inr (.inl ⟨k, hk, h, ?_⟩))))
    rw [h]
    rfl
  · rw [e] at h2
    exact absurd h2 (by decide)

end Sys2Proof.Machine
end

