-- ==== Sys2Proof/Laws/Stages.lean ====
section
/-! SUPPORT. The transforms' stages over a list of words: they keep the number of words, and a bound that every butterfly keeps holds
of every word. -/

namespace Sys2Proof.Machine

/-! ## Lengths -/

theorem runStage_length (bfly : Butterfly) (t : Nat) (tws : List (Word × Word)) (buf : List Word)
    (h : buf.length = 2 * t * tws.length) : (runStage bfly t tws buf).length = buf.length := by
  induction tws generalizing buf with
  | nil => rfl
  | cons tw tws ih =>
    simp only [List.length_cons, Nat.mul_add, Nat.mul_one] at h
    have hd : (buf.drop (2 * t)).length = 2 * t * tws.length := by simp only [List.length_drop]; omega
    simp only [runStage, List.length_append, List.length_map, List.length_zipWith, List.length_take, List.length_drop, ih _ hd]
    omega

theorem stageTwiddles_length {table : List (Word × Word)} {m : Nat} (h : 2 * m ≤ table.length) :
    (stageTwiddles table m).length = m := by
  simp only [stageTwiddles, List.length_take, List.length_drop]
  omega

theorem forwardStages_length (bfly : Butterfly) (table : List (Word × Word)) (stages m : Nat) (buf : List Word)
    (hb : buf.length = m * 2 ^ stages) (ht : m * 2 ^ stages ≤ table.length) :
    (forwardStages bfly table stages m (2 ^ stages / 2) buf).length = buf.length := by
  induction stages generalizing m buf with
  | zero => rfl
  | succ stages ih =>
    have e : 2 ^ (stages + 1) / 2 = 2 ^ stages := by rw [Nat.pow_succ]; omega
    have e' : m * 2 ^ (stages + 1) = 2 * (m * 2 ^ stages) := by rw [Nat.pow_succ]; ring
    have hm : m ≤ m * 2 ^ stages := Nat.le_mul_of_pos_right _ (Nat.two_pow_pos _)
    have hs : (runStage bfly (2 ^ stages) (stageTwiddles table m) buf).length = buf.length := by
      apply runStage_length
      rw [stageTwiddles_length (by omega), hb]
      ring
    rw [forwardStages, e, ih (2 * m) _ (by rw [hs, hb]; ring) (by rw [e'] at ht; linarith), hs]

theorem inverseStages_length (bfly : Butterfly) (table : List (Word × Word)) (stages t : Nat) (buf : List Word)
    (hb : buf.length = t * 2 ^ (stages + 1)) (ht : 2 ^ (stages + 1) ≤ table.length) :
    (inverseStages bfly table stages (2 ^ stages) t buf).length = buf.length := by
  induction stages generalizing t buf with
  | zero => rfl
  | succ stages ih =>
    have e : 2 ^ (stages + 1) / 2 = 2 ^ stages := by rw [Nat.pow_succ]; omega
    have e' : 2 ^ (stages + 1 + 1) = 2 * 2 ^ (stages + 1) := by rw [Nat.pow_succ]; ring
    have hs : (runStage bfly t (stageTwiddles table (2 ^ (stages + 1))) buf).length = buf.length := by
      apply runStage_length
      rw [stageTwiddles_length (by omega), hb]
      ring
    rw [inverseStages, e, ih (2 * t) _ (by rw [hs, hb]; ring) (by omega), hs]

theorem twiddleTable_length (s : State) (a b : ArrayId) (n : Nat) : (s.twiddleTable a b n).length = n := by
  simp [State.twiddleTable]

/-! ## What holds of every word -/

/-- A stage takes words that satisfy P to words that satisfy Q, where every butterfly does. -/
theorem runStage_forall {P Q : Word → Prop} {T : Word × Word → Prop} {bfly : Butterfly}
    (hb : ∀ tw x y, T tw → P x → P y → Q (bfly tw.1 tw.2 x y).1 ∧ Q (bfly tw.1 tw.2 x y).2) (t : Nat)
    (tws : List (Word × Word)) (buf : List Word) (ht : ∀ tw ∈ tws, T tw) (hl : buf.length = 2 * t * tws.length)
    (hP : ∀ w ∈ buf, P w) : ∀ w ∈ runStage bfly t tws buf, Q w := by
  induction tws generalizing buf with
  | nil =>
    intro w hw
    have : buf = [] := List.length_eq_zero_iff.mp (by simpa using hl)
    simp [runStage, this] at hw
  | cons tw tws ih =>
    simp only [List.length_cons, Nat.mul_add, Nat.mul_one] at hl
    have pair : ∀ r ∈ List.zipWith (bfly tw.1 tw.2) (buf.take t) ((buf.drop t).take t), Q r.1 ∧ Q r.2 := by
      intro r hr
      obtain ⟨i, hi, rfl⟩ := List.getElem_of_mem hr
      rw [List.getElem_zipWith]
      exact hb tw _ _ (ht tw (by simp)) (hP _ (List.mem_of_mem_take (List.getElem_mem _)))
        (hP _ (List.mem_of_mem_drop (List.mem_of_mem_take (List.getElem_mem _))))
    have rest := ih (buf.drop (2 * t)) (fun tw' h => ht tw' (by simp [h])) (by simp only [List.length_drop]; omega)
      (fun w h => hP w (List.mem_of_mem_drop h))
    intro w hw
    simp only [runStage, List.mem_append, List.mem_map] at hw
    rcases hw with ⟨r, hr, rfl⟩ | ⟨r, hr, rfl⟩ | hw
    · exact (pair r hr).1
    · exact (pair r hr).2
    · exact rest w hw

theorem mem_stageTwiddles {table : List (Word × Word)} {m : Nat} {tw : Word × Word} (h : tw ∈ stageTwiddles table m) :
    tw ∈ table := List.mem_of_mem_drop (List.mem_of_mem_take h)

theorem forwardStages_forall {P : Word → Prop} {T : Word × Word → Prop} {bfly : Butterfly}
    (hb : ∀ tw x y, T tw → P x → P y → P (bfly tw.1 tw.2 x y).1 ∧ P (bfly tw.1 tw.2 x y).2) {table : List (Word × Word)}
    (hT : ∀ tw ∈ table, T tw) (stages m : Nat) (buf : List Word) (hl : buf.length = m * 2 ^ stages)
    (ht : m * 2 ^ stages ≤ table.length) (hP : ∀ w ∈ buf, P w) :
    ∀ w ∈ forwardStages bfly table stages m (2 ^ stages / 2) buf, P w := by
  induction stages generalizing m buf with
  | zero => exact hP
  | succ stages ih =>
    have e : 2 ^ (stages + 1) / 2 = 2 ^ stages := by rw [Nat.pow_succ]; omega
    have e' : m * 2 ^ (stages + 1) = 2 * (m * 2 ^ stages) := by rw [Nat.pow_succ]; ring
    have hm : m ≤ m * 2 ^ stages := Nat.le_mul_of_pos_right _ (Nat.two_pow_pos _)
    have hg : buf.length = 2 * 2 ^ stages * (stageTwiddles table m).length := by
      rw [stageTwiddles_length (by omega), hl]
      ring
    rw [forwardStages, e]
    refine ih (2 * m) _ ?_ (by rw [e'] at ht; linarith) ?_
    · rw [runStage_length _ _ _ _ hg, hl]
      ring
    · exact runStage_forall hb _ _ _ (fun tw h => hT tw (mem_stageTwiddles h)) hg hP

theorem inverseStages_forall {P : Word → Prop} {T : Word × Word → Prop} {bfly : Butterfly}
    (hb : ∀ tw x y, T tw → P x → P y → P (bfly tw.1 tw.2 x y).1 ∧ P (bfly tw.1 tw.2 x y).2) {table : List (Word × Word)}
    (hT : ∀ tw ∈ table, T tw) (stages t : Nat) (buf : List Word) (hl : buf.length = t * 2 ^ (stages + 1))
    (ht : 2 ^ (stages + 1) ≤ table.length) (hP : ∀ w ∈ buf, P w) :
    ∀ w ∈ inverseStages bfly table stages (2 ^ stages) t buf, P w := by
  induction stages generalizing t buf with
  | zero => exact hP
  | succ stages ih =>
    have e : 2 ^ (stages + 1) / 2 = 2 ^ stages := by rw [Nat.pow_succ]; omega
    have e' : 2 ^ (stages + 1 + 1) = 2 * 2 ^ (stages + 1) := by rw [Nat.pow_succ]; ring
    have hg : buf.length = 2 * t * (stageTwiddles table (2 ^ (stages + 1))).length := by
      rw [stageTwiddles_length (by omega), hl]
      ring
    rw [inverseStages, e]
    refine ih (2 * t) _ ?_ (by omega) ?_
    · rw [runStage_length _ _ _ _ hg, hl]
      ring
    · exact runStage_forall hb _ _ _ (fun tw h => hT tw (mem_stageTwiddles h)) hg hP

/-! ## Butterflies: the range and the value mod q of each half -/

/-- A twiddle below q with the exact companion at precision s (42_bitrev_table.md R154, R156). -/
def ExactTwiddle (s q : Nat) (tw : Word × Word) : Prop := tw.1.toNat < q ∧ tw.2.toNat = tw.1.toNat * 2 ^ s / q

/-- LAZY_s of an exact twiddle: below 2q and congruent to the product (40_modmul.md R113). -/
theorem lazyMul_exact {s q x w p : Nat} (hs : s ≤ 64) (hx : x < 2 ^ s) (hw : w < q) (hp : p = w * 2 ^ s / q)
    (hq : 2 * q ≤ 2 ^ 64) : lazyMul s x w p q < 2 * q ∧ (lazyMul s x w p q : ZMod q) = w * x := by
  obtain ⟨h1, h2⟩ := lazyMul_range hs hx hw hq
  rw [(barrettFactor_eq hs hw).1, ← hp] at h1 h2
  refine ⟨h1, ?_⟩
  rw [← Nat.cast_mul, ZMod.natCast_eq_natCast_iff', h2, Nat.mul_comm]

/-- One conditional subtraction of 2q does not change the value mod q. -/
theorem subIfGe_cast (r c q : Nat) : (subIfGe r (c * q) : ZMod q) = r := by
  rw [ZMod.natCast_eq_natCast_iff', subIfGe_mod]

/-- Canonical addition: below q, and the sum mod q (41_addsub_pow.md R131). -/
theorem addMod_spec {a b q : Nat} (ha : a < q) (hb : b < q) : addMod a b q < q ∧ (addMod a b q : ZMod q) = a + b := by
  unfold addMod
  refine ⟨subIfGe_lt (by omega), ?_⟩
  rw [← Nat.cast_add, ZMod.natCast_eq_natCast_iff', subIfGe_mod_self]

/-- Canonical subtraction: below q, and the difference mod q (R132). -/
theorem subMod_spec {a b q : Nat} (ha : a < q) (hb : b < q) : subMod a b q < q ∧ (subMod a b q : ZMod q) = a - b := by
  unfold subMod
  split
  · rename_i h
    exact ⟨by omega, by rw [Nat.cast_sub h]⟩
  · refine ⟨by omega, ?_⟩
    rw [Nat.cast_sub (by omega), Nat.cast_add, ZMod.natCast_self, add_zero]

/-- Canonical multiplication: below q, and the product mod q (40_modmul.md R114). -/
theorem mulMod_spec {a b q : Nat} (hq : 0 < q) : mulMod a b q < q ∧ (mulMod a b q : ZMod q) = a * b := by
  unfold mulMod
  refine ⟨Nat.mod_lt _ hq, ?_⟩
  rw [ZMod.natCast_mod, Nat.cast_mul]

/-- FWD_BFLY keeps words below 4q (43_ntt.md R178). -/
theorem fwdButterfly_spec {s q : Nat} {tw : Word × Word} {x y : Word} (hs : s ≤ 64) (hq : 4 * q ≤ 2 ^ s)
    (ht : ExactTwiddle s q tw) (hx : x.toNat < 4 * q) (hy : y.toNat < 4 * q) :
    ((fwdButterfly s q tw.1 tw.2 x y).1.toNat < 4 * q ∧ (fwdButterfly s q tw.1 tw.2 x y).2.toNat < 4 * q) ∧
      ((fwdButterfly s q tw.1 tw.2 x y).1.toNat : ZMod q) = x.toNat + tw.1.toNat * y.toNat ∧
      ((fwdButterfly s q tw.1 tw.2 x y).2.toNat : ZMod q) = x.toNat - tw.1.toNat * y.toNat := by
  have h64 : 2 ^ s ≤ 2 ^ 64 := Nat.pow_le_pow_right (by decide) hs
  obtain ⟨h1, h2⟩ := lazyMul_exact (x := y.toNat) hs (by omega) ht.1 ht.2 (by omega)
  have h3 : subIfGe x.toNat (2 * q) < 2 * q := subIfGe_lt (by omega)
  have h4 := subIfGe_cast x.toNat 2 q
  unfold fwdButterfly
  generalize lazyMul s y.toNat tw.1.toNat tw.2.toNat q = t at *
  generalize subIfGe x.toNat (2 * q) = x' at *
  have e1 : (wordOf (x' + t : Nat)).toNat = x' + t := wordOf_toNat_of_lt (by omega)
  have e2 : (wordOf ((x' + 2 * q : Nat) - t)).toNat = x' + 2 * q - t := by
    rw [← Nat.cast_sub (by omega)]
    exact wordOf_toNat_of_lt (by omega)
  simp only [e1, e2]
  refine ⟨⟨by omega, by omega⟩, ?_, ?_⟩
  · rw [Nat.cast_add, h2, h4]
  · rw [Nat.cast_sub (by omega), h2, Nat.cast_add, Nat.cast_mul, ZMod.natCast_self, mul_zero, add_zero, h4]

/-- The inverse sum is below 2q (R181). -/
theorem inverseSum_spec {q : Nat} {x y : Word} (hx : x.toNat < 2 * q) (hy : y.toNat < 2 * q) :
    inverseSum q x y < 2 * q ∧ (inverseSum q x y : ZMod q) = x.toNat + y.toNat := by
  unfold inverseSum
  exact ⟨subIfGe_lt (by omega), by rw [subIfGe_cast, Nat.cast_add]⟩

/-- The inverse difference is below 4q (R181, R187). -/
theorem inverseDiff_spec {q : Nat} {x y : Word} (hq : 4 * q ≤ 2 ^ 64) (hx : x.toNat < 2 * q) (hy : y.toNat < 2 * q) :
    inverseDiff q x y < 4 * q ∧ (inverseDiff q x y : ZMod q) = x.toNat - y.toNat := by
  have e : inverseDiff q x y = x.toNat + 2 * q - y.toNat := by
    unfold inverseDiff
    rw [← Nat.cast_sub (by omega), lo64_of_lt (by omega)]
  rw [e]
  refine ⟨by omega, ?_⟩
  rw [Nat.cast_sub (by omega), Nat.cast_add, Nat.cast_mul, ZMod.natCast_self, mul_zero, add_zero]

/-- INV_BFLY keeps words below 2q (R187). -/
theorem invButterfly_spec {q : Nat} {tw : Word × Word} {x y : Word} (hq : 4 * q ≤ 2 ^ 64) (ht : ExactTwiddle 64 q tw)
    (hx : x.toNat < 2 * q) (hy : y.toNat < 2 * q) :
    ((invButterfly q tw.1 tw.2 x y).1.toNat < 2 * q ∧ (invButterfly q tw.1 tw.2 x y).2.toNat < 2 * q) ∧
      ((invButterfly q tw.1 tw.2 x y).1.toNat : ZMod q) = x.toNat + y.toNat ∧
      ((invButterfly q tw.1 tw.2 x y).2.toNat : ZMod q) = tw.1.toNat * (x.toNat - y.toNat) := by
  have hd := inverseDiff_spec hq hx hy
  have hs := inverseSum_spec hx hy
  obtain ⟨h1, h2⟩ := lazyMul_exact (s := 64) (x := inverseDiff q x y) le_rfl (by omega) ht.1 ht.2 (by omega)
  unfold invButterfly
  have e1 : (wordOf (inverseSum q x y)).toNat = inverseSum q x y := wordOf_toNat_of_lt (by omega)
  have e2 : (wordOf (lazyMul 64 (inverseDiff q x y) tw.1.toNat tw.2.toNat q)).toNat = _ := wordOf_toNat_of_lt (by omega)
  simp only [e1, e2]
  exact ⟨⟨hs.1, h1⟩, hs.2, by rw [h2, hd.2]⟩

/-- The final stage's pair keeps words below 2q and folds in 1/n (R183, R187). -/
theorem invLastButterfly_spec {q : Nat} {c : InverseConstants} {w p x y : Word} (hq : 4 * q ≤ 2 ^ 64) (h1 : c.invN < q)
    (h2 : c.invNP = c.invN * 2 ^ 64 / q) (h3 : c.invNW < q) (h4 : c.invNWP = c.invNW * 2 ^ 64 / q)
    (hx : x.toNat < 2 * q) (hy : y.toNat < 2 * q) :
    ((invLastButterfly q c w p x y).1.toNat < 2 * q ∧ (invLastButterfly q c w p x y).2.toNat < 2 * q) ∧
      ((invLastButterfly q c w p x y).1.toNat : ZMod q) = c.invN * (x.toNat + y.toNat) ∧
      ((invLastButterfly q c w p x y).2.toNat : ZMod q) = c.invNW * (x.toNat - y.toNat) := by
  have hd := inverseDiff_spec hq hx hy
  have hs := inverseSum_spec hx hy
  obtain ⟨a1, a2⟩ := lazyMul_exact (s := 64) (x := inverseSum q x y) le_rfl (by omega) h1 h2 (by omega)
  obtain ⟨b1, b2⟩ := lazyMul_exact (s := 64) (x := inverseDiff q x y) le_rfl (by omega) h3 h4 (by omega)
  unfold invLastButterfly
  have e1 : (wordOf (lazyMul 64 (inverseSum q x y) c.invN c.invNP q)).toNat = _ := wordOf_toNat_of_lt (by omega)
  have e2 : (wordOf (lazyMul 64 (inverseDiff q x y) c.invNW c.invNWP q)).toNat = _ := wordOf_toNat_of_lt (by omega)
  simp only [e1, e2]
  exact ⟨⟨a1, b1⟩, by rw [a2, hs.2], by rw [b2, hd.2]⟩

/-- The reference butterfly keeps words below q (R176). -/
theorem fwdRefButterfly_spec {q : Nat} {w p x y : Word} (hq : q ≤ 2 ^ 64) (hx : x.toNat < q) :
    ((fwdRefButterfly q w p x y).1.toNat < q ∧ (fwdRefButterfly q w p x y).2.toNat < q) ∧
      ((fwdRefButterfly q w p x y).1.toNat : ZMod q) = x.toNat + w.toNat * y.toNat ∧
      ((fwdRefButterfly q w p x y).2.toNat : ZMod q) = x.toNat - w.toNat * y.toNat := by
  have m := mulMod_spec (a := y.toNat) (b := w.toNat) (show 0 < q by omega)
  have a := addMod_spec hx m.1
  have d := subMod_spec hx m.1
  unfold fwdRefButterfly
  have e1 : (wordOf (addMod x.toNat (mulMod y.toNat w.toNat q) q)).toNat = _ := wordOf_toNat_of_lt (by omega)
  have e2 : (wordOf (subMod x.toNat (mulMod y.toNat w.toNat q) q)).toNat = _ := wordOf_toNat_of_lt (by omega)
  simp only [e1, e2]
  exact ⟨⟨a.1, d.1⟩, by rw [a.2, m.2, mul_comm], by rw [d.2, m.2, mul_comm]⟩

/-- The inverse reference butterfly keeps words below q (R185). -/
theorem invRefButterfly_spec {q : Nat} {w p x y : Word} (hq : q ≤ 2 ^ 64) (hx : x.toNat < q) (hy : y.toNat < q) :
    ((invRefButterfly q w p x y).1.toNat < q ∧ (invRefButterfly q w p x y).2.toNat < q) ∧
      ((invRefButterfly q w p x y).1.toNat : ZMod q) = x.toNat + y.toNat ∧
      ((invRefButterfly q w p x y).2.toNat : ZMod q) = w.toNat * (x.toNat - y.toNat) := by
  have a := addMod_spec hx hy
  have d := subMod_spec hx hy
  have m := mulMod_spec (a := subMod x.toNat y.toNat q) (b := w.toNat) (show 0 < q by omega)
  unfold invRefButterfly
  have e1 : (wordOf (addMod x.toNat y.toNat q)).toNat = _ := wordOf_toNat_of_lt (by omega)
  have e2 : (wordOf (mulMod (subMod x.toNat y.toNat q) w.toNat q)).toNat = _ := wordOf_toNat_of_lt (by omega)
  simp only [e1, e2]
  exact ⟨⟨a.1, m.1⟩, a.2, by rw [m.2, d.2, mul_comm]⟩

/-- The final reference pair keeps words below q and folds in 1/n (R185). -/
theorem invRefLastButterfly_spec {q : Nat} {c : InverseConstants} {w p x y : Word} (hq : q ≤ 2 ^ 64) (hx : x.toNat < q)
    (hy : y.toNat < q) :
    ((invRefLastButterfly q c w p x y).1.toNat < q ∧ (invRefLastButterfly q c w p x y).2.toNat < q) ∧
      ((invRefLastButterfly q c w p x y).1.toNat : ZMod q) = c.invN * (x.toNat + y.toNat) ∧
      ((invRefLastButterfly q c w p x y).2.toNat : ZMod q) = c.invNW * (x.toNat - y.toNat) := by
  have a := addMod_spec hx hy
  have d := subMod_spec hx hy
  have m1 := mulMod_spec (a := addMod x.toNat y.toNat q) (b := c.invN) (show 0 < q by omega)
  have m2 := mulMod_spec (a := subMod x.toNat y.toNat q) (b := c.invNW) (show 0 < q by omega)
  unfold invRefLastButterfly
  have e1 : (wordOf (mulMod (addMod x.toNat y.toNat q) c.invN q)).toNat = _ := wordOf_toNat_of_lt (by omega)
  have e2 : (wordOf (mulMod (subMod x.toNat y.toNat q) c.invNW q)).toNat = _ := wordOf_toNat_of_lt (by omega)
  simp only [e1, e2]
  exact ⟨⟨m1.1, m2.1⟩, by rw [m1.2, a.2, mul_comm], by rw [m2.2, d.2, mul_comm]⟩

/-- The final pass of a word below 4q is its remainder (R174, R184). -/
theorem finalPass_forall {q : Nat} {buf : List Word} (hq : 0 < q) (hb : ∀ w ∈ buf, w.toNat < 4 * q) :
    (finalPass q buf).length = buf.length ∧ ∀ w ∈ finalPass q buf, w.toNat < q := by
  refine ⟨by simp [finalPass], fun w hw => ?_⟩
  simp only [finalPass, List.mem_map] at hw
  obtain ⟨v, hv, rfl⟩ := hw
  rw [reduceBy_four (hb v hv), wordOf_toNat_of_lt (lt_of_le_of_lt (Nat.mod_le _ _) v.isLt)]
  exact Nat.mod_lt _ hq

/-- The constants of the inverse's final stage (R182). -/
theorem inverseConstants_spec {n q w1 : Nat} (hq : q % (2 * n) = 1) (h1 : 1 < q) :
    let c := inverseConstants n q w1
    (c.invN < q ∧ n * c.invN % q = 1) ∧ (c.invNW < q ∧ (c.invNW : ZMod q) = c.invN * w1) ∧
      c.invNP = c.invN * 2 ^ 64 / q ∧ c.invNWP = c.invNW * 2 ^ 64 / q := by
  have hg : Nat.gcd n q = 1 := by
    have h := Nat.div_add_mod q (2 * n)
    rw [hq] at h
    have hd : Nat.gcd n q ∣ 1 := by
      have a : Nat.gcd n q ∣ 2 * n * (q / (2 * n)) :=
        Dvd.dvd.mul_right (Dvd.dvd.mul_left (Nat.gcd_dvd_left n q) 2) _
      exact (Nat.dvd_add_right a).mp (by rw [h]; exact Nat.gcd_dvd_right n q)
    exact Nat.dvd_one.mp hd
  obtain ⟨a, b⟩ := invMod_spec (show 2 ≤ q by omega) hg
  have m := mulMod_spec (a := invMod n q) (b := w1) (show 0 < q by omega)
  exact ⟨⟨a, b⟩, ⟨m.1, m.2⟩, (barrettFactor_eq le_rfl a).1, (barrettFactor_eq le_rfl m.1).1⟩

/-! ## Degrees -/

/-- The power-of-two test of CHECK_DEGREE (43_ntt.md R170). -/
theorem powerOfTwo_iff (n : Nat) : (n ≠ 0 ∧ n &&& (n - 1) = 0) ↔ n = 2 ^ n.log2 := by
  constructor
  · rintro ⟨h0, h⟩
    have h1 := Nat.log2_self_le h0
    have h2 : n < 2 * 2 ^ n.log2 := by rw [← Nat.pow_succ']; exact Nat.lt_log2_self
    by_contra hne
    have top : ∀ v, 2 ^ n.log2 ≤ v → v < 2 * 2 ^ n.log2 → v.testBit n.log2 = true := by
      intro v hv hv'
      rw [Nat.testBit_eq_decide_div_mod_eq, Nat.div_eq_of_lt_le (k := 1) (by omega) (by omega)]
      rfl
    have hb : (n &&& (n - 1)).testBit n.log2 = true := by
      rw [Nat.testBit_and, top n h1 h2, top (n - 1) (by omega) (by omega)]
      rfl
    rw [h, Nat.zero_testBit] at hb
    exact absurd hb (by decide)
  · intro h
    rw [h]
    refine ⟨(Nat.two_pow_pos _).ne', ?_⟩
    rw [Nat.and_two_pow_sub_one_eq_mod, Nat.mod_self]

end Sys2Proof.Machine
end

