-- ==== Sys2Proof/Laws/Transform.lean ====
section
/-! SUPPORT. What FNTT and INTT compute from a buffer: as many words as the degree, each below q where the table's twiddles are
exact. -/

namespace Sys2Proof.Machine

variable {n q : Nat} {table : List (Word × Word)} {buf : List Word}

theorem finalPass_length (q : Nat) (buf : List Word) : (finalPass q buf).length = buf.length := by simp [finalPass]

/-- A power of two of at least 2 has a stage. -/
theorem log2_succ (hn : n = 2 ^ n.log2) (h2 : 2 ≤ n) : ∃ l, n.log2 = l + 1 := by
  cases h : n.log2 with
  | zero =>
    rw [h] at hn
    omega
  | succ l => exact ⟨l, rfl⟩

/-- The forward stages at degree n, a power of two, as they are called. -/
theorem forwardStages_degree (bfly : Butterfly) (hn : n = 2 ^ n.log2) (ht : table.length = n) (hl : buf.length = n) :
    (forwardStages bfly table n.log2 1 (n / 2) buf).length = n := by
  have h := forwardStages_length bfly table n.log2 1 buf (by omega) (by omega)
  rwa [← hn, hl] at h

/-- The inverse stages but the last. -/
theorem inverseStages_degree (bfly : Butterfly) (hn : n = 2 ^ n.log2) (h2 : 2 ≤ n) (ht : table.length = n)
    (hl : buf.length = n) : (inverseStages bfly table (n.log2 - 1) (n / 2) 1 buf).length = n := by
  obtain ⟨l, hL⟩ := log2_succ hn h2
  rw [hL] at hn
  have e : n / 2 = 2 ^ l := by rw [hn, Nat.pow_succ]; omega
  have h := inverseStages_length bfly table l 1 buf (by omega) (by omega)
  rw [hL, e, Nat.add_sub_cancel, h, hl]

/-- The last inverse stage. -/
theorem lastStage_degree (hn : n = 2 ^ n.log2) (h2 : 2 ≤ n) (ht : table.length = n) (hl : buf.length = n) :
    buf.length = 2 * (n / 2) * (stageTwiddles table 1).length := by
  obtain ⟨l, hL⟩ := log2_succ hn h2
  rw [hL, Nat.pow_succ] at hn
  rw [stageTwiddles_length (by omega), hl]
  omega

theorem forwardLazy_length (s : Nat) (hn : n = 2 ^ n.log2) (ht : table.length = n) (hl : buf.length = n) :
    (forwardLazy s n q table buf).length = n := by
  rw [forwardLazy, finalPass_length, forwardStages_degree _ hn ht hl]

theorem forwardReference_length (hn : n = 2 ^ n.log2) (ht : table.length = n) (hl : buf.length = n) :
    (forwardReference n q table buf).length = n := forwardStages_degree _ hn ht hl

theorem inverseLazy_length (hn : n = 2 ^ n.log2) (h2 : 2 ≤ n) (ht : table.length = n) (hl : buf.length = n) :
    (inverseLazy n q table buf).length = n := by
  have h := inverseStages_degree (invButterfly q) hn h2 ht hl
  simp only [inverseLazy, finalPass_length]
  rw [runStage_length _ _ _ _ (lastStage_degree hn h2 ht h), h]

theorem inverseReference_length (hn : n = 2 ^ n.log2) (h2 : 2 ≤ n) (ht : table.length = n) (hl : buf.length = n) :
    (inverseReference n q table buf).length = n := by
  have h := inverseStages_degree (invRefButterfly q) hn h2 ht hl
  simp only [inverseReference]
  rw [runStage_length _ _ _ _ (lastStage_degree hn h2 ht h), h]

/-- FNTT computes as many words as the degree. -/
theorem forwardOutput_length (s : State) (p : NttPath) (hn : s.n = 2 ^ s.n.log2) : (s.forwardOutput p).length = s.n := by
  have hl := loadArray_length s .buf s.n
  have ht := fun a b => twiddleTable_length s a b s.n
  cases p
  · exact forwardLazy_length 64 hn (ht _ _) hl
  · exact forwardLazy_length 64 hn (ht _ _) hl
  · exact forwardLazy_length 52 hn (ht _ _) hl
  · exact forwardReference_length hn (ht _ _) hl

/-- INTT computes as many words as the degree. -/
theorem inverseOutput_length (s : State) (p : NttPath) (hn : s.n = 2 ^ s.n.log2) (h2 : 2 ≤ s.n) :
    (s.inverseOutput p).length = s.n := by
  have hl := loadArray_length s .buf s.n
  have ht := fun a b => twiddleTable_length s a b s.n
  cases p
  · exact inverseLazy_length hn h2 (ht _ _) hl
  · exact inverseLazy_length hn h2 (ht _ _) hl
  · exact inverseLazy_length hn h2 (ht _ _) hl
  · exact inverseReference_length hn h2 (ht _ _) hl

/-! ## Ranges -/

/-- The lazy forward transform gives words below q (43_ntt.md R178). -/
theorem forwardLazy_lt {s : Nat} (hs : s ≤ 64) (hn : n = 2 ^ n.log2) (hq0 : 0 < q) (hq : 4 * q ≤ 2 ^ s) (ht : table.length = n)
    (hl : buf.length = n) (hT : ∀ tw ∈ table, ExactTwiddle s q tw) (hb : ∀ w ∈ buf, w.toNat < q) :
    ∀ w ∈ forwardLazy s n q table buf, w.toNat < q := by
  have h := forwardStages_forall (P := fun w => w.toNat < 4 * q) (T := ExactTwiddle s q) (bfly := fwdButterfly s q)
    (fun tw x y h hx hy => (fwdButterfly_spec hs hq h hx hy).1) hT n.log2 1 buf (by omega) (by omega)
    (fun w hw => by have := hb w hw; omega)
  rw [← hn] at h
  exact (finalPass_forall hq0 h).2

/-- The reference forward transform gives words below q (R176). -/
theorem forwardReference_lt (hn : n = 2 ^ n.log2) (hq : q ≤ 2 ^ 64) (ht : table.length = n)
    (hl : buf.length = n) (hb : ∀ w ∈ buf, w.toNat < q) : ∀ w ∈ forwardReference n q table buf, w.toNat < q := by
  have h := forwardStages_forall (P := fun w => w.toNat < q) (T := fun _ => True) (bfly := fwdRefButterfly q)
    (fun tw x y _ hx _ => (fwdRefButterfly_spec hq hx).1) (table := table) (fun _ _ => trivial) n.log2 1 buf (by omega) (by omega) hb
  rwa [← hn] at h

/-- The lazy inverse transform gives words below q (R187). -/
theorem inverseLazy_lt (hn : n = 2 ^ n.log2) (h2 : 2 ≤ n) (h1 : 1 < q) (hf : q % (2 * n) = 1) (hq : 4 * q ≤ 2 ^ 64)
    (ht : table.length = n) (hl : buf.length = n) (hT : ∀ tw ∈ table, ExactTwiddle 64 q tw) (hb : ∀ w ∈ buf, w.toNat < q) :
    ∀ w ∈ inverseLazy n q table buf, w.toNat < q := by
  obtain ⟨l, hL⟩ := log2_succ hn h2
  have hn' := hn
  rw [hL] at hn'
  have e : n / 2 = 2 ^ l := by rw [hn', Nat.pow_succ]; omega
  have h := inverseStages_forall (P := fun w => w.toNat < 2 * q) (T := ExactTwiddle 64 q) (bfly := invButterfly q)
    (fun tw x y h hx hy => (invButterfly_spec hq h hx hy).1) hT l 1 buf (by omega) (by omega)
    (fun w hw => by have := hb w hw; omega)
  have hlen := inverseStages_degree (invButterfly q) hn h2 ht hl
  rw [hL, e, Nat.add_sub_cancel] at hlen
  obtain ⟨⟨a, -⟩, ⟨b, -⟩, c, d⟩ := inverseConstants_spec (w1 := (table.getD 1 (0, 0)).1.toNat) hf h1
  have hlast := runStage_forall (P := fun w => w.toNat < 2 * q) (Q := fun w => w.toNat < 2 * q) (T := fun _ => True)
    (bfly := invLastButterfly q (inverseConstants n q (table.getD 1 (0, 0)).1.toNat))
    (fun tw x y _ hx hy => (invLastButterfly_spec hq a c b d hx hy).1) (n / 2) (stageTwiddles table 1) _
    (fun _ _ => trivial) (lastStage_degree hn h2 ht hlen) h
  simp only [inverseLazy, hL, Nat.add_sub_cancel, e]
  rw [e] at hlast
  exact (finalPass_forall (by omega) (fun w hw => by have := hlast w hw; omega)).2

/-- The reference inverse transform gives words below q (R185). -/
theorem inverseReference_lt (hn : n = 2 ^ n.log2) (h2 : 2 ≤ n) (hq : q ≤ 2 ^ 64)
    (ht : table.length = n) (hl : buf.length = n) (hb : ∀ w ∈ buf, w.toNat < q) :
    ∀ w ∈ inverseReference n q table buf, w.toNat < q := by
  obtain ⟨l, hL⟩ := log2_succ hn h2
  have hn' := hn
  rw [hL] at hn'
  have e : n / 2 = 2 ^ l := by rw [hn', Nat.pow_succ]; omega
  have h := inverseStages_forall (P := fun w => w.toNat < q) (T := fun _ => True) (bfly := invRefButterfly q)
    (fun tw x y _ hx hy => (invRefButterfly_spec hq hx hy).1) (table := table) (fun _ _ => trivial) l 1 buf (by omega) (by omega) hb
  have hlen := inverseStages_degree (invRefButterfly q) hn h2 ht hl
  rw [hL, e, Nat.add_sub_cancel] at hlen
  have hlast := runStage_forall (P := fun w => w.toNat < q) (Q := fun w => w.toNat < q) (T := fun _ => True)
    (bfly := invRefLastButterfly q (inverseConstants n q (table.getD 1 (0, 0)).1.toNat))
    (fun tw x y _ hx hy => (invRefLastButterfly_spec hq hx hy).1) (n / 2) (stageTwiddles table 1) _
    (fun _ _ => trivial) (lastStage_degree hn h2 ht hlen) h
  simp only [inverseReference, hL, Nat.add_sub_cancel, e]
  rwa [e] at hlast

end Sys2Proof.Machine
end

