-- ==== Sys2Proof/Laws/Exec.lean ====
section
/-! SUPPORT. All that exec can do, said once. -/

namespace Sys2Proof.Machine

/-! ## Details -/

/-- What the checks of a rule raise: an error, and not INTERNAL (60_exceptions.md R222, R226). -/
abbrev RaisedByCheck (d : Detail) : Prop := d.errClass ≠ .none ∧ d.errClass ≠ .internal

/-- The failures of a rule's checks are raised by its checks. -/
def ChecksOnly {α : Type} (r : Except Detail α) : Prop := ∀ d, r = .error d → RaisedByCheck d

theorem checksOnly_ok {α : Type} (a : α) : ChecksOnly (.ok a : Except Detail α) := fun _ h => by cases h

theorem checksOnly_check {α : Type} {c : Prop} [Decidable c] {d : Detail} {rest : Except Detail α} (hd : RaisedByCheck d)
    (hr : ChecksOnly rest) : ChecksOnly (check c d rest) := by
  intro e h
  rcases check_eq_error.mp h with ⟨-, rfl⟩ | ⟨-, h⟩
  · exact hd
  · exact hr e h

theorem checksOnly_withSelect {α β : Type} {v : Option β} {d : Detail} {rest : β → Except Detail α} (hd : RaisedByCheck d)
    (hr : ∀ b, ChecksOnly (rest b)) : ChecksOnly (withSelect v d rest) := by
  intro e h
  rcases withSelect_eq_error.mp h with ⟨-, rfl⟩ | ⟨b, -, h⟩
  · exact hd
  · exact hr b e h

theorem checksOnly_checkDegree {α : Type} {n m : Nat} {rest : Except Detail α} (hr : ChecksOnly rest) :
    ChecksOnly (checkDegree n m rest) :=
  checksOnly_check (by decide) (checksOnly_check (by decide) hr)

/-! ## The rules' checks -/

theorem mfactResult_checks (bs : ShiftSel) (op q : Nat) : ChecksOnly (mfactResult bs op q) :=
  checksOnly_withSelect (by decide) fun _ => checksOnly_check (by decide) (checksOnly_check (by decide) (checksOnly_ok _))

theorem mullazyResult_checks (bs : ShiftSel) (x y f q : Nat) : ChecksOnly (mullazyResult bs x y f q) :=
  checksOnly_withSelect (by decide) fun _ => checksOnly_check (by decide) (checksOnly_check (by decide)
    (checksOnly_check (by decide) (checksOnly_check (by decide) (checksOnly_ok _))))

theorem mulmodResult_checks (a b q : Nat) : ChecksOnly (mulmodResult a b q) :=
  checksOnly_check (by decide) (checksOnly_check (by decide) (checksOnly_check (by decide) (checksOnly_ok _)))

theorem mulmodpResult_checks (a b p q : Nat) : ChecksOnly (mulmodpResult a b p q) :=
  checksOnly_check (by decide) (checksOnly_check (by decide) (checksOnly_check (by decide) (checksOnly_ok _)))

theorem bredResult_checks (v b q : Nat) : ChecksOnly (bredResult v b q) := checksOnly_check (by decide) (checksOnly_ok _)

theorem reduceResult_checks (mf : FactorSel) (v q : Nat) : ChecksOnly (reduceResult mf v q) :=
  checksOnly_withSelect (by decide) fun _ => checksOnly_check (by decide) (checksOnly_ok _)

theorem addmodResult_checks (a b q : Nat) : ChecksOnly (addmodResult a b q) :=
  checksOnly_check (by decide) (checksOnly_check (by decide) (checksOnly_check (by decide) (checksOnly_ok _)))

theorem submodResult_checks (a b q : Nat) : ChecksOnly (submodResult a b q) :=
  checksOnly_check (by decide) (checksOnly_check (by decide) (checksOnly_check (by decide) (checksOnly_ok _)))

theorem powmodResult_checks (a e q : Nat) : ChecksOnly (powmodResult a e q) := checksOnly_check (by decide) (checksOnly_ok _)

theorem invmodResult_checks (a q : Nat) : ChecksOnly (invmodResult a q) :=
  checksOnly_check (by decide) (checksOnly_check (by decide) (checksOnly_check (by decide) (checksOnly_ok _)))

theorem bitrevResult_checks (v k : Nat) : ChecksOnly (bitrevResult v k) :=
  checksOnly_check (by decide) (checksOnly_check (by decide) (checksOnly_ok _))

theorem tbuildResult_checks (g n q : Nat) (s : State) : ChecksOnly (tbuildResult g n q s) :=
  checksOnly_check (by decide) (checksOnly_checkDegree (checksOnly_check (by decide) (checksOnly_check (by decide)
    (checksOnly_check (by decide) (checksOnly_check (by decide) (checksOnly_ok _))))))

theorem resolvePath_checks (params : Config.Params) (ctrl : Ctrl) (dir : Direction) (mode : Option NttPath) (q : Nat) :
    ChecksOnly (resolvePath params ctrl dir mode q) := by
  cases mode with
  | none => exact checksOnly_check (by decide) (checksOnly_ok _)
  | some p =>
    exact checksOnly_check (by decide) (checksOnly_check (by decide) (checksOnly_check (by decide) (checksOnly_ok _)))

theorem nttValidate_checks (s : State) (dir : Direction) (m : ModeSel) : ChecksOnly (s.nttValidate dir m) := by
  refine checksOnly_withSelect (by decide) fun mode => checksOnly_check (by decide) (checksOnly_checkDegree ?_)
  cases h : resolvePath s.params s.operands.ctrl dir mode s.q with
  | error d => exact fun e he => by cases he; exact resolvePath_checks _ _ _ _ _ d h
  | ok path =>
    exact checksOnly_check (by decide) (checksOnly_check (by decide) (checksOnly_check (by decide) (checksOnly_ok _)))

/-! ## What has been checked where a rule goes on -/

theorem checkDegree_eq_ok {α : Type} {n m : Nat} {rest : Except Detail α} {a : α} :
    checkDegree n m rest = .ok a ↔ (n = 2 ^ n.log2 ∧ 2 ≤ n ∧ n ≤ m) ∧ rest = .ok a := by
  unfold checkDegree
  rw [check_eq_ok, check_eq_ok, powerOfTwo_iff]
  tauto

/-- What RESOLVE_PATH has checked of the path it answers (44_dispatch.md R204, R206). -/
theorem resolvePath_bound {params : Config.Params} {ctrl : Ctrl} {dir : Direction} {mode : Option NttPath} {q : Nat} {p : NttPath}
    (h : resolvePath params ctrl dir mode q = .ok p) :
    q < 2 ^ 62 ∧ (p = .narrow52 → q < 2 ^ 50) ∧ (dir = .inv → p ≠ .narrow52) := by
  cases mode with
  | none =>
    obtain ⟨h1, h2⟩ := check_eq_ok.mp h
    cases h2
    refine ⟨h1, ?_, ?_⟩
    · intro e
      unfold autoPath at e
      split at e
      · rename_i hc
        exact hc.2.2
      · split at e <;> cases e
    · rintro rfl e
      unfold autoPath at e
      simp only [reduceCtorEq, false_and, if_false] at e
      split at e <;> cases e
  | some p' =>
    obtain ⟨h1, h⟩ := check_eq_ok.mp h
    obtain ⟨-, h⟩ := check_eq_ok.mp h
    obtain ⟨h2, h⟩ := check_eq_ok.mp h
    cases h
    refine ⟨?_, ?_, ?_⟩
    · cases p <;> simp [pathBound, Config.fullModBound, Config.narrowModBound] at h2 <;> omega
    · rintro rfl
      simpa [pathBound, Config.narrowModBound] using h2
    · rintro rfl e
      exact h1 ⟨rfl, e⟩

/-- What NTT_VALIDATE has checked where a transform goes on (43_ntt.md R170). -/
structure Validated (s : State) (dir : Direction) (m : ModeSel) (p : NttPath) : Prop where
  path : ∃ mode, requestedPath m = some mode ∧ resolvePath s.params s.operands.ctrl dir mode s.q = .ok p
  degreePow : s.n = 2 ^ s.n.log2
  degreeMin : 2 ≤ s.n
  degreeMax : s.n ≤ s.nMax
  bound : s.q < 2 ^ 62
  narrow : p = .narrow52 → s.q < 2 ^ 50
  friendly : s.q % (2 * s.n) = 1
  valid : s.status.tblValid = true
  tblN : s.tblN.toNat = s.n
  tblQ : s.tblQ.toNat = s.q
  elements : ∀ w ∈ s.loadArray .buf s.n, w.toNat < s.q

theorem nttValidate_ok {s : State} {dir : Direction} {m : ModeSel} {p : NttPath} (h : s.nttValidate dir m = .ok p) :
    Validated s dir m p := by
  obtain ⟨mode, hm, h⟩ := withSelect_eq_ok.mp h
  obtain ⟨-, h⟩ := check_eq_ok.mp h
  obtain ⟨⟨h1, h2, h3⟩, h⟩ := checkDegree_eq_ok.mp h
  cases hr : resolvePath s.params s.operands.ctrl dir mode s.q with
  | error d => simp [hr] at h
  | ok path =>
    rw [hr] at h
    obtain ⟨h4, h⟩ := check_eq_ok.mp h
    obtain ⟨⟨h5, h6, h7⟩, h⟩ := check_eq_ok.mp h
    obtain ⟨h8, h⟩ := check_eq_ok.mp h
    cases h
    obtain ⟨h9, h10, -⟩ := resolvePath_bound hr
    exact ⟨⟨mode, hm, hr⟩, h1, h2, h3, h9, h10, h4, h5, h6, h7, by simpa using h8⟩

/-- The primitive-root test as powers (42_bitrev_table.md R158). -/
theorem isPrimitive2n_iff (g n q : Nat) : isPrimitive2n g n q = true ↔ g ^ (2 * n) % q = 1 ∧ g ^ n % q ≠ 1 := by
  simp [isPrimitive2n, powMod_eq]

theorem tbuildResult_ok {g n q : Nat} {s t : State} (h : tbuildResult g n q s = .ok t) :
    RootAccepted n q g ∧ n ≤ s.nMax ∧ t = s.buildTables n q g := by
  obtain ⟨-, h⟩ := check_eq_ok.mp h
  obtain ⟨⟨h1, h2, h3⟩, h⟩ := checkDegree_eq_ok.mp h
  obtain ⟨h4, h⟩ := check_eq_ok.mp h
  obtain ⟨h5, h⟩ := check_eq_ok.mp h
  obtain ⟨h6, h⟩ := check_eq_ok.mp h
  obtain ⟨h7, h⟩ := check_eq_ok.mp h
  rw [isPrimitive2n_iff] at h7
  cases h
  exact ⟨⟨h1, h2, h4, h5, h6, h7.1, h7.2⟩, h3, rfl⟩

/-! ## exec -/

theorem completeScalar_inv (s : State) (rd : Reg) {r : Except Detail Nat} (hr : ChecksOnly r) :
    (∃ d, RaisedByCheck d ∧ s.completeScalar rd r = .next (s.raise d)) ∨
      (∃ v, s.completeScalar rd r = .next (s.writeX rd v).succeed) := by
  cases r with
  | error d => exact .inl ⟨d, hr d rfl, rfl⟩
  | ok v => exact .inr ⟨_, rfl⟩

/-- All exec can do: a check's error, a scalar's result, the reversed buffer, the tables, or the end of a transform. -/
theorem exec_cases (i : Instr) (s : State) :
    (∃ d, RaisedByCheck d ∧ exec i s = .next (s.raise d)) ∨
      (∃ rd v, destination i = some rd ∧ exec i s = .next (s.writeX rd v).succeed) ∨
      (i = .brevbuf ∧ (s.n = 2 ^ s.n.log2 ∧ 2 ≤ s.n ∧ s.n ≤ s.nMax) ∧
        exec i s = .next (s.storeArray .buf (bitReversed (s.loadArray .buf s.n))).succeed) ∨
      (∃ r, i = .tbuild r ∧ RootAccepted s.n s.q (s.src r) ∧ s.n ≤ s.nMax ∧
        exec i s = .next (s.buildTables s.n s.q (s.src r)).succeed) ∨
      (∃ m p, i = .fntt m ∧ Validated s .fwd m p ∧ exec i s = s.finishTransform p (s.forwardOutput p)) ∨
      (∃ m p, i = .intt m ∧ Validated s .inv m p ∧ exec i s = s.finishTransform p (s.inverseOutput p)) := by
  have scalar : ∀ (rd : Reg) (r : Except Detail Nat), destination i = some rd → exec i s = s.completeScalar rd r →
      ChecksOnly r → (∃ d, RaisedByCheck d ∧ exec i s = .next (s.raise d)) ∨
        (∃ rd v, destination i = some rd ∧ exec i s = .next (s.writeX rd v).succeed) := by
    intro rd r hd he hr
    rw [he]
    rcases completeScalar_inv s rd hr with h | ⟨v, h⟩
    · exact .inl h
    · exact .inr ⟨rd, v, hd, h⟩
  cases i with
  | mfact rd rs1 bs => exact (scalar _ _ rfl rfl (mfactResult_checks _ _ _)).imp_right .inl
  | mullazy rd rs1 rs2 rs3 bs => exact (scalar _ _ rfl rfl (mullazyResult_checks _ _ _ _ _)).imp_right .inl
  | mulmod rd rs1 rs2 => exact (scalar _ _ rfl rfl (mulmodResult_checks _ _ _)).imp_right .inl
  | mulmodp rd rs1 rs2 rs3 => exact (scalar _ _ rfl rfl (mulmodpResult_checks _ _ _ _)).imp_right .inl
  | bred rd rs1 rs2 => exact (scalar _ _ rfl rfl (bredResult_checks _ _ _)).imp_right .inl
  | reduce rd rs1 mf => exact (scalar _ _ rfl rfl (reduceResult_checks _ _ _)).imp_right .inl
  | addmod rd rs1 rs2 => exact (scalar _ _ rfl rfl (addmodResult_checks _ _ _)).imp_right .inl
  | submod rd rs1 rs2 => exact (scalar _ _ rfl rfl (submodResult_checks _ _ _)).imp_right .inl
  | powmod rd rs1 rs2 => exact (scalar _ _ rfl rfl (powmodResult_checks _ _ _)).imp_right .inl
  | invmod rd rs1 => exact (scalar _ _ rfl rfl (invmodResult_checks _ _)).imp_right .inl
  | bitrev rd rs1 rs2 => exact (scalar _ _ rfl rfl (bitrevResult_checks _ _)).imp_right .inl
  | brevbuf =>
    cases h : checkDegree s.n s.nMax (.ok (s.storeArray .buf (bitReversed (s.loadArray .buf s.n)))) with
    | error d => exact .inl ⟨d, checksOnly_checkDegree (checksOnly_ok _) d h, by simp only [exec, execBrevbuf, h, complete_error]⟩
    | ok t =>
      obtain ⟨hc, ht⟩ := checkDegree_eq_ok.mp h
      cases ht
      exact .inr (.inr (.inl ⟨rfl, hc, by simp only [exec, execBrevbuf, h, complete_ok]⟩))
  | tbuild r =>
    cases h : tbuildResult (s.src r) s.n s.q s with
    | error d => exact .inl ⟨d, tbuildResult_checks _ _ _ _ d h, by simp only [exec, execTbuild, h, complete_error]⟩
    | ok t =>
      obtain ⟨h1, h2, rfl⟩ := tbuildResult_ok h
      exact .inr (.inr (.inr (.inl ⟨r, rfl, h1, h2, by simp only [exec, execTbuild, h, complete_ok]⟩)))
  | fntt m =>
    cases h : s.nttValidate .fwd m with
    | error d => exact .inl ⟨d, nttValidate_checks _ _ _ d h, by simp only [exec, execFntt, h]⟩
    | ok p =>
      exact .inr (.inr (.inr (.inr (.inl ⟨m, p, rfl, nttValidate_ok h, by simp only [exec, execFntt, h]⟩))))
  | intt m =>
    cases h : s.nttValidate .inv m with
    | error d => exact .inl ⟨d, nttValidate_checks _ _ _ d h, by simp only [exec, execIntt, h]⟩
    | ok p =>
      exact .inr (.inr (.inr (.inr (.inr ⟨m, p, rfl, nttValidate_ok h, by simp only [exec, execIntt, h]⟩))))

end Sys2Proof.Machine
end

