-- ==== Sys2Proof/Laws/PerInstr.lean ====
section
/-! SUPPORT. What is said of every command as syntax, one lemma a constructor: the encoding of a well-formed command keeps bits
[63:27] of the CMD value zero (30_encoding.md R97). -/

namespace Sys2Proof.Laws

/-- The words of well-formed commands have no reserved bit. -/
def ReservedBitsZero.Statement (i : Instr) : Prop := i.wellFormed = true → (encode i).toNat < 2 ^ 27

theorem commandWord_lt {opc rd rs1 rs2 rs3 sel : Nat} (ho : opc < 2 ^ 8) (hd : rd < 16) (h1 : rs1 < 16) (h2 : rs2 < 16)
    (h3 : rs3 < 16) (hs : sel < 8) : (commandWord opc rd rs1 rs2 rs3 sel).toNat < 2 ^ 27 := by
  simp only [commandWord, BitVec.toNat_ofNat]
  omega

theorem shiftSel_lt {bs : ShiftSel} (h : bs.wellFormed = true) : bs.toNat < 8 := by
  cases bs <;> simp_all [ShiftSel.wellFormed, ShiftSel.toNat]

theorem factorSel_lt {mf : FactorSel} (h : mf.wellFormed = true) : mf.toNat < 8 := by
  cases mf <;> simp_all [FactorSel.wellFormed, FactorSel.toNat]

theorem modeSel_lt {m : ModeSel} (h : m.wellFormed = true) : m.toNat < 8 := by
  cases m <;> simp_all [ModeSel.wellFormed, ModeSel.toNat]

theorem ReservedBitsZero.mfact (rd rs1 : Reg) (bs : ShiftSel) : ReservedBitsZero.Statement (.mfact rd rs1 bs) := fun h =>
  commandWord_lt (by decide) rd.isLt rs1.isLt (by decide) (by decide) (shiftSel_lt h)

theorem ReservedBitsZero.mullazy (rd rs1 rs2 rs3 : Reg) (bs : ShiftSel) :
    ReservedBitsZero.Statement (.mullazy rd rs1 rs2 rs3 bs) := fun h =>
  commandWord_lt (by decide) rd.isLt rs1.isLt rs2.isLt rs3.isLt (shiftSel_lt h)

theorem ReservedBitsZero.mulmod (rd rs1 rs2 : Reg) : ReservedBitsZero.Statement (.mulmod rd rs1 rs2) := fun _ =>
  commandWord_lt (by decide) rd.isLt rs1.isLt rs2.isLt (by decide) (by decide)

theorem ReservedBitsZero.mulmodp (rd rs1 rs2 rs3 : Reg) : ReservedBitsZero.Statement (.mulmodp rd rs1 rs2 rs3) := fun _ =>
  commandWord_lt (by decide) rd.isLt rs1.isLt rs2.isLt rs3.isLt (by decide)

theorem ReservedBitsZero.bred (rd rs1 rs2 : Reg) : ReservedBitsZero.Statement (.bred rd rs1 rs2) := fun _ =>
  commandWord_lt (by decide) rd.isLt rs1.isLt rs2.isLt (by decide) (by decide)

theorem ReservedBitsZero.reduce (rd rs1 : Reg) (mf : FactorSel) : ReservedBitsZero.Statement (.reduce rd rs1 mf) := fun h =>
  commandWord_lt (by decide) rd.isLt rs1.isLt (by decide) (by decide) (factorSel_lt h)

theorem ReservedBitsZero.addmod (rd rs1 rs2 : Reg) : ReservedBitsZero.Statement (.addmod rd rs1 rs2) := fun _ =>
  commandWord_lt (by decide) rd.isLt rs1.isLt rs2.isLt (by decide) (by decide)

theorem ReservedBitsZero.submod (rd rs1 rs2 : Reg) : ReservedBitsZero.Statement (.submod rd rs1 rs2) := fun _ =>
  commandWord_lt (by decide) rd.isLt rs1.isLt rs2.isLt (by decide) (by decide)

theorem ReservedBitsZero.powmod (rd rs1 rs2 : Reg) : ReservedBitsZero.Statement (.powmod rd rs1 rs2) := fun _ =>
  commandWord_lt (by decide) rd.isLt rs1.isLt rs2.isLt (by decide) (by decide)

theorem ReservedBitsZero.invmod (rd rs1 : Reg) : ReservedBitsZero.Statement (.invmod rd rs1) := fun _ =>
  commandWord_lt (by decide) rd.isLt rs1.isLt (by decide) (by decide) (by decide)

theorem ReservedBitsZero.bitrev (rd rs1 rs2 : Reg) : ReservedBitsZero.Statement (.bitrev rd rs1 rs2) := fun _ =>
  commandWord_lt (by decide) rd.isLt rs1.isLt rs2.isLt (by decide) (by decide)

theorem ReservedBitsZero.brevbuf : ReservedBitsZero.Statement .brevbuf := fun _ => by decide

theorem ReservedBitsZero.tbuild (rs1 : Reg) : ReservedBitsZero.Statement (.tbuild rs1) := fun _ =>
  commandWord_lt (by decide) (by decide) rs1.isLt (by decide) (by decide) (by decide)

theorem ReservedBitsZero.fntt (mode : ModeSel) : ReservedBitsZero.Statement (.fntt mode) := fun h =>
  commandWord_lt (by decide) (by decide) (by decide) (by decide) (by decide) (modeSel_lt h)

theorem ReservedBitsZero.intt (mode : ModeSel) : ReservedBitsZero.Statement (.intt mode) := fun h =>
  commandWord_lt (by decide) (by decide) (by decide) (by decide) (by decide) (modeSel_lt h)

end Sys2Proof.Laws
end

