-- ==== Sys2Proof/Laws/Table.lean ====
section
/-! SUPPORT. What TBUILD's update leaves in each column of the tables, and what it leaves alone. -/

namespace Sys2Proof.Machine

variable (s : State) {n : Nat} (q g : Nat)

@[simp] theorem fwdPowers_length : (fwdPowers n q g).length = n := by simp [fwdPowers]
@[simp] theorem invPowers_length : (invPowers n q g).length = n := by simp [invPowers]
@[simp] theorem companions_length (k : Nat) (ws : List Nat) : (companions k q ws).length = ws.length := by simp [companions]
@[simp] theorem toWords_length (vs : List Nat) : (toWords vs).length = vs.length := by simp [toWords]

/-- The update is five stores, column by column. -/
theorem storeTables_eq : s.storeTables n q g =
    ((((s.storeArray .fwdPow (toWords (fwdPowers n q g))).storeArray .fwdPre64 (toWords (companions 64 q (fwdPowers n q g)))).storeArray
      .fwdPre52 (toWords (companions 52 q (fwdPowers n q g)))).storeArray .invPow (toWords (invPowers n q g))).storeArray
      .invPre64 (toWords (companions 64 q (invPowers n q g))) := by
  simp only [State.storeTables, State.storeArray, setMem_mem, setMem_setMem]

/-- Bytes outside the first n words of the five tables read as before (20_memory.md R61, 42_bitrev_table.md R152). -/
theorem readByte_storeTables_outside {a : Nat} (hn : n ≤ 2 ^ 20)
    (h : a < 0x02000000 ∨ 0x07000000 ≤ a ∨ 8 * n ≤ a % 0x01000000) : (s.storeTables n q g).readByte a = s.readByte a := by
  have out : ∀ (arr : ArrayId) (ws : List Word) (u : State), ws.length = n → arr ≠ .buf →
      (u.storeArray arr ws).readByte a = u.readByte a := by
    intro arr ws u hl hb
    apply readByte_storeArray_outside
    rw [hl]
    cases arr with
    | buf => exact absurd rfl hb
    | fwdPow => simp only [ArrayId.base]; omega
    | fwdPre64 => simp only [ArrayId.base]; omega
    | fwdPre52 => simp only [ArrayId.base]; omega
    | invPow => simp only [ArrayId.base]; omega
    | invPre64 => simp only [ArrayId.base]; omega
  simp only [storeTables_eq]
  rw [out, out, out, out, out] <;> simp

/-- The columns after the update (R153-R156). -/
theorem readArray_storeTables (hn : n ≤ 2 ^ 20) {k : Nat} (hk : k < n) :
    (s.storeTables n q g).readArray .fwdPow k = (toWords (fwdPowers n q g))[k]'(by simpa using hk) ∧
      (s.storeTables n q g).readArray .fwdPre64 k = (toWords (companions 64 q (fwdPowers n q g)))[k]'(by simpa using hk) ∧
      (s.storeTables n q g).readArray .fwdPre52 k = (toWords (companions 52 q (fwdPowers n q g)))[k]'(by simpa using hk) ∧
      (s.storeTables n q g).readArray .invPow k = (toWords (invPowers n q g))[k]'(by simpa using hk) ∧
      (s.storeTables n q g).readArray .invPre64 k = (toWords (companions 64 q (invPowers n q g)))[k]'(by simpa using hk) := by
  have hk' : k < 2 ^ 21 := by omega
  have hn' : n ≤ 2 ^ 21 := by omega
  simp only [storeTables_eq]
  refine ⟨?_, ?_, ?_, ?_, ?_⟩
  · iterate 4 rw [readArray_storeArray_other _ (by decide) (by simpa using hn') hk']
    rw [readArray_storeArray_same]
  · iterate 3 rw [readArray_storeArray_other _ (by decide) (by simpa using hn') hk']
    rw [readArray_storeArray_same]
  · iterate 2 rw [readArray_storeArray_other _ (by decide) (by simpa using hn') hk']
    rw [readArray_storeArray_same]
  · rw [readArray_storeArray_other _ (by decide) (by simpa using hn') hk', readArray_storeArray_same]
  · rw [readArray_storeArray_same]

end Sys2Proof.Machine
end

