-- ==== Sys2Proof/Tests/Slice0.lean ====
section
/-! SUPPORT. Tests: the checks of WellFormed, command words written out from the spec's encoding, one or two steps a command with the
spec's own vectors (95_test_vectors.md), and a state that meets the hypotheses of each statement. -/

namespace Sys2Proof.Tests

open Sys2Proof.Machine

/-! ## Helpers -/

/-- Operand registers set. -/
def withX (s : State) (l : List (Reg × Nat)) : State := l.foldl (fun s p => s.writeX p.1 (BitVec.ofNat 64 p.2)) s

/-- The reset state with a modulus and operands. -/
def scalar (q : Nat) (l : List (Reg × Nat)) : State := withX { State.reset with modulus := BitVec.ofNat 64 q } l

/-- The reset state with a modulus, a degree, and a buffer. -/
def ring (q n : Nat) (buf : List Nat) : State :=
  State.storeArray { State.reset with modulus := BitVec.ofNat 64 q, degree := BitVec.ofNat 64 n } .buf (toWords buf)

/-- The same with tables built for it. -/
def built (q n g : Nat) (buf : List Nat) : State := (ring q n buf).buildTables n q g

/-- Both wide and narrow paths enabled. -/
def enabled (s : State) : State := { s with ctrl := { enWide64 := true, enNarrow52 := true } }

/-- One step of the command word w on s. -/
def ran (s : State) (w : Nat) : State :=
  match step (s.withFetchWord 32 w) with
  | .next t => t
  | .fault _ => s
  | .refused _ => s

/-- Register and STATUS after a scalar command. -/
def result (q : Nat) (l : List (Reg × Nat)) (w : Nat) (rd : Reg) : Nat × Nat :=
  let t := ran (scalar q l) w
  ((t.x[rd]).toNat, t.statusWord.toNat)

/-- BUF[0 .. n-1] and STATUS after a command. -/
def bufAfter (s : State) (w n : Nat) : List Nat × Nat :=
  let t := ran s w
  ((t.loadArray .buf n).map BitVec.toNat, t.statusWord.toNat)

/-- The first words of an array. -/
def words (s : State) (arr : ArrayId) (n : Nat) : List Nat := (s.loadArray arr n).map BitVec.toNat

/-! ## WellFormed refuses what it should -/

theorem test_wf_shift_low : (Instr.mfact 0 0 (.sel 2)).wellFormed = false := by decide
theorem test_wf_shift_high : (Instr.mullazy 0 0 0 0 (.sel 8)).wellFormed = false := by decide
theorem test_wf_factor_low : (Instr.reduce 0 0 (.sel 3)).wellFormed = false := by decide
theorem test_wf_factor_high : (Instr.reduce 0 0 (.sel 8)).wellFormed = false := by decide
theorem test_wf_mode_low : (Instr.fntt (.sel 4)).wellFormed = false := by decide
theorem test_wf_mode_high : (Instr.intt (.sel 8)).wellFormed = false := by decide

/-! ## Words written out from 30_encoding.md R90, R91, R96: RRRRR SSS cccc bbbb aaaa dddd oooooooo -/

theorem test_decode_mfact : decodeCommand 0b00000_001_0000_0000_0001_0010_00000001 = .ok (.mfact 2 1 .s52) := rfl
theorem test_decode_mullazy : decodeCommand 0b00000_001_0100_0010_0001_0011_00000010 = .ok (.mullazy 3 1 2 4 .s52) := rfl
theorem test_decode_mulmod : decodeCommand 0b00000_000_0000_0010_0001_0011_00000011 = .ok (.mulmod 3 1 2) := rfl
theorem test_decode_mulmodp : decodeCommand 0b00000_000_0100_0010_0001_0011_00000100 = .ok (.mulmodp 3 1 2 4) := rfl
theorem test_decode_bred : decodeCommand 0b00000_000_0000_0010_0001_0011_00000101 = .ok (.bred 3 1 2) := rfl
theorem test_decode_reduce : decodeCommand 0b00000_010_0000_0000_0001_0011_00000110 = .ok (.reduce 3 1 .f4) := rfl
theorem test_decode_addmod : decodeCommand 0b00000_000_0000_0010_0001_0011_00010000 = .ok (.addmod 3 1 2) := rfl
theorem test_decode_submod : decodeCommand 0b00000_000_0000_0010_0001_0011_00010001 = .ok (.submod 3 1 2) := rfl
theorem test_decode_powmod : decodeCommand 0b00000_000_0000_0010_0001_0011_00010010 = .ok (.powmod 3 1 2) := rfl
theorem test_decode_invmod : decodeCommand 0b00000_000_0000_0000_0001_0011_00010011 = .ok (.invmod 3 1) := rfl
theorem test_decode_bitrev : decodeCommand 0b00000_000_0000_0010_0001_0011_00100000 = .ok (.bitrev 3 1 2) := rfl
theorem test_decode_brevbuf : decodeCommand 0b00000_000_0000_0000_0000_0000_00100001 = .ok .brevbuf := rfl
theorem test_decode_tbuild : decodeCommand 0b00000_000_0000_0000_0101_0000_00110000 = .ok (.tbuild 5) := rfl
theorem test_decode_fntt : decodeCommand 0b00000_011_0000_0000_0000_0000_01000000 = .ok (.fntt .narrow52) := rfl
theorem test_decode_intt : decodeCommand 0b00000_100_0000_0000_0000_0000_01000001 = .ok (.intt .reference) := rfl

/-- Selects that no table names decode (R98), each in its own table. -/
theorem test_decode_select : decodeCommand 0x03001201 = .ok (.mfact 2 1 (.sel 3)) ∧
    decodeCommand 0x04001306 = .ok (.reduce 3 1 (.sel 4)) ∧ decodeCommand 0x05000040 = .ok (.fntt (.sel 5)) := ⟨rfl, rfl, rfl⟩

/-- The decode-error vectors of 95_test_vectors.md. -/
theorem test_decode_errors : decodeCommand 0 = .error .illegalOpcode ∧ decodeCommand 0x08000010 = .error .reservedBits ∧
    decodeCommand 0x100000010 = .error .reservedBits ∧ decodeCommand 0x080000FF = .error .reservedBits ∧
    decodeCommand 0xFF = .error .illegalOpcode ∧ decodeCommand 0x00432110 = .error .unusedField ∧
    decodeCommand 0x140 = .error .unusedField ∧ decodeCommand 0x5130 = .error .unusedField ∧
    decodeCommand 0x00031201 = .error .unusedField ∧ decodeCommand 0x01000021 = .error .unusedField :=
  ⟨rfl, rfl, rfl, rfl, rfl, rfl, rfl, rfl, rfl, rfl⟩

theorem test_host_decode : decodeTableWord 32 0x01001201 = some (.mfact 2 1 .s52) ∧ decodeTableWord 32 0 = none := by decide

theorem test_host_fetch : step ((scalar 17 []).withFetchWord 32 0x21) = exec .brevbuf ((scalar 17 []).withFetchWord 32 0x21) := rfl

/-! ## Commands: vectors of 95_test_vectors.md and the examples of the rules -/

theorem test_mfact_52 : result 17 [(1, 5)] 0x01001201 2 = (0x4B4B4B4B4B4B4, 2) := by decide
theorem test_mfact_equal : result 17 [(1, 17), (2, 9)] 0x00001201 2 = (0, 2) := by decide
theorem test_mullazy_upper_half : result 17 [(1, 17), (2, 1), (4, 0x0F0F0F0F0F0F0F0F)] 0x00421302 3 = (17, 2) := by decide
theorem test_mullazy_wraps :
    result (2 ^ 64 - 59) [(1, 0x3BBDF0522B62E5DC), (2, 0x1AFF8663AF585BE5), (4, 0x1AFF8663AF585BEB)] 0x00421302 3 =
      (0x0AAB2226AA9D503B, 2) := by decide
theorem test_mulmod : result (2 ^ 64 - 59) [(1, 2 ^ 64 - 60), (2, 2 ^ 64 - 60)] 0x00021303 3 = (1, 2) := by decide
theorem test_mulmod_range : result 17 [(1, 12), (2, 17)] 0x00021303 3 = (0, 0x90006) := by decide
theorem test_mulmodp : result 17 [(1, 16), (2, 16), (4, 0xF0F0F0F0F0F0F0F0)] 0x00421304 3 = (1, 2) := by decide
theorem test_bred : result 17 [(1, 100), (2, 0x0F0F0F0F0F0F0F0F)] 0x00021305 3 = (15, 2) := by decide
theorem test_reduce_8 : result 17 [(1, 135)] 0x03001306 3 = (16, 2) := by decide
theorem test_reduce_outside : result 17 [(1, 136)] 0x03001306 3 = (17, 2) := by decide
theorem test_addmod_carry : result (2 ^ 64 - 59) [(1, 2 ^ 64 - 60), (2, 2 ^ 64 - 61)] 0x00021310 3 = (2 ^ 64 - 62, 2) := by decide
theorem test_addmod_same_register : result 17 [(1, 9)] 0x00011110 1 = (1, 2) := by decide
theorem test_submod : result 17 [(1, 3), (2, 12)] 0x00021311 3 = (8, 2) := by decide
theorem test_powmod : result 17 [(1, 3), (2, 2 ^ 64 - 1)] 0x00021312 3 = (6, 2) := by decide +kernel
theorem test_powmod_zero : result 17 [] 0x00021312 3 = (1, 2) := by decide
theorem test_invmod : result 17 [(1, 20)] 0x00001313 3 = (6, 2) := by decide
theorem test_invmod_domain : result 15 [(1, 6), (3, 7)] 0x00001313 3 = (7, 0x17000A) := by decide
theorem test_bitrev : result 0 [(1, 0x1234), (2, 16)] 0x00021320 3 = (0x2C48, 2) := by decide
theorem test_bitrev_64 : result 0 [(1, 1), (2, 64)] 0x00021320 3 = (2 ^ 63, 2) := by decide

theorem test_brevbuf :
    bufAfter (ring 0 8 [10, 11, 12, 13, 14, 15, 16, 17]) 0x21 8 = ([10, 14, 12, 16, 11, 15, 13, 17], 2) := by decide +kernel

theorem test_tbuild : words (ran (withX (ring 17 8 []) [(1, 3)]) 0x1030) .fwdPow 8 = [1, 13, 9, 15, 3, 5, 10, 11] ∧
    words (ran (withX (ring 17 8 []) [(1, 3)]) 0x1030) .invPow 8 = [1, 4, 2, 8, 6, 7, 12, 14] := by decide +kernel

theorem test_fntt_narrow :
    bufAfter (enabled (built 17 8 3 [1, 2, 3, 4, 5, 6, 7, 8])) 0x40 8 = ([5, 0, 13, 8, 9, 11, 5, 8], 0x382) := by decide +kernel

theorem test_fntt_reference :
    bufAfter (built 17 8 3 [1, 2, 3, 4, 5, 6, 7, 8]) 0x04000040 8 = ([5, 0, 13, 8, 9, 11, 5, 8], 0x482) := by decide +kernel

theorem test_intt_wide : bufAfter (enabled (built 17 8 3 [5, 0, 13, 8, 9, 11, 5, 8])) 0x41 8 = ([1, 2, 3, 4, 5, 6, 7, 8], 0x282) := by
  decide +kernel

theorem test_intt_scalar : bufAfter (built 17 8 3 [1, 2, 3, 4, 5, 6, 7, 8]) 0x41 8 = ([13, 10, 12, 15, 9, 15, 12, 10], 0x182) := by
  decide +kernel

/-! ## A state that meets the hypotheses of each statement, clause by clause at the ends of its ranges -/

/-- MULMOD X3, X1, X2 accepted and pending. -/
def busyState : State := (scalar 17 [(1, 12), (2, 5)]).issue (.mulmod 3 1 2)

/-- MULMOD pending with modulus 0. -/
def failingState : State := (scalar 0 []).issue (.mulmod 3 1 2)

/-- FNTT pending over a table entry that no TBUILD leaves: the postcondition fails. -/
def brokenState : State :=
  State.issue (((built 5 2 2 [0, 1]).storeArray .fwdPow [1, 0x8000000000000000]).storeArray .fwdPre64 [0, 0]) (.fntt .auto)

/-- The block after the postcondition failed. -/
def fatalState : State :=
  match step brokenState with
  | .next t => t
  | .fault _ => brokenState
  | .refused _ => brokenState

/-- The block with reset asserted. -/
def resetState : State := { busyState with inReset := true }

/-- HAZARD set on an idle block. -/
def hazardState : State := { State.reset with status := { State.reset.status with hazard := true } }

/-- What an outcome's state says, where there is one. -/
def holdsNext (o : Host.Outcome State Fault Refusal) (p : State → Bool) : Bool :=
  match o with
  | .next t => p t
  | .fault _ => false
  | .refused _ => false

/-- The response is data. -/
def readsOk (t : State) : Bool :=
  match t.response with
  | .readOk _ => true
  | .noAccess => false
  | .writeOk => false
  | .busError => false

theorem test_witness_decode_encode : (Instr.mfact 15 15 (.sel 7)).wellFormed = true ∧ (Instr.mfact 0 0 (.sel 3)).wellFormed = true ∧
    (Instr.reduce 0 15 (.sel 4)).wellFormed = true ∧ (Instr.fntt (.sel 5)).wellFormed = true ∧
    (Instr.intt (.sel 7)).wellFormed = true ∧ (Instr.tbuild 15).wellFormed = true := by decide

theorem test_witness_encode_decode : decodeCommand 0x07FFFF02 = .ok (.mullazy 15 15 15 15 (.sel 7)) ∧
    decodeCommand 0x00000001 = .ok (.mfact 0 0 .s64) := ⟨rfl, rfl⟩

theorem test_witness_illegal : (2 ^ 27 : Nat) ≤ (0x08000000#64).toNat ∧ (0x07FFFFFF#64).toNat < 2 ^ 27 ∧
    (0x00000021#64).toNat % 256 = 0x21 ∧ (0x00000121#64).toNat % 256 = 0x21 := by decide

theorem test_witness_step_runs : busyState.inReset = false ∧ busyState.pending = some { word := 0x00021303, snap := busyState.snapshot } ∧
    decodeCommand 0x00021303 = .ok (.mulmod 3 1 2) ∧ busyState.inputs = [] ∧
    ({ busyState with inputs := [.completion, .reset true] } : State).inputs = .completion :: [.reset true] :=
  ⟨rfl, rfl, rfl, rfl, rfl⟩

theorem test_witness_cmd_write : (busyState.inReset = false ∧ busyState.busy = true) ∧
    (fatalState.inReset = false ∧ fatalState.busy = false ∧ fatalState.status.fatal = true) ∧
    (State.reset.inReset = false ∧ State.reset.busy = false ∧ State.reset.status.fatal = false) := by decide +kernel

theorem test_witness_first_failure :
    firstFailure (ruleChecks (.mulmod 3 1 2) (scalar 17 [(1, 17), (2, 0)])) = some .operandGeMod ∧
    firstFailure (ruleChecks (.mulmod 3 1 2) (scalar 17 [(1, 16), (2, 16)])) = none ∧
    firstFailure (ruleChecks (.fntt .auto) brokenState) = none := by decide +kernel

theorem test_witness_errors : (failingState.inReset = false ∧ failingState.inputs = [] ∧ failingState.busy = true) ∧
    holdsNext (step failingState) (fun t => t.status.err = .invalidArgument) = true ∧
    (brokenState.inReset = false ∧ brokenState.inputs = [] ∧ brokenState.busy = true) ∧
    holdsNext (step brokenState) (fun t => t.status.err = .internal) = true := by decide +kernel

theorem test_witness_illegal_word : decodeCommand 0xFF = .error .illegalOpcode ∧ decodeCommand 0x140 = .error .unusedField ∧
    decodeCommand 0xFFFFFFFFFFFFFFFF = .error .reservedBits ∧
    (State.accept State.reset 0xFF).pending = some { word := 0xFF, snap := State.reset.snapshot } ∧
    (State.accept State.reset 0xFF).inReset = false ∧ (State.accept State.reset 0xFF).inputs = [] := ⟨rfl, rfl, rfl, rfl, rfl, rfl⟩

theorem test_witness_pending_completes : busyState.inReset = false ∧ busyState.busy = true ∧
    busyState.inWindow 0 = true ∧ busyState.inWindow 0x07FFFFFF = true := by decide

theorem test_witness_mfact : shiftWidth (.sel 3) = none ∧ shiftWidth (.sel 7) = none ∧ shiftWidth .s64 = some 64 ∧
    (scalar 0 []).q = 0 ∧ ((scalar 17 [(1, 18)]).q ≠ 0 ∧ (scalar 17 [(1, 18)]).q < (scalar 17 [(1, 18)]).src 1) ∧
    ((scalar 17 [(1, 17)]).q ≠ 0 ∧ (scalar 17 [(1, 17)]).src 1 ≤ (scalar 17 [(1, 17)]).q) := by decide

/-- The bounds at s = 52: the largest q and x that pass, and the smallest that fail. -/
theorem test_witness_mullazy : shiftWidth .s52 = some 52 ∧
    (let s := scalar 17 [(1, 0), (2, 17)]; s.q ≠ 0 ∧ s.q ≤ s.src 2) ∧
    (let s := scalar (2 ^ 52) [(1, 0), (2, 5)]; s.q ≠ 0 ∧ s.src 2 < s.q ∧ 2 ^ 52 - 1 < s.q) ∧
    (let s := scalar 17 [(1, 2 ^ 52), (2, 5)]; s.q ≠ 0 ∧ s.src 2 < s.q ∧ s.q ≤ 2 ^ 52 - 1 ∧ 2 ^ 52 - 1 < s.src 1) ∧
    (let s := scalar (2 ^ 52 - 1) [(1, 2 ^ 52 - 1), (2, 2 ^ 52 - 2)]; s.q ≠ 0 ∧ s.src 2 < s.q ∧ s.q ≤ 2 ^ 52 - 1 ∧ s.src 1 ≤ 2 ^ 52 - 1) := by decide

theorem test_witness_mullazy_range : shiftWidth .s64 = some 64 ∧
    (let s := scalar (2 ^ 63) [(1, 2 ^ 64 - 1), (2, 2 ^ 63 - 1), (4, 2 ^ 64 - 2)]; s.src 1 ≤ 2 ^ 64 - 1 ∧ s.src 2 < s.q ∧ s.q ≤ 2 ^ 64 - 1 ∧ s.src 4 = s.src 2 * 2 ^ 64 / s.q % 2 ^ 64 ∧ 2 * s.q ≤ 2 ^ 64) := by
  decide

theorem test_witness_mulmod : (let s := scalar 17 [(1, 17), (2, 0)]; s.q ≠ 0 ∧ s.q ≤ s.src 1) ∧
    (let s := scalar 17 [(1, 0), (2, 17)]; s.q ≠ 0 ∧ s.q ≤ s.src 2) ∧
    (let s := scalar 17 [(1, 16), (2, 16)]; s.src 1 < s.q ∧ s.src 2 < s.q) ∧ (scalar 0 []).q = 0 := by decide

theorem test_witness_mulmodp :
    let s := scalar (2 ^ 63) [(1, 2 ^ 63 - 1), (2, 2 ^ 63 - 1), (4, 2 ^ 64 - 2)]
    s.src 1 < s.q ∧ s.src 2 < s.q ∧ s.src 4 = s.src 2 * 2 ^ 64 / s.q ∧ s.q ≤ 2 ^ 63 := by decide

theorem test_witness_bred : (scalar 0 []).q = 0 ∧ (let s := scalar 2 [(1, 2 ^ 64 - 1), (2, 2 ^ 63)]; s.q ≠ 0 ∧ 2 ≤ s.q ∧ s.src 2 = 2 ^ 64 / s.q) ∧
    (let s := scalar (2 ^ 64 - 1) [(1, 2 ^ 64 - 1), (2, 1)]; 2 ≤ s.q ∧ s.src 2 = 2 ^ 64 / s.q) := by decide

theorem test_witness_reduce : inputFactor (.sel 4) = none ∧ inputFactor (.sel 7) = none ∧ inputFactor .f1 = some 1 ∧
    inputFactor .f2 = some 2 ∧ inputFactor .f4 = some 4 ∧ inputFactor .f8 = some 8 ∧ (scalar 0 []).q = 0 ∧
    (let s := scalar 17 [(1, 135)]; s.q ≠ 0 ∧ s.src 1 < 8 * s.q) ∧ (let s := scalar 17 [(1, 16)]; s.src 1 < 1 * s.q) := by decide

theorem test_witness_addmod_submod : (let s := scalar 17 [(1, 17), (2, 0)]; s.q ≠ 0 ∧ s.q ≤ s.src 1) ∧
    (let s := scalar (2 ^ 64 - 1) [(1, 2 ^ 64 - 2), (2, 2 ^ 64 - 2)]; s.src 1 < s.q ∧ s.src 2 < s.q) ∧
    (let s := scalar 1 []; s.src 1 < s.q ∧ s.src 2 < s.q) := by decide

theorem test_witness_powmod_invmod : (scalar 0 []).q = 0 ∧ (scalar 1 []).q ≠ 0 ∧
    (let s := scalar 17 [(1, 34)]; s.q ≠ 0 ∧ s.src 1 % s.q = 0) ∧ (let s := scalar 15 [(1, 6)]; s.q ≠ 0 ∧ Nat.gcd (s.src 1) s.q ≠ 1) ∧
    (let s := scalar 2 [(1, 2 ^ 64 - 1)]; s.q ≠ 0 ∧ s.src 1 % s.q ≠ 0 ∧ Nat.gcd (s.src 1) s.q = 1) := by decide +kernel

theorem test_witness_bitrev : (let s := scalar 0 [(1, 0), (2, 65)]; 64 < s.src 2) ∧
    (let s := scalar 0 [(1, 8), (2, 3)]; s.src 2 ≤ 64 ∧ 2 ^ s.src 2 ≤ s.src 1) ∧
    (let s := scalar 0 [(1, 2 ^ 64 - 1), (2, 64)]; s.src 2 ≤ 64 ∧ s.src 1 < 2 ^ s.src 2) ∧
    (let s := scalar 0 []; s.src 2 ≤ 64 ∧ s.src 1 < 2 ^ s.src 2) := by decide +kernel

theorem test_witness_brevbuf : isPowerOfTwo (ring 0 0 []).n = false ∧ isPowerOfTwo (ring 0 6 []).n = false ∧
    (isPowerOfTwo (ring 0 1 []).n = true ∧ (ring 0 1 []).n < 2) ∧
    (isPowerOfTwo (ring 0 2048 []).n = true ∧ 2 ^ State.reset.params.nMaxLog2 < (ring 0 2048 []).n) ∧
    (isPowerOfTwo (ring 0 2 []).n = true ∧ 2 ≤ (ring 0 2 []).n ∧ (ring 0 2 []).n ≤ 2 ^ State.reset.params.nMaxLog2) ∧
    (isPowerOfTwo (ring 0 1024 []).n = true ∧ (ring 0 1024 []).n ≤ 2 ^ State.reset.params.nMaxLog2) := by decide +kernel

theorem test_witness_tbuild : (ring 17 4 []).params.legal = true ∧
    firstFailure (ruleChecks (.tbuild 1) (withX (ring 17 4 []) [(1, 2)])) = none ∧
    firstFailure (ruleChecks (.tbuild 1) (withX (ring 5 2 []) [(1, 2)])) = none := by decide +kernel

/-- The root of TB-2 is accepted: degree 4, modulus 17, root 2. -/
theorem test_witness_root : RootAccepted 4 17 2 := by
  constructor <;> decide

/-- Built tables hold. -/
theorem test_witness_table_holds : (built 17 4 2 [1, 2, 3, 4]).TableHolds 4 17 2 := by
  constructor <;> decide +kernel

/-- Built tables agree with their metadata. -/
theorem test_witness_tables_agree : (built 17 4 2 [1, 2, 3, 4]).TablesAgree where
  none := by decide +kernel
  accepted := fun _ => test_witness_root
  capacity := by decide +kernel
  columns := fun _ => test_witness_table_holds

theorem test_witness_table_laws : Nat.Prime 17 ∧ RootAccepted 4 17 2 ∧ (built 17 4 2 [1, 2, 3, 4]).TableHolds 4 17 2 :=
  ⟨by norm_num, test_witness_root, test_witness_table_holds⟩

/-- A state whose word 0 of FWD_POW is 7, and one whose is 1, alike below the degree elsewhere. -/
theorem test_witness_sentinel :
    let s := built 17 4 2 [1, 2, 3, 4]
    let t := s.storeArray .fwdPow [7]
    s.n = t.n ∧ s.q = t.q ∧ isPowerOfTwo s.n = true ∧ 2 ≤ s.n ∧ s.readArray .fwdPow 0 ≠ t.readArray .fwdPow 0 ∧
      (∀ k < s.n, s.readArray .buf k = t.readArray .buf k) ∧
      (∀ arr, ∀ k < s.n, k ≠ 0 → s.readArray arr k = t.readArray arr k) := by
  intro s t
  have hn : s.n = 4 := by decide +kernel
  refine ⟨by decide +kernel, by decide +kernel, by decide +kernel, by decide +kernel, by decide +kernel, fun k hk => ?_, fun arr k hk h0 => ?_⟩
  · exact (readArray_storeArray_other s (by simp) (by simp) (by omega)).symm
  · by_cases h : arr = .fwdPow
    · subst h
      exact (readArray_storeArray_above s .fwdPow [7] (by simp; omega)).symm
    · exact (readArray_storeArray_other s h (by simp) (by omega)).symm

/-- A transform's hypotheses: the ring of TB-2 with every word 16, in each direction and mode that the reset CTRL admits. -/
theorem test_witness_transform :
    let s := built 17 4 2 [16, 16, 16, 16]
    s.params.legal = true ∧ s.inReset = false ∧ s.pending = none ∧ s.q = 17 ∧
      firstFailure (ruleChecks (.fntt .auto) s) = none ∧ firstFailure (ruleChecks (.fntt .reference) s) = none ∧
      firstFailure (ruleChecks (.intt .auto) s) = none ∧ firstFailure (ruleChecks (.intt .scalar) s) = none ∧
      firstFailure (pathChecks .inv .reference s) = none ∧ (requestedPath .reference).isSome = true ∧
      firstFailure (ruleChecks (.fntt .narrow52) (enabled s)) = none ∧
      firstFailure (ruleChecks (.intt .wide64) (enabled s)) = none := by decide +kernel

/-- The same state's tables agree. -/
theorem test_witness_transform_tables : (built 17 4 2 [16, 16, 16, 16]).TablesAgree where
  none := by decide +kernel
  accepted := fun _ => test_witness_root
  capacity := by decide +kernel
  columns := fun _ => by constructor <;> decide +kernel

theorem test_witness_prime : Nat.Prime (built 17 4 2 [16, 16, 16, 16]).q := by
  have h : (built 17 4 2 [16, 16, 16, 16]).q = 17 := by decide +kernel
  rw [h]
  norm_num

theorem test_witness_narrow_inverse : (ring 17 4 []).q ≠ 0 ∧ firstFailure (degreeChecks (ring 17 4 [])) = none := by decide +kernel

/-- Completions for LAST_PATH: a transform without error, one with, and a scalar command. -/
theorem test_witness_last_path :
    holdsNext (step ((built 17 4 2 [1, 2, 3, 4]).issue (.fntt .auto))) (fun t => t.status.err = .none) = true ∧
    holdsNext (step ((built 17 4 2 [1, 2, 3, 4]).issue (.intt .reference))) (fun t => t.status.err = .none) = true ∧
    holdsNext (step ((built 17 4 2 [17, 0, 0, 0]).issue (.fntt .auto))) (fun t => t.status.err = .invalidArgument) = true ∧
    holdsNext (step busyState) (fun t => t.status.err = .none) = true := by decide +kernel

theorem test_witness_frames : destination (.mulmod 3 1 2) = some 3 ∧ destination .brevbuf = none ∧ destination (.tbuild 1) = none ∧
    holdsNext (exec (.mulmod 3 1 2) busyState) (fun t => t.status.err = .none) = true ∧
    holdsNext (exec (.mulmod 3 1 2) failingState) (fun t => t.status.err = .invalidArgument) = true ∧
    holdsNext (exec .brevbuf (ring 17 4 [])) (fun t => t.status.err = .none) = true ∧
    holdsNext (exec (.tbuild 1) (withX (ring 17 4 []) [(1, 2)])) (fun t => t.status.err = .none) = true := by decide +kernel

/-- Idle and busy accesses at the first and the last offset of the window. -/
theorem test_witness_window : State.reset.inReset = false ∧ State.reset.busy = false ∧ State.reset.params.legal = true ∧
    busyState.inReset = false ∧ busyState.busy = true ∧ 0x07FFFFFF < 0x08000000 ∧ State.reset.params.nMaxLog2 < 32 ∧
    (1023 < 2 ^ State.reset.params.nMaxLog2) := by decide

/-- Reads: an array word's last offset, the first reserved one, an unaligned one; a write to each kind of place. -/
theorem test_witness_bus_errors :
    holdsNext (State.reset.hostRead 0x01001FF8 8) readsOk = true ∧
    holdsNext (State.reset.hostRead 0x01002000 8) (fun t => t.response == .busError) = true ∧
    holdsNext (State.reset.hostRead 0x4 8) (fun t => t.response == .busError) = true ∧
    holdsNext (State.reset.hostRead 0x178 4) (fun t => t.response == .busError) = true ∧
    holdsNext (State.reset.hostWrite 0x178 (bytesOfWord 1)) (fun t => t.response == .writeOk) = true ∧
    holdsNext (State.reset.hostWrite 0x180 (bytesOfWord 1)) (fun t => t.response == .busError) = true ∧
    holdsNext (State.reset.hostWrite 0x02000000 (bytesOfWord 1)) (fun t => t.response == .busError) = true ∧
    holdsNext (busyState.hostWrite 0x178 (bytesOfWord 1)) (fun t => t.status.hazard) = true ∧
    holdsNext (busyState.hostWrite 0x180 (bytesOfWord 1)) (fun t => !t.status.hazard) = true ∧
    holdsNext (fatalState.hostWrite 0x020 (bytesOfWord 0x21)) (fun t => t.response == .busError) = true := by decide +kernel

/-- Writes to X3 while X3's command is pending (R64, R68; notes/assumptions/21.md): the aligned one sets HAZARD, the misaligned one and
the narrow one do not, and none changes X3. -/
theorem test_busy_write_refusals :
    holdsNext (busyState.hostWrite 0x118 (bytesOfWord 7)) (fun t => t.response == .busError && t.status.hazard && t.x == busyState.x) = true ∧
    holdsNext (busyState.hostWrite 0x11C (bytesOfWord 7)) (fun t => t.response == .busError && !t.status.hazard && t.x == busyState.x) = true ∧
    holdsNext (busyState.hostWrite 0x118 [7, 0, 0, 0]) (fun t => t.response == .busError && !t.status.hazard && t.x == busyState.x) = true := by
  decide +kernel

/-- The busy state is sound. -/
theorem test_witness_busy_sound : busyState.Sound := by
  refine ⟨by decide, by decide, ?_, by decide, by decide, by decide, by decide, by decide, ?_, ?_⟩
  · intro c hc
    exact absurd hc (by simp [busyState, scalar, withX, State.issue, State.accept, State.writeX, State.reset])
  · intro p hp
    have : p = { word := 0x00021303, snap := busyState.snapshot } := (Option.some.inj hp).symm
    subst this
    rfl
  · intro p hp
    have : p = { word := 0x00021303, snap := busyState.snapshot } := (Option.some.inj hp).symm
    subst this
    rfl

theorem test_witness_busy_offsets : (hiddenWhileBusy 0x100 ∧ hiddenWhileBusy 0x178 ∧ hiddenWhileBusy 0x01000000 ∧ hiddenWhileBusy 0x040) ∧
    (¬reservedOffset busyState 0x178 ∧ ¬readOnlyOffset 0x178) ∧ (¬reservedOffset busyState 0x01001FF8 ∧ ¬readOnlyOffset 0x01001FF8) := by
  have : busyState.params.nMaxLog2 = 10 := rfl
  simp [hiddenWhileBusy, reservedOffset, readOnlyOffset, this]

/-- Steps for the whole-machine rules: FATAL set and kept and cleared, HAZARD set and cleared. -/
theorem test_witness_sticky : brokenState.status.fatal = false ∧ holdsNext (step brokenState) (fun t => t.status.fatal) = true ∧
    fatalState.status.fatal = true ∧ holdsNext (step fatalState) (fun t => t.status.fatal) = true ∧
    holdsNext (step { fatalState with inReset := true, inputs := [.reset false] }) (fun t => !t.status.fatal) = true ∧
    holdsNext (busyState.hostWrite 0x010 (bytesOfWord 0x100)) (fun t => t.status.hazard) = true ∧
    holdsNext (hazardState.hostWrite 0x010 (bytesOfWord 0x100)) (fun t => !t.status.hazard) = true ∧
    hazardState.status.hazard = true := by decide +kernel

/-- Steps that change the tables: a build, a release of reset. -/
theorem test_witness_tables_change :
    holdsNext (step ((withX (ring 17 4 []) [(1, 2)]).issue (.tbuild 1))) (fun t => t.tblN == 4 && t.status.err == .none && !t.busy) = true ∧
    holdsNext (step { built 17 4 2 [] with inReset := true, inputs := [.reset false] }) (fun t => t.tblN == 0) = true ∧
    (ring 17 4 []).params.legal = true := by decide +kernel

/-- Steps that change X3: a command, a host write, a release of reset. -/
theorem test_witness_operand_writers : holdsNext (step busyState) (fun t => t.x[(3 : Reg)] != busyState.x[(3 : Reg)] && !t.busy) = true ∧
    holdsNext (State.reset.hostWrite 0x118 (bytesOfWord 7)) (fun t => t.x[(3 : Reg)] == 7) = true ∧
    holdsNext (step { scalar 17 [(3, 9)] with inReset := true, inputs := [.reset false] }) (fun t => t.x[(3 : Reg)] == 0) = true := by
  decide +kernel

theorem test_witness_snapshot : busyState.pending = some { word := 0x00021303, snap := busyState.snapshot } ∧
    holdsNext (exec (.mulmod 3 1 2) busyState) (fun t => t.status.err = .none && t.x[(3 : Reg)] == 9) = true :=
  ⟨rfl, by decide +kernel⟩

theorem test_witness_reset : resetState.inReset = true ∧ (0x07FFFFF8 : Nat) < 0x08000000 ∧
    holdsNext (step { resetState with inputs := [.reset false] }) (fun t => t.pending == none) = true := by decide +kernel

/-- The premises of the invariants: a sound state, and one whose tables agree, that takes a step. -/
theorem test_witness_invariants : busyState.Sound ∧ (∃ t, step busyState = .next t) ∧
    (built 17 4 2 [1, 2, 3, 4]).TablesAgree ∧ (built 17 4 2 [1, 2, 3, 4]).params.legal = true ∧
    (built 17 4 2 [1, 2, 3, 4]).status.fatal = false ∧ (∃ t, step (built 17 4 2 [1, 2, 3, 4]) = .next t) :=
  ⟨test_witness_busy_sound, ⟨_, rfl⟩, test_witness_tables_agree, by decide, by decide, ⟨_, rfl⟩⟩

end Sys2Proof.Tests
end

/-! # modular_multiply_reduce (40_modmul.md): MFACT, MULLAZY, MULMOD, BRED, REDUCE

The fields of a command word and their decoding, then the end of a scalar command, the values of the helper functions, and each
command's settlement: its word, its checks in order, and its result. -/

namespace Sys2Proof.Machine

/-! ## The fields of a command word -/

/-- c is the CMD value with these fields: what the decoder reads of it (30_encoding.md R90, R101). -/
structure HasFields (c opc rd rs1 rs2 rs3 sel : Nat) : Prop where
  reserved : bits c 63 27 = 0
  opc : bits c 7 0 = opc
  rd : bits c 11 8 = rd
  rs1 : bits c 15 12 = rs1
  rs2 : bits c 19 16 = rs2
  rs3 : bits c 23 20 = rs3
  sel : bits c 26 24 = sel

/-- The fields of a command word do not overlap, so each is read back (R90, R103). -/
theorem hasFields_commandWord {opc rd rs1 rs2 rs3 sel : Nat} (ho : opc < 2 ^ 8) (hd : rd < 16) (h1 : rs1 < 16) (h2 : rs2 < 16)
    (h3 : rs3 < 16) (hs : sel < 8) : HasFields (commandWord opc rd rs1 rs2 rs3 sel).toNat opc rd rs1 rs2 rs3 sel := by
  constructor <;> simp only [commandWord, BitVec.toNat_ofNat, bits] <;> omega

/-- The word of `Encodes` is the encoder's. -/
theorem encodes_iff {i : Instr} {opc rd rs1 rs2 rs3 sel : Nat} :
    Encodes i opc rd rs1 rs2 rs3 sel ↔ decodeCommand (commandWord opc rd rs1 rs2 rs3 sel) = .ok i := by
  have hsum : opc + rd * 2 ^ 8 + rs1 * 2 ^ 12 + rs2 * 2 ^ 16 + rs3 * 2 ^ 20 + sel * 2 ^ 24 =
      sel * 2 ^ 24 + rs3 * 2 ^ 20 + rs2 * 2 ^ 16 + rs1 * 2 ^ 12 + rd * 2 ^ 8 + opc := by omega
  rw [Encodes, commandWord, hsum]

/-- A register field read back is the register. -/
theorem regField_eq {c lo : Nat} {r : Reg} (h : bits c (lo + 3) lo = r) : regField c lo = r := by
  rw [regField, h, Fin.ofNat_val_eq_self]

/-- The third check of R101 passes where the unused fields are 0. -/
theorem accept_ok {f : Format} {sel : Bool} {c : Nat} {i : Instr} (h : f.unusedZero sel c = true) :
    f.accept sel c i = .ok i := if_pos h

/-- A well-formed shift select is what its SEL value names (R93). -/
theorem shiftSel_ofNat_toNat {bs : ShiftSel} (h : bs.wellFormed = true) : ShiftSel.ofNat bs.toNat = bs := by
  cases bs with
  | s64 | s52 | s32 => rfl
  | sel n =>
    have hn : 3 ≤ n ∧ n < 8 := by simpa [ShiftSel.wellFormed] using h
    obtain ⟨m, rfl⟩ := Nat.exists_eq_add_of_le' hn.1
    rfl

/-- A well-formed factor select is what its SEL value names (R94). -/
theorem factorSel_ofNat_toNat {mf : FactorSel} (h : mf.wellFormed = true) : FactorSel.ofNat mf.toNat = mf := by
  cases mf with
  | f1 | f2 | f4 | f8 => rfl
  | sel n =>
    have hn : 4 ≤ n ∧ n < 8 := by simpa [FactorSel.wellFormed] using h
    obtain ⟨m, rfl⟩ := Nat.exists_eq_add_of_le' hn.1
    rfl

/-- MFACT's word (R91, R96). -/
theorem encodes_mfact (rd rs1 : Reg) {bs : ShiftSel} (h : bs.wellFormed = true) :
    Encodes (.mfact rd rs1 bs) 0x01 rd rs1 0 0 bs.toNat := by
  have hf := hasFields_commandWord (opc := 0x01) (rs2 := 0) (rs3 := 0) (by decide) rd.isLt rs1.isLt (by decide) (by decide)
    (Laws.shiftSel_lt h)
  rw [encodes_iff]
  simp [decodeCommand, hf.reserved, hf.opc, hf.sel, regField_eq hf.rd, regField_eq hf.rs1, shiftSel_ofNat_toNat h, accept_ok,
    Format.unusedZero, hf.rs2, hf.rs3]

/-- MULLAZY's word: every field is used. -/
theorem encodes_mullazy (rd rs1 rs2 rs3 : Reg) {bs : ShiftSel} (h : bs.wellFormed = true) :
    Encodes (.mullazy rd rs1 rs2 rs3 bs) 0x02 rd rs1 rs2 rs3 bs.toNat := by
  have hf := hasFields_commandWord (opc := 0x02) (by decide) rd.isLt rs1.isLt rs2.isLt rs3.isLt (Laws.shiftSel_lt h)
  rw [encodes_iff]
  simp [decodeCommand, hf.reserved, hf.opc, hf.sel, regField_eq hf.rd, regField_eq hf.rs1, regField_eq hf.rs2,
    regField_eq hf.rs3, shiftSel_ofNat_toNat h, accept_ok, Format.unusedZero]

/-- MULMOD's word. -/
theorem encodes_mulmod (rd rs1 rs2 : Reg) : Encodes (.mulmod rd rs1 rs2) 0x03 rd rs1 rs2 0 0 := by
  have hf := hasFields_commandWord (opc := 0x03) (rs3 := 0) (sel := 0) (by decide) rd.isLt rs1.isLt rs2.isLt (by decide)
    (by decide)
  rw [encodes_iff]
  simp [decodeCommand, hf.reserved, hf.opc, regField_eq hf.rd, regField_eq hf.rs1, regField_eq hf.rs2, accept_ok,
    Format.unusedZero, hf.rs3, hf.sel]

/-- BRED's word. -/
theorem encodes_bred (rd rs1 rs2 : Reg) : Encodes (.bred rd rs1 rs2) 0x05 rd rs1 rs2 0 0 := by
  have hf := hasFields_commandWord (opc := 0x05) (rs3 := 0) (sel := 0) (by decide) rd.isLt rs1.isLt rs2.isLt (by decide)
    (by decide)
  rw [encodes_iff]
  simp [decodeCommand, hf.reserved, hf.opc, regField_eq hf.rd, regField_eq hf.rs1, regField_eq hf.rs2, accept_ok,
    Format.unusedZero, hf.rs3, hf.sel]

/-- REDUCE's word. -/
theorem encodes_reduce (rd rs1 : Reg) {mf : FactorSel} (h : mf.wellFormed = true) :
    Encodes (.reduce rd rs1 mf) 0x06 rd rs1 0 0 mf.toNat := by
  have hf := hasFields_commandWord (opc := 0x06) (rs2 := 0) (rs3 := 0) (by decide) rd.isLt rs1.isLt (by decide) (by decide)
    (Laws.factorSel_lt h)
  rw [encodes_iff]
  simp [decodeCommand, hf.reserved, hf.opc, hf.sel, regField_eq hf.rd, regField_eq hf.rs1, factorSel_ofNat_toNat h, accept_ok,
    Format.unusedZero, hf.rs2, hf.rs3]

/-! ## The end of a scalar command

The arm of exec for a scalar command is `completeScalar` of the rule's result by definition, so the two lemmas below turn what the
result is into what exec answers. -/

/-- An operand is a 64-bit value (00_scope.md R9). -/
theorem src_lt (s : State) (r : Reg) : s.src r < 2 ^ 64 := BitVec.isLt _

/-- Success writes DONE, ERR and ERR_DETAIL and keeps the rest of STATUS (60_exceptions.md R224). -/
theorem completed_none_eq (st : Status) :
    st.completed .none = { st with done := true, err := .none, errDetail := .none } := by
  rw [← completed_none_fatal st]
  rfl

/-- A scalar rule that succeeds with v ends as `afterScalar` says. -/
theorem completeScalar_of_ok {s : State} {r : Except Detail Nat} {v : Nat} (rd : Reg) (h : r = .ok v) :
    s.completeScalar rd r = .next (s.afterScalar rd v) := by
  rw [h, completeScalar_ok, State.succeed, writeX_status, completed_none_eq]
  rfl

/-- A scalar rule that fails raises its detail. -/
theorem completeScalar_of_error {s : State} {r : Except Detail Nat} {d : Detail} (rd : Reg) (h : r = .error d) :
    s.completeScalar rd r = .next (s.raise d) := by
  rw [h, completeScalar_error]

@[simp] theorem withSelect_some {α β : Type} (b : β) (d : Detail) (rest : β → Except Detail α) :
    withSelect (some b) d rest = rest b := rfl

@[simp] theorem withSelect_none {α β : Type} (d : Detail) (rest : β → Except Detail α) :
    withSelect none d rest = .error d := rfl

/-! ## The helper functions as formulas -/

/-- lo64 as an integer is the residue in [0, 2^64), also of a negative value (00_scope.md R10). -/
theorem lo64_cast (v : Int) : (lo64 v : Int) = v % 2 ^ 64 :=
  Int.toNat_of_nonneg (Int.emod_nonneg v (by decide))

/-- lo64 of a natural number is its residue. -/
theorem lo64_natCast (v : Nat) : lo64 (v : Int) = v % 2 ^ 64 := by
  unfold lo64
  omega

theorem hiProduct_eq (s a b : Nat) : hiProduct s a b = a * b / 2 ^ s % 2 ^ 64 := lo64_natCast _

theorem barrettFactor_eq_mod (s op q : Nat) : barrettFactor s op q = op * 2 ^ s / q % 2 ^ 64 := lo64_natCast _

theorem lazyMul_eq (s x y f q : Nat) :
    lazyMul s x y f q = (((y * x : Int) - ((x * f / 2 ^ s % 2 ^ 64 : Nat) : Int) * q) % 2 ^ 64).toNat := by
  rw [lazyMul, hiProduct_eq, Nat.cast_mul, Nat.cast_mul]
  rfl

/-- The high word of a 128-bit product of two words fits a word, so lo64 changes nothing (40_modmul.md R118). -/
theorem hiProduct_of_lt {a b : Nat} (ha : a < 2 ^ 64) (hb : b < 2 ^ 64) : hiProduct 64 a b = a * b / 2 ^ 64 := by
  rw [hiProduct_eq]
  exact Nat.mod_eq_of_lt (Nat.div_lt_of_lt_mul (Nat.mul_lt_mul'' ha hb))

theorem reduceBy_one (x q : Nat) : reduceBy 1 x q = x := rfl

theorem reduceBy_two (x q : Nat) : reduceBy 2 x q = subIfGe x q := rfl

theorem reduceBy_four_eq (x q : Nat) : reduceBy 4 x q = subIfGe (subIfGe x (2 * q)) q := rfl

theorem reduceBy_eight (x q : Nat) : reduceBy 8 x q = subIfGe (subIfGe (subIfGe x (4 * q)) (2 * q)) q := rfl

/-! ## MFACT -/

/-- Settles O12: R111's checks in order, then the Barrett factor. -/
theorem mfactGivesBarrettFactor : Obligations.MfactGivesBarrettFactor := by
  intro rd rs1 bs s
  refine ⟨encodes_mfact rd rs1, fun hbs => ?badBitshift, fun w hbs => ⟨fun hq => ?modZero, fun hq hop => ?operandGtMod,
    fun hq hop => ?factor⟩⟩
  case badBitshift => exact completeScalar_of_error rd (by simp [mfactResult, hbs])
  case modZero => exact completeScalar_of_error rd (by simp [mfactResult, hbs, hq])
  case operandGtMod => exact completeScalar_of_error rd (by simp [mfactResult, hbs, hq, hop])
  case factor => exact completeScalar_of_ok rd (by simp [mfactResult, hbs, hq, hop, barrettFactor_eq_mod])

/-! ## MULLAZY -/

/-- Settles O13: R112's five checks in order, then the lazy product. -/
theorem mullazyGivesLazyProduct : Obligations.MullazyGivesLazyProduct := by
  intro rd rs1 rs2 rs3 bs s
  refine ⟨encodes_mullazy rd rs1 rs2 rs3, fun hbs => ?badBitshift, fun w hbs => ⟨fun hq => ?modZero, fun hq hy => ?operandGeMod,
    fun hq hy hw => ?modTooWide, fun hq hy hw hx => ?xTooWide, fun hq hy hw hx => ?product⟩⟩
  case badBitshift => exact completeScalar_of_error rd (by simp [mullazyResult, hbs])
  case modZero => exact completeScalar_of_error rd (by simp [mullazyResult, hbs, hq])
  case operandGeMod => exact completeScalar_of_error rd (by simp [mullazyResult, hbs, hq, hy])
  case modTooWide => exact completeScalar_of_error rd (by simp [mullazyResult, hbs, hq, hy, hw])
  case xTooWide => exact completeScalar_of_error rd (by simp [mullazyResult, hbs, hq, hy, hw, hx])
  case product => exact completeScalar_of_ok rd (by simp [mullazyResult, hbs, hq, hy, hw, hx, lazyMul_eq])

/-! ## MULMOD -/

/-- Settles O15: R114's checks in order, then the remainder of the exact product. -/
theorem mulmodGivesProduct : Obligations.MulmodGivesProduct := by
  intro rd rs1 rs2 s
  refine ⟨encodes_mulmod rd rs1 rs2, fun hq => ?modZero, fun hq hge => ?operandGeMod, fun ha hb => ?product⟩
  case modZero => exact completeScalar_of_error rd (by simp [mulmodResult, hq])
  case operandGeMod =>
    apply completeScalar_of_error rd
    by_cases ha : s.src rs1 < s.q
    · have hb : s.q ≤ s.src rs2 := hge.resolve_left (Nat.not_le.mpr ha)
      simp [mulmodResult, hq, ha, hb]
    · simp [mulmodResult, hq, ha]
  case product =>
    have hq : s.q ≠ 0 := Nat.ne_zero_of_lt ha
    exact completeScalar_of_ok rd (by simp [mulmodResult, hq, ha, hb, mulMod])

/-! ## BRED -/

/-- Settles O17: the witness is R118's r, and lo64 leaves the quotient estimate of two 64-bit operands as it is. -/
theorem bredGivesBarrettReduction : Obligations.BredGivesBarrettReduction := by
  intro rd rs1 rs2 s
  refine ⟨encodes_bred rd rs1 rs2, fun hq => ?modZero, fun hq => ?reduction⟩
  case modZero => exact completeScalar_of_error rd (by simp [bredResult, hq])
  case reduction =>
    refine ⟨lo64 (s.src rs1 - (s.src rs1 * s.src rs2 / 2 ^ 64 * s.q : Nat)), ?value, ?exec⟩
    case value => rw [lo64_cast, Nat.cast_mul]
    case exec =>
      apply completeScalar_of_ok rd
      rw [bredResult, check_pos hq, hiProduct_of_lt (src_lt s rs1) (src_lt s rs2)]
      rfl

/-! ## REDUCE -/

/-- REDUCE with a factor that SEL names and a modulus that is not 0: R116's conditional subtractions. -/
theorem exec_reduce_of_factor {mf : FactorSel} {f : Nat} {s : State} (rd rs1 : Reg) (hf : inputFactor mf = some f)
    (hq : s.q ≠ 0) : exec (.reduce rd rs1 mf) s = .next (s.afterScalar rd (reduceBy f (s.src rs1) s.q)) :=
  completeScalar_of_ok rd (by simp [reduceResult, hf, hq])

/-- Settles O19: R116's two checks, then for each factor the subtractions it asks for. -/
theorem reduceSubtractsConditionally : Obligations.ReduceSubtractsConditionally := by
  intro rd rs1 mf s
  refine ⟨encodes_reduce rd rs1, fun hmf => ?badModfactor, fun hmf hq => ?modZero, fun hmf hq => ?one, fun hmf hq => ?two,
    fun hmf hq => ?four, fun hmf hq => ?eight⟩
  case badModfactor => exact completeScalar_of_error rd (by simp [reduceResult, hmf])
  case modZero =>
    obtain ⟨f, hf⟩ := Option.ne_none_iff_exists'.mp hmf
    exact completeScalar_of_error rd (by simp [reduceResult, hf, hq])
  case one => rw [exec_reduce_of_factor rd rs1 hmf hq, reduceBy_one]
  case two => rw [exec_reduce_of_factor rd rs1 hmf hq, reduceBy_two]; rfl
  case four => rw [exec_reduce_of_factor rd rs1 hmf hq, reduceBy_four_eq]; rfl
  case eight => rw [exec_reduce_of_factor rd rs1 hmf hq, reduceBy_eight]; rfl

end Sys2Proof.Machine

/-! # modular_add_sub_mod (41_addsub_pow.md): ADDMOD, SUBMOD, POWMOD, INVMOD

The words of the four commands, what each helper function answers for operands the checks let through, then each command's
settlement. -/

namespace Sys2Proof.Machine

/-! ## Command words -/

/-- A three-operand command's word decodes to it, where the decoder's arm for its opcode accepts it in format F2 (30_encoding.md R91,
R96). -/
theorem encodes_of_f2 {opc : Nat} {cmd : Reg → Reg → Reg → Instr} (hopc : opc < 2 ^ 8)
    (harm : ∀ w : Word, bits w.toNat 63 27 = 0 → bits w.toNat 7 0 = opc → decodeCommand w =
      Format.f2.accept false w.toNat (cmd (regField w.toNat 8) (regField w.toNat 12) (regField w.toNat 16)))
    (rd rs1 rs2 : Reg) : Encodes (cmd rd rs1 rs2) opc rd rs1 rs2 0 0 := by
  have hf := hasFields_commandWord (rs3 := 0) (sel := 0) hopc rd.isLt rs1.isLt rs2.isLt (by decide) (by decide)
  rw [encodes_iff, harm _ hf.reserved hf.opc, regField_eq hf.rd, regField_eq hf.rs1, regField_eq hf.rs2]
  exact accept_ok (by simp [Format.unusedZero, hf.rs3, hf.sel])

/-- ADDMOD's word. -/
theorem encodes_addmod (rd rs1 rs2 : Reg) : Encodes (.addmod rd rs1 rs2) 0x10 rd rs1 rs2 0 0 :=
  encodes_of_f2 (by decide) (fun w hr ho => by simp [decodeCommand, hr, ho]) rd rs1 rs2

/-- SUBMOD's word. -/
theorem encodes_submod (rd rs1 rs2 : Reg) : Encodes (.submod rd rs1 rs2) 0x11 rd rs1 rs2 0 0 :=
  encodes_of_f2 (by decide) (fun w hr ho => by simp [decodeCommand, hr, ho]) rd rs1 rs2

/-- POWMOD's word. -/
theorem encodes_powmod (rd rs1 rs2 : Reg) : Encodes (.powmod rd rs1 rs2) 0x12 rd rs1 rs2 0 0 :=
  encodes_of_f2 (by decide) (fun w hr ho => by simp [decodeCommand, hr, ho]) rd rs1 rs2

/-- INVMOD's word: format F1, with RS2 0 too. -/
theorem encodes_invmod (rd rs1 : Reg) : Encodes (.invmod rd rs1) 0x13 rd rs1 0 0 0 := by
  have hf := hasFields_commandWord (opc := 0x13) (rs2 := 0) (rs3 := 0) (sel := 0) (by decide) rd.isLt rs1.isLt (by decide)
    (by decide) (by decide)
  rw [encodes_iff]
  simp [decodeCommand, hf.reserved, hf.opc, regField_eq hf.rd, regField_eq hf.rs1, accept_ok, Format.unusedZero, hf.rs2, hf.rs3,
    hf.sel]

/-! ## The operand checks -/

/-- An operand that is not below the modulus fails the two operand checks of R131 and R132, whichever of them it fails. -/
theorem check_operands_of_ge {a b q : Nat} (h : q ≤ a ∨ q ≤ b) (rest : Except Detail Nat) :
    check (a < q) .operandGeMod (check (b < q) .operandGeMod rest) = .error .operandGeMod := by
  by_cases ha : a < q
  · have hb : ¬b < q := Nat.not_lt.mpr (h.resolve_left (Nat.not_le.mpr ha))
    rw [check_pos ha, check_neg hb]
  · rw [check_neg ha]

/-! ## The results in ordinary arithmetic -/

/-- For operands below q one conditional subtraction reduces the sum (R131). -/
theorem addMod_eq {a b q : Nat} (ha : a < q) (hb : b < q) : addMod a b q = (a + b) % q :=
  subIfGe_eq_mod (by omega)

/-- For operands below q the difference, with q added where it is negative, is the residue (R132). -/
theorem subMod_eq {a b q : Nat} (ha : a < q) (hb : b < q) : subMod a b q = (((a : Int) - b) % q).toNat := by
  unfold subMod
  split
  case isTrue hge =>
    rw [Int.emod_eq_of_lt (by omega) (by omega)]
    omega
  case isFalse hlt =>
    rw [← Int.add_emod_right, Int.emod_eq_of_lt (by omega) (by omega)]
    omega

/-- R134 takes the gcd after it reduces the argument, which does not change it. -/
theorem gcd_mod_left (a q : Nat) : Nat.gcd (a % q) q = Nat.gcd a q := by
  rw [← Nat.gcd_rec, Nat.gcd_comm]

/-- For an argument that has an inverse, `invMod` of its residue is an inverse in [1, q) (R134). -/
theorem invMod_mod_spec {a q : Nat} (ha : a % q ≠ 0) (hg : Nat.gcd a q = 1) (hq : q ≠ 0) :
    1 ≤ invMod (a % q) q ∧ invMod (a % q) q < q ∧ a * invMod (a % q) q % q = 1 := by
  have hq2 : 2 ≤ q := by
    have hq1 : q ≠ 1 := fun h => ha (by rw [h, Nat.mod_one])
    omega
  obtain ⟨hlt, hinv⟩ := invMod_spec (a := a % q) hq2 ((gcd_mod_left a q).trans hg)
  rw [Nat.mod_mul_mod] at hinv
  have hne : invMod (a % q) q ≠ 0 := fun h => by simp [h] at hinv
  exact ⟨Nat.one_le_iff_ne_zero.mpr hne, hlt, hinv⟩

/-! ## ADDMOD -/

/-- Settles O21: R131's checks in order, then the reduced sum. -/
theorem addmodGivesSum : Obligations.AddmodGivesSum := by
  intro rd rs1 rs2 s
  refine ⟨encodes_addmod rd rs1 rs2, fun hq => ?modZero, fun hq hge => ?operandGeMod, fun ha hb => ?sum⟩
  case modZero => exact completeScalar_of_error rd (by simp [addmodResult, hq])
  case operandGeMod => exact completeScalar_of_error rd (by rw [addmodResult, check_pos hq, check_operands_of_ge hge])
  case sum =>
    have hq : s.q ≠ 0 := Nat.ne_zero_of_lt ha
    exact completeScalar_of_ok rd (by simp [addmodResult, hq, ha, hb, addMod_eq])

/-! ## SUBMOD -/

/-- Settles O22: R132's checks in order, then the residue of the difference. -/
theorem submodGivesDifference : Obligations.SubmodGivesDifference := by
  intro rd rs1 rs2 s
  refine ⟨encodes_submod rd rs1 rs2, fun hq => ?modZero, fun hq hge => ?operandGeMod, fun ha hb => ?difference⟩
  case modZero => exact completeScalar_of_error rd (by simp [submodResult, hq])
  case operandGeMod => exact completeScalar_of_error rd (by rw [submodResult, check_pos hq, check_operands_of_ge hge])
  case difference =>
    have hq : s.q ≠ 0 := Nat.ne_zero_of_lt ha
    exact completeScalar_of_ok rd (by simp [submodResult, hq, ha, hb, subMod_eq])

/-! ## POWMOD -/

/-- Settles O23: R133's one check, then the power; the base may be reduced first, as the statement has it. -/
theorem powmodGivesPower : Obligations.PowmodGivesPower := by
  intro rd rs1 rs2 s
  refine ⟨encodes_powmod rd rs1 rs2, fun hq => ?modZero, fun hq => ?power⟩
  case modZero => exact completeScalar_of_error rd (by simp [powmodResult, hq])
  case power =>
    apply completeScalar_of_ok rd
    rw [powmodResult, check_pos hq, powMod_eq, Nat.pow_mod]

/-! ## INVMOD -/

/-- Settles O24: R134's checks in order, then the inverse; two of them below q are equal. -/
theorem invmodGivesInverse : Obligations.InvmodGivesInverse := by
  intro rd rs1 s
  refine ⟨encodes_invmod rd rs1, fun hq => ?modZero, fun hq hno => ?notInvertible, fun hq ha hg => ?inverse⟩
  case modZero => exact completeScalar_of_error rd (by simp [invmodResult, hq])
  case notInvertible =>
    apply completeScalar_of_error rd
    rw [invmodResult, check_pos hq]
    by_cases ha : s.src rs1 % s.q = 0
    · rw [check_neg (not_not.mpr ha)]
    · have hg : Nat.gcd (s.src rs1 % s.q) s.q ≠ 1 := by
        rw [gcd_mod_left]
        exact hno.resolve_left ha
      rw [check_pos ha, check_neg hg]
  case inverse =>
    obtain ⟨hpos, hlt, hinv⟩ := invMod_mod_spec ha hg hq
    refine ⟨invMod (s.src rs1 % s.q) s.q, ?exec, hpos, hlt, hinv, fun w _ hw hwinv => inverse_unique hw hlt hwinv hinv⟩
    have hg' : Nat.gcd (s.src rs1 % s.q) s.q = 1 := (gcd_mod_left _ _).trans hg
    exact completeScalar_of_ok rd (by rw [invmodResult, check_pos hq, check_pos ha, check_pos hg'])

end Sys2Proof.Machine

/-! # bit_reverse_unit (42_bitrev_table.md): BITREV, BREVBUF

The words of the two commands, the bits of a reversed value, the degree check, what BREVBUF leaves, then each command's
settlement. -/

namespace Sys2Proof.Machine

/-! ## Command words -/

/-- BITREV's word. -/
theorem encodes_bitrev (rd rs1 rs2 : Reg) : Encodes (.bitrev rd rs1 rs2) 0x20 rd rs1 rs2 0 0 :=
  encodes_of_f2 (by decide) (fun w hr ho => by simp [decodeCommand, hr, ho]) rd rs1 rs2

/-- BREVBUF's word: format F0, one value of CMD. -/
theorem encodes_brevbuf : Encodes .brevbuf 0x21 0 0 0 0 0 := rfl

/-! ## The bits of a reversed value -/

/-- Bit b of the value goes to bit k - 1 - b (00_scope.md R15): bit 0 is the reversal's top bit, and the bits above it are reversed
in the k - 1 bits below. -/
theorem testBit_bitRev (k v : Nat) {b : Nat} (hb : b < k) : (bitRev k v).testBit (k - 1 - b) = v.testBit b := by
  induction k generalizing v b with
  | zero => exact absurd hb b.not_lt_zero
  | succ k ih =>
    rw [bitRev_succ, Nat.mul_comm, Nat.testBit_two_pow_mul_add _ (bitRev_lt k _), Nat.add_sub_cancel]
    cases b with
    | zero => simp
    | succ b =>
      have hbk : b < k := Nat.lt_of_succ_lt_succ hb
      have hlow : k - (b + 1) = k - 1 - b := by omega
      rw [if_pos (by omega), hlow, ih _ hbk, Nat.testBit_succ]

/-! ## The degree check -/

/-- The check's test is the one the statements write. -/
theorem powerOfTwo_iff_isPowerOfTwo (n : Nat) : (n ≠ 0 ∧ n &&& (n - 1) = 0) ↔ isPowerOfTwo n = true := by
  rw [powerOfTwo_iff, isPowerOfTwo, beq_iff_eq]

section
variable {α : Type} {n m : Nat} (rest : Except Detail α)

/-- A degree that is no power of two fails the first check of CHECK_DEGREE (43_ntt.md R170). -/
theorem checkDegree_not_pow2 (h : isPowerOfTwo n = false) : checkDegree n m rest = .error .degreeNotPow2 :=
  check_neg (by simp [powerOfTwo_iff_isPowerOfTwo, h])

/-- A power of two out of range fails the second. -/
theorem checkDegree_out_of_range (h : isPowerOfTwo n = true) (hr : n < 2 ∨ m < n) :
    checkDegree n m rest = .error .degreeRange := by
  rw [checkDegree, check_pos ((powerOfTwo_iff_isPowerOfTwo n).mpr h), check_neg (by omega)]

/-- A power of two in range passes both. -/
theorem checkDegree_pass (h : isPowerOfTwo n = true) (h2 : 2 ≤ n) (hm : n ≤ m) : checkDegree n m rest = rest := by
  rw [checkDegree, check_pos ((powerOfTwo_iff_isPowerOfTwo n).mpr h), check_pos ⟨h2, hm⟩]

end

/-! ## What BREVBUF leaves -/

@[simp] theorem bitReversed_length (old : List Word) : (bitReversed old).length = old.length := by simp [bitReversed]

/-- For as many words as a power of two, word k of the reversed list is the old word at bitrev_L(k) (R151): the reversed index stays
in the list. -/
theorem bitReversed_loadArray_getElem (s : State) (arr : ArrayId) {n k : Nat} (hn : n = 2 ^ n.log2)
    (hk : k < (bitReversed (s.loadArray arr n)).length) :
    (bitReversed (s.loadArray arr n))[k] = s.readArray arr (bitRev n.log2 k) := by
  have hrev : bitRev n.log2 k < n := (bitRev_lt n.log2 k).trans_eq hn.symm
  simp [bitReversed, hrev]

/-- A completion that stores array words leaves the control registers, the reset input and the model's own fields alone. -/
theorem sameControl_storeArray_succeed (s : State) (arr : ArrayId) (ws : List Word) :
    SameControl s (s.storeArray arr ws).succeed := by
  constructor <;> rfl

/-- It leaves the table metadata alone too. -/
theorem sameTables_storeArray_succeed (s : State) (arr : ArrayId) (ws : List Word) :
    SameTables s (s.storeArray arr ws).succeed := by
  constructor <;> rfl

/-- An array word after the completion is the one the results hold. -/
@[simp] theorem readArray_succeed (s : State) (arr : ArrayId) (k : Nat) : s.succeed.readArray arr k = s.readArray arr k := rfl

/-- So is an array byte. -/
@[simp] theorem readByte_succeed (s : State) (a : Nat) : s.succeed.readByte a = s.readByte a := rfl

/-! ## BITREV -/

/-- Settles O25: R150's two checks in order, then the reversed value, bit by bit. -/
theorem bitrevReversesBits : Obligations.BitrevReversesBits := by
  intro rd rs1 rs2 s
  refine ⟨encodes_bitrev rd rs1 rs2, fun hk => ?width, fun hk hv => ?value, fun hk hv => ⟨bitRev (s.src rs2) (s.src rs1), ?exec,
    bitRev_lt _ _, fun b hb => testBit_bitRev _ _ hb, bitRev_bitRev _ _ hv⟩⟩
  case width => exact completeScalar_of_error rd (check_neg (Nat.not_le.mpr hk))
  case value => exact completeScalar_of_error rd (by rw [bitrevResult, check_pos hk, check_neg (Nat.not_lt.mpr hv)])
  case exec => exact completeScalar_of_ok rd (by rw [bitrevResult, check_pos hk, check_pos hv])

/-! ## BREVBUF -/

/-- The arm of exec for BREVBUF: its answer is the completion of the checked store. -/
theorem exec_brevbuf (s : State) : exec .brevbuf s =
    s.complete (checkDegree s.n s.nMax (.ok (s.storeArray .buf (bitReversed (s.loadArray .buf s.n))))) := rfl

/-- Settles O26: the two checks of the degree in order, then the store of the n reversed words from BUF[0] on. -/
theorem brevbufPermutesBuffer : Obligations.BrevbufPermutesBuffer := by
  intro s
  refine ⟨encodes_brevbuf, fun hp => ?degreeNotPow2, fun hp hr => ?degreeRange, fun hp h2 hm =>
    ⟨(s.storeArray .buf (bitReversed (s.loadArray .buf s.n))).succeed, ?exec, fun k hk => ?words, fun a ha => ?frame, rfl, rfl,
      sameControl_storeArray_succeed .., sameTables_storeArray_succeed .., rfl, completed_none_eq s.status⟩⟩
  case degreeNotPow2 => rw [exec_brevbuf, checkDegree_not_pow2 _ hp, complete_error]
  case degreeRange => rw [exec_brevbuf, checkDegree_out_of_range (m := s.nMax) _ hp hr, complete_error]
  case exec => rw [exec_brevbuf, checkDegree_pass (m := s.nMax) _ hp h2 hm, complete_ok]
  case words =>
    have hpow : s.n = 2 ^ s.n.log2 := beq_iff_eq.mp hp
    rw [readArray_succeed, readArray_storeArray_same s .buf _ (by simpa using hk), bitReversed_loadArray_getElem s .buf hpow]
  case frame =>
    rw [readByte_succeed]
    exact readByte_storeArray_outside s (by simpa [ArrayId.base] using ha)

end Sys2Proof.Machine

/-! # hardware_dispatch_mux (44_dispatch.md): RESOLVE_PATH

AUTO's choice and the forced paths, the checks of NTT_VALIDATE that come before the path, then each statement's settlement. -/

namespace Sys2Proof.Machine

section
variable (params : Config.Params) (ctrl : Ctrl) (dir : Direction) (q : Nat)

/-! ## AUTO -/

/-- AUTO on a forward transform (44_dispatch.md R202): the direction's test holds. -/
theorem autoPath_fwd : autoPath params ctrl .fwd q =
    if (params.narrow52Impl && ctrl.enNarrow52) = true ∧ q < 2 ^ 50 then .narrow52
    else if (params.wide64Impl && ctrl.enWide64) = true then .wide64 else .scalar :=
  if_congr (and_iff_right rfl) rfl rfl

/-- AUTO on an inverse transform (44_dispatch.md R203): NARROW52 is skipped. -/
theorem autoPath_inv : autoPath params ctrl .inv q =
    if (params.wide64Impl && ctrl.enWide64) = true then .wide64 else .scalar :=
  if_neg fun h => Direction.noConfusion h.1

/-- AUTO below FULL_MOD_BOUND answers its choice and raises nothing (44_dispatch.md R204). -/
theorem resolvePath_auto_of_lt {q : Nat} (h : q < 2 ^ 62) :
    resolvePath params ctrl dir none q = .ok (autoPath params ctrl dir q) := check_pos h

/-- AUTO at or above FULL_MOD_BOUND raises. -/
theorem resolvePath_auto_of_ge {q : Nat} (h : 2 ^ 62 ≤ q) :
    resolvePath params ctrl dir none q = .error .modPathBound := check_neg (Nat.not_lt.mpr h)

/-! ## Forced paths -/

/-- A forced path that the direction has: its availability is checked, then its bound, and it never falls back
(44_dispatch.md R204). -/
theorem resolvePath_forced {dir : Direction} {p : NttPath} (h : ¬(dir = .inv ∧ p = .narrow52)) :
    resolvePath params ctrl dir (some p) q =
      if avail params ctrl p = true then (if q < pathBound p then .ok p else .error .modPathBound)
      else .error .pathUnavailable := check_pos h

/-- A forced path that is always available has only its bound to meet (44_dispatch.md R201). -/
theorem resolvePath_forced_always {dir : Direction} {p : NttPath} (h : p = .scalar ∨ p = .reference) :
    resolvePath params ctrl dir (some p) q = if q < 2 ^ 62 then .ok p else .error .modPathBound := by
  rcases h with rfl | rfl <;> exact (resolvePath_forced params ctrl q (by simp)).trans (if_pos rfl)

/-- There is no narrow inverse, and this check comes first (44_dispatch.md R205). -/
theorem resolvePath_narrow_inverse :
    resolvePath params ctrl .inv (some .narrow52) q = .error .modeUnsupported := by
  rw [resolvePath, forcedPath, check_neg (by simp)]

end

/-! ## What comes before the path -/

/-- No check of a list fails where the first holds and none of the others fails. -/
@[simp] theorem firstFailure_cons_eq_none (c : Bool × Detail) (cs : List (Bool × Detail)) :
    firstFailure (c :: cs) = none ↔ c.1 = true ∧ firstFailure cs = none := by
  rw [firstFailure]
  split <;> simp_all

/-- Where the degree's checks hold, CHECK_DEGREE goes on (43_ntt.md R170). -/
theorem checkDegree_of_degreeChecks {α : Type} {s : State} (h : firstFailure (degreeChecks s) = none) (rest : Except Detail α) :
    checkDegree s.n s.nMax rest = rest := by
  obtain ⟨hpow, hrange, -⟩ := by simpa only [degreeChecks, firstFailure_cons_eq_none] using h
  obtain ⟨hmin, hmax⟩ : 2 ≤ s.n ∧ s.n ≤ s.nMax := by simpa [State.nMax] using hrange
  exact checkDegree_pass rest hpow hmin hmax

/-- NTT_VALIDATE raises what RESOLVE_PATH raises, once the checks before it hold (43_ntt.md R170). -/
theorem nttValidate_of_path_error {s : State} {dir : Direction} {m : ModeSel} {mode : Option NttPath} {d : Detail}
    (hm : requestedPath m = some mode) (hq : s.q ≠ 0) (hdeg : firstFailure (degreeChecks s) = none)
    (hpath : resolvePath s.params s.operands.ctrl dir mode s.q = .error d) : s.nttValidate dir m = .error d := by
  rw [State.nttValidate, hm, withSelect_some, check_pos hq, checkDegree_of_degreeChecks hdeg, hpath]

/-- INTT raises what NTT_VALIDATE raises (43_ntt.md R179). -/
theorem exec_intt_of_error {s : State} {m : ModeSel} {d : Detail} (h : s.nttValidate .inv m = .error d) :
    exec (.intt m) s = .next (s.raise d) := by
  rw [exec, execIntt, h]

/-! ## The settlements -/

/-- Settles O36: AUTO on either side of its bound, then each forced path. -/
theorem pathSelectionFollowsMux : Obligations.PathSelectionFollowsMux := by
  intro params ctrl q narrow wide
  refine ⟨fun dir hq => resolvePath_auto_of_ge params ctrl dir hq, fun hq => ⟨?autoForward, ?autoInverse⟩,
    fun dir p hp => resolvePath_forced_always params ctrl q hp, fun dir => ?wide64, ?narrow52,
    resolvePath_narrow_inverse params ctrl q⟩
  case autoForward => rw [resolvePath_auto_of_lt params ctrl .fwd hq, autoPath_fwd]
  case autoInverse => rw [resolvePath_auto_of_lt params ctrl .inv hq, autoPath_inv]
  case wide64 => exact resolvePath_forced params ctrl q (p := .wide64) (by simp)
  case narrow52 => exact resolvePath_forced params ctrl q (dir := .fwd) (by simp)

/-- Settles O37: R205's check is the first of the path's, so neither CAP nor CTRL is read. -/
theorem inttNarrowIsUnsupported : Obligations.InttNarrowIsUnsupported := fun _ hq hdeg =>
  exec_intt_of_error (nttValidate_of_path_error rfl hq hdeg (resolvePath_narrow_inverse ..))

end Sys2Proof.Machine

/-! # Acceptance (60_exceptions.md R220): a host write to CMD

What makes a word's write to CMD an access the window takes, the outcome of each of R220's three cases as a named operation on the
state, then the settlement. -/

namespace Sys2Proof.Machine

/-! ## A word's access to CMD -/

/-- Out of reset the window takes the eight lanes of a word at an aligned offset (20_memory.md R63, R64). -/
theorem takesAccess_bytesOfWord {s : State} {off : Nat} (hreset : s.inReset = false) (h8 : off % 8 = 0) (v : Word) :
    s.takesAccess off (bytesOfWord v).length = true := by
  simp [State.takesAccess, bytesOfWord_length, hreset, h8]

/-- The map names CMD at 0x020 (20_memory.md R61). -/
theorem placeAt_cmd (nMax : Nat) : placeAt nMax 0x020 = .cmd := (placeAt_cmd_iff (by decide)).mpr rfl

/-- CMD is a place a host may write (10_state.md R34). -/
theorem placeAt_cmd_writable (nMax : Nat) : (placeAt nMax 0x020).writable = true := by rw [placeAt_cmd, Place.writable]

/-! ## The three cases of R220 -/

section
variable (s : State)

/-- While busy, a write to CMD is refused with HAZARD. -/
theorem memWrite_cmd_busy (hreset : s.inReset = false) (hbusy : s.busy = true) (v : Word) :
    s.memWrite 0x020 (bytesOfWord v) = s.refuseBusy :=
  memWrite_busy s (takesAccess_bytesOfWord hreset (by decide) v) (placeAt_cmd_writable _) hbusy

/-- Idle with FATAL, a write to CMD is refused, whatever its lanes. -/
theorem memWrite_cmd_fatal (hidle : s.busy = false) (hfatal : s.status.fatal = true) (lanes : List Byte) :
    s.memWrite 0x020 lanes = s.busError :=
  memWrite_fatal s hidle (placeAt_cmd _) hfatal

/-- Idle without FATAL, a write of v to CMD is the acceptance of v. -/
theorem memWrite_cmd_accepted (hreset : s.inReset = false) (hidle : s.busy = false) (hfatal : s.status.fatal = false) (v : Word) :
    s.memWrite 0x020 (bytesOfWord v) = { s.accept v with response := .writeOk } := by
  rw [memWrite_stored s (takesAccess_bytesOfWord hreset (by decide) v) (placeAt_cmd_writable _) hidle fun _ => hfatal,
    placeAt_cmd, State.writePlace, wordOfBytes_bytesOfWord]

end

/-! ## The settlement -/

/-- Settles O6: the host's step is one write of the window, and R220's three cases follow from BUSY and FATAL. -/
theorem cmdWriteIsAcceptedOrRefused : Obligations.CmdWriteIsAcceptedOrRefused := by
  intro s v hreset
  rw [hostWrite_eq s (by decide)]
  refine ⟨fun hbusy => ?busy, fun hidle hfatal => ?fatal, fun hidle hfatal => ?accepted⟩
  case busy => exact congrArg _ (memWrite_cmd_busy { s with inputs := [] } hreset hbusy v)
  case fatal => exact congrArg _ (memWrite_cmd_fatal { s with inputs := [] } hidle hfatal _)
  case accepted => exact congrArg _ (memWrite_cmd_accepted { s with inputs := [] } hreset hidle hfatal v)

end Sys2Proof.Machine

/-! # The command encoding (30_encoding.md): decoding and encoding are inverse, and the illegal encodings

The words of the four commands that remain, the fields that make up an accepted CMD value, the unused fields of a format as a mask of
the CMD value, then each statement's settlement. -/

namespace Sys2Proof.Machine

/-! ## Command words -/

/-- A well-formed mode select is what its SEL value names (R95). -/
theorem modeSel_ofNat_toNat {m : ModeSel} (h : m.wellFormed = true) : ModeSel.ofNat m.toNat = m := by
  cases m with
  | auto | scalar | wide64 | narrow52 | reference => rfl
  | sel n =>
    have hn : 5 ≤ n ∧ n < 8 := by simpa [ModeSel.wellFormed] using h
    obtain ⟨m, rfl⟩ := Nat.exists_eq_add_of_le' hn.1
    rfl

/-- MULMODP's word: every register field is used, SEL is not. -/
theorem encodes_mulmodp (rd rs1 rs2 rs3 : Reg) : Encodes (.mulmodp rd rs1 rs2 rs3) 0x04 rd rs1 rs2 rs3 0 := by
  have hf := hasFields_commandWord (opc := 0x04) (sel := 0) (by decide) rd.isLt rs1.isLt rs2.isLt rs3.isLt (by decide)
  rw [encodes_iff]
  simp [decodeCommand, hf.reserved, hf.opc, regField_eq hf.rd, regField_eq hf.rs1, regField_eq hf.rs2, regField_eq hf.rs3,
    accept_ok, Format.unusedZero, hf.sel]

/-- TBUILD's word: RS1 only. -/
theorem encodes_tbuild (rs1 : Reg) : Encodes (.tbuild rs1) 0x30 0 rs1 0 0 0 := by
  have hf := hasFields_commandWord (opc := 0x30) (rd := 0) (rs2 := 0) (rs3 := 0) (sel := 0) (by decide) (by decide) rs1.isLt
    (by decide) (by decide) (by decide)
  rw [encodes_iff]
  simp [decodeCommand, hf.reserved, hf.opc, regField_eq hf.rs1, accept_ok, Format.unusedZero, hf.rd, hf.rs2, hf.rs3, hf.sel]

/-- FNTT's word: SEL only. -/
theorem encodes_fntt {m : ModeSel} (h : m.wellFormed = true) : Encodes (.fntt m) 0x40 0 0 0 0 m.toNat := by
  have hf := hasFields_commandWord (opc := 0x40) (rd := 0) (rs1 := 0) (rs2 := 0) (rs3 := 0) (by decide) (by decide) (by decide)
    (by decide) (by decide) (Laws.modeSel_lt h)
  rw [encodes_iff]
  simp [decodeCommand, hf.reserved, hf.opc, hf.sel, modeSel_ofNat_toNat h, accept_ok, Format.unusedZero, hf.rd, hf.rs1, hf.rs2,
    hf.rs3]

/-- INTT's word: SEL only. -/
theorem encodes_intt {m : ModeSel} (h : m.wellFormed = true) : Encodes (.intt m) 0x41 0 0 0 0 m.toNat := by
  have hf := hasFields_commandWord (opc := 0x41) (rd := 0) (rs1 := 0) (rs2 := 0) (rs3 := 0) (by decide) (by decide) (by decide)
    (by decide) (by decide) (Laws.modeSel_lt h)
  rw [encodes_iff]
  simp [decodeCommand, hf.reserved, hf.opc, hf.sel, modeSel_ofNat_toNat h, accept_ok, Format.unusedZero, hf.rd, hf.rs1, hf.rs2,
    hf.rs3]

/-- Settles O1: every command's word, by the lemma on its fields. -/
theorem decodeOfEncodeIsIdentity : Obligations.DecodeOfEncodeIsIdentity := by
  intro i h
  cases i with
  | mfact rd rs1 bs => exact encodes_iff.mp (encodes_mfact rd rs1 h)
  | mullazy rd rs1 rs2 rs3 bs => exact encodes_iff.mp (encodes_mullazy rd rs1 rs2 rs3 h)
  | mulmod rd rs1 rs2 => exact encodes_iff.mp (encodes_mulmod rd rs1 rs2)
  | mulmodp rd rs1 rs2 rs3 => exact encodes_iff.mp (encodes_mulmodp rd rs1 rs2 rs3)
  | bred rd rs1 rs2 => exact encodes_iff.mp (encodes_bred rd rs1 rs2)
  | reduce rd rs1 mf => exact encodes_iff.mp (encodes_reduce rd rs1 h)
  | addmod rd rs1 rs2 => exact encodes_iff.mp (encodes_addmod rd rs1 rs2)
  | submod rd rs1 rs2 => exact encodes_iff.mp (encodes_submod rd rs1 rs2)
  | powmod rd rs1 rs2 => exact encodes_iff.mp (encodes_powmod rd rs1 rs2)
  | invmod rd rs1 => exact encodes_iff.mp (encodes_invmod rd rs1)
  | bitrev rd rs1 rs2 => exact encodes_iff.mp (encodes_bitrev rd rs1 rs2)
  | brevbuf => exact encodes_iff.mp encodes_brevbuf
  | tbuild rs1 => exact encodes_iff.mp (encodes_tbuild rs1)
  | fntt m => exact encodes_iff.mp (encodes_fntt h)
  | intt m => exact encodes_iff.mp (encodes_intt h)

/-! ## The fields of an accepted value -/

/-- The select that a SEL field names is well formed and is encoded as that field (R93). -/
theorem shiftSel_ofNat {n : Nat} (h : n < 8) : (ShiftSel.ofNat n).wellFormed = true ∧ (ShiftSel.ofNat n).toNat = n := by
  interval_cases n <;> exact ⟨rfl, rfl⟩

/-- The same for a factor (R94). -/
theorem factorSel_ofNat {n : Nat} (h : n < 8) : (FactorSel.ofNat n).wellFormed = true ∧ (FactorSel.ofNat n).toNat = n := by
  interval_cases n <;> exact ⟨rfl, rfl⟩

/-- The same for a mode (R95). -/
theorem modeSel_ofNat {n : Nat} (h : n < 8) : (ModeSel.ofNat n).wellFormed = true ∧ (ModeSel.ofNat n).toNat = n := by
  interval_cases n <;> exact ⟨rfl, rfl⟩

/-- The SEL field has three bits. -/
theorem bits_sel_lt (c : Nat) : bits c 26 24 < 8 := Nat.mod_lt _ (by decide)

/-- A register field as a number. -/
theorem regField_val (c lo : Nat) : (regField c lo).val = bits c (lo + 3) lo := by
  have hlt : bits c (lo + 3) lo < 16 := by
    rw [bits, Nat.add_sub_cancel_left]
    exact Nat.mod_lt _ (by decide)
  exact Nat.mod_eq_of_lt hlt

/-- A CMD value with no reserved bit is the word of its fields. -/
theorem commandWord_of_hasFields {v : Word} {opc rd rs1 rs2 rs3 sel : Nat} (h : HasFields v.toNat opc rd rs1 rs2 rs3 sel) :
    commandWord opc rd rs1 rs2 rs3 sel = v := by
  obtain ⟨h0, rfl, rfl, rfl, rfl, rfl, rfl⟩ := h
  have hv := v.isLt
  apply BitVec.eq_of_toNat_eq
  simp only [commandWord, BitVec.toNat_ofNat, bits] at h0 ⊢
  omega

/-- Acceptance of a format gives the command, with the unused fields 0 (R97). -/
theorem accept_eq_ok {f : Format} {sel : Bool} {c : Nat} {i j : Instr} :
    f.accept sel c i = .ok j ↔ f.unusedZero sel c = true ∧ i = j := by
  unfold Format.accept
  split
  case isTrue h => simp [h]
  case isFalse h => simp [h]

/-- A format refuses for an unused field only. -/
theorem accept_eq_error {f : Format} {sel : Bool} {c : Nat} {i : Instr} {e : DecodeError} :
    f.accept sel c i = .error e ↔ f.unusedZero sel c = false ∧ e = .unusedField := by
  unfold Format.accept
  split
  case isTrue h => simp [h]
  case isFalse h => simpa [h] using eq_comm

/-- The decoder's arm for an opcode (R96): the format, whether the opcode uses SEL, and the command of the fields of c. -/
inductive DecoderArm (c : Nat) : Nat → Format → Bool → Instr → Prop where
  | mfact : DecoderArm c 0x01 .f1 true (.mfact (regField c 8) (regField c 12) (ShiftSel.ofNat (bits c 26 24)))
  | mullazy : DecoderArm c 0x02 .f3 true
      (.mullazy (regField c 8) (regField c 12) (regField c 16) (regField c 20) (ShiftSel.ofNat (bits c 26 24)))
  | mulmod : DecoderArm c 0x03 .f2 false (.mulmod (regField c 8) (regField c 12) (regField c 16))
  | mulmodp : DecoderArm c 0x04 .f3 false (.mulmodp (regField c 8) (regField c 12) (regField c 16) (regField c 20))
  | bred : DecoderArm c 0x05 .f2 false (.bred (regField c 8) (regField c 12) (regField c 16))
  | reduce : DecoderArm c 0x06 .f1 true (.reduce (regField c 8) (regField c 12) (FactorSel.ofNat (bits c 26 24)))
  | addmod : DecoderArm c 0x10 .f2 false (.addmod (regField c 8) (regField c 12) (regField c 16))
  | submod : DecoderArm c 0x11 .f2 false (.submod (regField c 8) (regField c 12) (regField c 16))
  | powmod : DecoderArm c 0x12 .f2 false (.powmod (regField c 8) (regField c 12) (regField c 16))
  | invmod : DecoderArm c 0x13 .f1 false (.invmod (regField c 8) (regField c 12))
  | bitrev : DecoderArm c 0x20 .f2 false (.bitrev (regField c 8) (regField c 12) (regField c 16))
  | brevbuf : DecoderArm c 0x21 .f0 false .brevbuf
  | tbuild : DecoderArm c 0x30 .f1s false (.tbuild (regField c 12))
  | fntt : DecoderArm c 0x40 .f0 true (.fntt (ModeSel.ofNat (bits c 26 24)))
  | intt : DecoderArm c 0x41 .f0 true (.intt (ModeSel.ofNat (bits c 26 24)))

/-- The opcode map (R96). -/
def opcodes : List Nat := [0x01, 0x02, 0x03, 0x04, 0x05, 0x06, 0x10, 0x11, 0x12, 0x13, 0x20, 0x21, 0x30, 0x40, 0x41]

/-- All the decoder can do (R101): a reserved bit, an opcode outside the map, or the third check of the opcode's arm. -/
theorem decodeCommand_cases (v : Word) :
    (bits v.toNat 63 27 ≠ 0 ∧ decodeCommand v = .error .reservedBits) ∨
      (bits v.toNat 63 27 = 0 ∧ bits v.toNat 7 0 ∉ opcodes ∧ decodeCommand v = .error .illegalOpcode) ∨
      (bits v.toNat 63 27 = 0 ∧ bits v.toNat 7 0 ∈ opcodes ∧ ∃ f sel i, DecoderArm v.toNat (bits v.toNat 7 0) f sel i ∧
        decodeCommand v = f.accept sel v.toNat i) := by
  by_cases hr : bits v.toNat 63 27 = 0
  swap
  · exact .inl ⟨hr, if_pos hr⟩
  have he : decodeCommand v = _ := if_neg (not_not.mpr hr)
  by_cases ho : bits v.toNat 7 0 ∈ opcodes
  · refine .inr (.inr ⟨hr, ho, ?_⟩)
    rw [he]
    generalize bits v.toNat 7 0 = opc at ho ⊢
    simp only [opcodes, List.mem_cons, List.not_mem_nil, or_false] at ho
    rcases ho with rfl | rfl | rfl | rfl | rfl | rfl | rfl | rfl | rfl | rfl | rfl | rfl | rfl | rfl | rfl <;>
      exact ⟨_, _, _, by constructor, rfl⟩
  · refine .inr (.inl ⟨hr, ho, ?_⟩)
    rw [he]
    generalize bits v.toNat 7 0 = opc at ho ⊢
    simp only [opcodes, List.mem_cons, List.not_mem_nil, or_false, not_or] at ho
    split <;> simp_all

/-- An arm's command is well formed, and where the unused fields are 0 its word is the value decoded. -/
theorem decoderArm_encode {v : Word} {f : Format} {sel : Bool} {i : Instr} (hr : bits v.toNat 63 27 = 0)
    (ha : DecoderArm v.toNat (bits v.toNat 7 0) f sel i) (hz : f.unusedZero sel v.toNat = true) :
    i.wellFormed = true ∧ encode i = v := by
  have hs := bits_sel_lt v.toNat
  have hv := commandWord_of_hasFields ⟨hr, rfl, rfl, rfl, rfl, rfl, rfl⟩
  generalize bits v.toNat 7 0 = opc at ha hv
  cases ha with
  | mfact | mullazy =>
    simp only [Format.unusedZero, Bool.true_or, Bool.and_true, Bool.and_eq_true, beq_iff_eq] at hz
    simpa [Instr.wellFormed, encode, regField_val, shiftSel_ofNat hs, hz] using hv
  | reduce =>
    simp only [Format.unusedZero, Bool.true_or, Bool.and_true, Bool.and_eq_true, beq_iff_eq] at hz
    simpa [Instr.wellFormed, encode, regField_val, factorSel_ofNat hs, hz] using hv
  | fntt | intt =>
    simp only [Format.unusedZero, Bool.true_or, Bool.and_true, Bool.and_eq_true, beq_iff_eq] at hz
    simpa [Instr.wellFormed, encode, modeSel_ofNat hs, hz] using hv
  | mulmod | mulmodp | bred | addmod | submod | powmod | invmod | bitrev | brevbuf | tbuild =>
    simp only [Format.unusedZero, Bool.false_or, Bool.and_eq_true, beq_iff_eq] at hz
    simpa [Instr.wellFormed, encode, regField_val, hz] using hv

/-- Settles O2: an arm of the decoder that accepts has read every bit of the value, so the word of its command is the value. -/
theorem encodeOfDecodeIsIdentity : Obligations.EncodeOfDecodeIsIdentity := by
  intro v i h
  rcases decodeCommand_cases v with ⟨-, he⟩ | ⟨-, -, he⟩ | ⟨hr, -, f, sel, j, ha, he⟩
  · rw [he] at h
    cases h
  · rw [he] at h
    cases h
  · rw [he] at h
    obtain ⟨hz, rfl⟩ := accept_eq_ok.mp h
    exact decoderArm_encode hr ha hz

/-! ## The unused fields as a mask -/

/-- A field of a bitwise and. -/
theorem bits_and (a b hi lo : Nat) : bits (a &&& b) hi lo = bits a hi lo &&& bits b hi lo := by
  rw [bits, Nat.and_div_two_pow, Nat.and_mod_two_pow]
  rfl

/-- The word whose bits are those that a format fixes: the opcode, the fields it marks 0 and, where the opcode does not use it, SEL
(R91), with the five reserved bits below bit 32. -/
def opcodeMask (f : Format) (sel : Bool) : Nat :=
  (match f with
    | .f0 => 0xF8FFFFFF
    | .f1s => 0xF8FF0FFF
    | .f1 => 0xF8FF00FF
    | .f2 => 0xF8F000FF
    | .f3 => 0xF80000FF)
  + if sel then 0 else 0x07000000

/-- A four-bit field under the mask's ones or its zeros, and SEL likewise. -/
theorem bits_and_ones (c lo : Nat) : bits c (lo + 3) lo &&& 15 = bits c (lo + 3) lo := by
  rw [bits, Nat.add_sub_cancel_left]
  exact (Nat.and_two_pow_sub_one_eq_mod _ 4).trans (Nat.mod_mod _ _)

theorem bits_sel_and_ones (c : Nat) : bits c 26 24 &&& 7 = bits c 26 24 :=
  (Nat.and_two_pow_sub_one_eq_mod _ 3).trans (Nat.mod_mod _ _)

theorem bits_opcode_and_ones (c : Nat) : bits c 7 0 &&& 255 = bits c 7 0 :=
  (Nat.and_two_pow_sub_one_eq_mod _ 8).trans (Nat.mod_mod _ _)

/-- A word with no reserved bit is its opcode alone where every other field is 0. -/
theorem eq_opcode_iff {w : Word} {opc : Nat} (hr : bits w.toNat 63 27 = 0) (ho : bits w.toNat 7 0 = opc) :
    w = BitVec.ofNat 64 opc ↔ bits w.toNat 11 8 = 0 ∧ bits w.toNat 15 12 = 0 ∧ bits w.toNat 19 16 = 0 ∧
      bits w.toNat 23 20 = 0 ∧ bits w.toNat 26 24 = 0 := by
  have hlt : opc < 256 := ho ▸ Nat.mod_lt _ (by decide)
  constructor
  · rintro rfl
    simp only [bits, BitVec.toNat_ofNat]
    omega
  · rintro ⟨h1, h2, h3, h4, h5⟩
    rw [← commandWord_of_hasFields ⟨hr, ho, h1, h2, h3, h4, h5⟩]
    simp [commandWord]

/-- The third check of R101 read off the mask: the unused fields are 0 where the masked value is the opcode. -/
theorem unusedZero_iff_mask {v : Word} (f : Format) (sel : Bool) (hr : bits v.toNat 63 27 = 0) :
    f.unusedZero sel v.toNat = true ↔ v &&& BitVec.ofNat 64 (opcodeMask f sel) = BitVec.ofNat 64 (bits v.toNat 7 0) := by
  have hfield (hi lo : Nat) : bits (v &&& BitVec.ofNat 64 (opcodeMask f sel)).toNat hi lo =
      bits v.toNat hi lo &&& bits (opcodeMask f sel) hi lo := by
    rw [BitVec.toNat_and, bits_and, BitVec.toNat_ofNat, Nat.mod_eq_of_lt]
    cases f <;> cases sel <;> decide
  have hopc : bits (opcodeMask f sel) 7 0 = 255 := by cases f <;> cases sel <;> rfl
  rw [eq_opcode_iff (by rw [hfield, hr, Nat.zero_and]) (by rw [hfield, hopc, bits_opcode_and_ones])]
  simp only [hfield]
  have h8 := bits_and_ones v.toNat 8
  have h12 := bits_and_ones v.toNat 12
  have h16 := bits_and_ones v.toNat 16
  have h20 := bits_and_ones v.toNat 20
  have h24 := bits_sel_and_ones v.toNat
  have hm (hi lo : Nat) : bits (opcodeMask f sel) hi lo = opcodeMask f sel / 2 ^ lo % 2 ^ (hi - lo + 1) := rfl
  cases f <;> cases sel <;> simp_all [Format.unusedZero, opcodeMask, and_assoc]

/-- Bits [63:27] are 0 below 2^27 only. -/
theorem bits_reserved_eq_zero_iff (v : Word) : bits v.toNat 63 27 = 0 ↔ v.toNat < 2 ^ 27 := by
  have hv := v.isLt
  rw [bits]
  omega

/-- The opcode is the low byte. -/
theorem bits_opcode_eq (c : Nat) : bits c 7 0 = c % 256 := by simp [bits]

/-- An opcode has one arm. -/
theorem decoderArm_unique {c opc : Nat} {f f' : Format} {sel sel' : Bool} {i i' : Instr} (h : DecoderArm c opc f sel i)
    (h' : DecoderArm c opc f' sel' i') : f = f' ∧ sel = sel' ∧ i = i' := by
  cases h <;> cases h' <;> exact ⟨rfl, rfl, rfl⟩

/-- The opcode of an arm is in the map. -/
theorem decoderArm_mem {c opc : Nat} {f : Format} {sel : Bool} {i : Instr} (h : DecoderArm c opc f sel i) : opc ∈ opcodes := by
  cases h <;> decide

/-- With no reserved bit, a value whose opcode has this arm raises UNUSED_FIELD exactly where the mask shows a bit beside the
opcode. -/
theorem decode_unusedField_iff {v : Word} {opc : Nat} {f : Format} {sel : Bool} {i : Instr} (hlt : v.toNat < 2 ^ 27)
    (ho : v.toNat % 256 = opc) (ha : DecoderArm v.toNat opc f sel i) :
    decodeCommand v = .error .unusedField ↔ v &&& BitVec.ofNat 64 (opcodeMask f sel) ≠ BitVec.ofNat 64 opc := by
  have hr := (bits_reserved_eq_zero_iff v).mpr hlt
  rw [← bits_opcode_eq] at ho
  subst ho
  rcases decodeCommand_cases v with ⟨h, -⟩ | ⟨-, h, -⟩ | ⟨-, -, f', sel', i', ha', he⟩
  · exact absurd hr h
  · exact absurd (decoderArm_mem ha) h
  · obtain ⟨rfl, rfl, rfl⟩ := decoderArm_unique ha ha'
    rw [he, accept_eq_error, ← Bool.not_eq_true, unusedZero_iff_mask f sel hr]
    exact and_iff_left rfl

/-- Settles O4: R101's three checks in order, the last by the mask of the opcode's arm. -/
theorem illegalEncodingsAreExactlyThese : Obligations.IllegalEncodingsAreExactlyThese := by
  intro v
  refine ⟨?reservedBits, ?illegalOpcode, fun row hrow hlt ho => ?unusedField⟩
  case reservedBits =>
    rw [← Nat.not_lt, ← bits_reserved_eq_zero_iff]
    rcases decodeCommand_cases v with ⟨h, he⟩ | ⟨h, -, he⟩ | ⟨h, -, f, sel, i, -, he⟩
    · simp [he, h]
    · simp [he, h]
    · simp [he, h, accept_eq_error]
  case illegalOpcode =>
    change _ ↔ _ ∧ _ ∉ opcodes
    rw [← bits_reserved_eq_zero_iff, ← bits_opcode_eq]
    rcases decodeCommand_cases v with ⟨h, he⟩ | ⟨h, ho, he⟩ | ⟨h, ho, f, sel, i, -, he⟩
    · simp [he, h]
    · simp [he, h, ho]
    · simp [he, h, ho, accept_eq_error]
  case unusedField =>
    simp only [List.mem_cons, List.not_mem_nil, or_false] at hrow
    rcases hrow with rfl | rfl | rfl | rfl | rfl | rfl | rfl | rfl | rfl | rfl | rfl | rfl | rfl | rfl | rfl
    · exact decode_unusedField_iff hlt ho .mfact
    · exact decode_unusedField_iff hlt ho .mullazy
    · exact decode_unusedField_iff hlt ho .mulmod
    · exact decode_unusedField_iff hlt ho .mulmodp
    · exact decode_unusedField_iff hlt ho .bred
    · exact decode_unusedField_iff hlt ho .reduce
    · exact decode_unusedField_iff hlt ho .addmod
    · exact decode_unusedField_iff hlt ho .submod
    · exact decode_unusedField_iff hlt ho .powmod
    · exact decode_unusedField_iff hlt ho .invmod
    · exact decode_unusedField_iff hlt ho .bitrev
    · exact decode_unusedField_iff hlt ho .brevbuf
    · exact decode_unusedField_iff hlt ho .tbuild
    · exact decode_unusedField_iff hlt ho .fntt
    · exact decode_unusedField_iff hlt ho .intt

/-- Settles O3: the four examples of R103, each way. -/
theorem assemblyExamplesDecode : Obligations.AssemblyExamplesDecode :=
  ⟨rfl, rfl, rfl, rfl, rfl, rfl, rfl, rfl⟩

end Sys2Proof.Machine

/-! # Completion (60_exceptions.md R223 to R226): what a completed command leaves

All that exec can leave, one case a kind of completion; then the completion step of a pending command, the report of an error, and
the frames of scalar and array commands. -/

namespace Sys2Proof.Machine

/-! ## The kinds of completion -/

/-- The transform command of a direction. -/
def transformInstr : Direction → ModeSel → Instr
  | .fwd, m => .fntt m
  | .inv, m => .intt m

/-- What a transform of a direction computes on a path (43_ntt.md R171, R179). -/
def State.transformOutput (s : State) : Direction → NttPath → List Word
  | .fwd, p => s.forwardOutput p
  | .inv, p => s.inverseOutput p

/-- The states that the completion of i can leave: a check's error, a scalar's result, the reversed buffer, the tables, or the end of
a transform with its postcondition met or not. -/
inductive Completed (i : Instr) (s : State) : State → Prop where
  | raised (d : Detail) (hd : RaisedByCheck d) : Completed i s (s.raise d)
  | scalar (rd : Reg) (v : Word) (hrd : destination i = some rd) : Completed i s (s.writeX rd v).succeed
  | reversed (hi : i = .brevbuf) (hpow : s.n = 2 ^ s.n.log2) (hmax : s.n ≤ s.nMax) :
      Completed i s (s.storeArray .buf (bitReversed (s.loadArray .buf s.n))).succeed
  | built (r : Reg) (hi : i = .tbuild r) (hroot : RootAccepted s.n s.q (s.src r)) (hmax : s.n ≤ s.nMax) :
      Completed i s (s.buildTables s.n s.q (s.src r)).succeed
  | transformed (dir : Direction) (m : ModeSel) (p : NttPath) (hi : i = transformInstr dir m) (hv : Validated s dir m p)
      (hlt : ∀ w ∈ s.transformOutput dir p, w.toNat < s.q) :
      Completed i s
        (State.succeed { s.storeArray .buf (s.transformOutput dir p) with status := { s.status with lastPath := some p } })
  | postcondition (dir : Direction) (m : ModeSel) (p : NttPath) (hi : i = transformInstr dir m) (hv : Validated s dir m p)
      (hge : ∃ w ∈ s.transformOutput dir p, s.q ≤ w.toNat) :
      Completed i s ((s.storeArray .buf (s.transformOutput dir p)).raise .postcondition)

/-- Every command completes, in one of these ways. -/
theorem exec_completes (i : Instr) (s : State) : ∃ t, exec i s = .next t ∧ Completed i s t := by
  have transform : ∀ dir m p, i = transformInstr dir m → Validated s dir m p →
      exec i s = s.finishTransform p (s.transformOutput dir p) → ∃ t, exec i s = .next t ∧ Completed i s t := by
    intro dir m p hi hv he
    rw [he]
    rcases finishTransform_cases s p (s.transformOutput dir p) with ⟨hlt, hf⟩ | ⟨hge, hf⟩
    · exact ⟨_, hf, .transformed dir m p hi hv hlt⟩
    · exact ⟨_, hf, .postcondition dir m p hi hv hge⟩
  rcases exec_cases i s with ⟨d, hd, he⟩ | ⟨rd, v, hrd, he⟩ | ⟨hi, ⟨hpow, -, hmax⟩, he⟩ | ⟨r, hi, hroot, hmax, he⟩ |
    ⟨m, p, hi, hv, he⟩ | ⟨m, p, hi, hv, he⟩
  · exact ⟨_, he, .raised d hd⟩
  · exact ⟨_, he, .scalar rd v hrd⟩
  · exact ⟨_, he, .reversed hi hpow hmax⟩
  · exact ⟨_, he, .built r hi hroot hmax⟩
  · exact transform .fwd m p hi hv he
  · exact transform .inv m p hi hv he

/-- Whatever state exec answers is one of these. -/
theorem completed_of_exec {i : Instr} {s t : State} (h : exec i s = .next t) : Completed i s t := by
  obtain ⟨u, hu, hc⟩ := exec_completes i s
  rw [h] at hu
  cases hu
  exact hc

/-- A transform computes as many words as the degree. -/
theorem transformOutput_length {s : State} {dir : Direction} {m : ModeSel} {p : NttPath} (hv : Validated s dir m p) :
    (s.transformOutput dir p).length = s.n := by
  cases dir with
  | fwd => exact forwardOutput_length s p hv.degreePow
  | inv => exact inverseOutput_length s p hv.degreePow hv.degreeMin

/-- A command with no destination register is no scalar command, and one with a destination is one. -/
theorem destination_transformInstr (dir : Direction) (m : ModeSel) : destination (transformInstr dir m) = none := by
  cases dir <;> rfl

/-- Every completion ends the command and reports a class that matches its detail. -/
theorem completed_report {i : Instr} {s t : State} (h : Completed i s t) :
    t.pending = none ∧ t.status.done = true ∧ t.status.err = t.status.errDetail.errClass := by
  cases h <;> exact ⟨rfl, rfl, rfl⟩

/-- Settles O7. -/
theorem everyCommandCompletes : Obligations.EveryCommandCompletes := by
  intro i s
  obtain ⟨t, ht, hc⟩ := exec_completes i s
  obtain ⟨hp, hdone, herr⟩ := completed_report hc
  exact ⟨t, ht, by rw [State.busy, hp]; rfl, hdone, herr⟩

/-! ## The completion step of a pending command -/

section
variable {s : State} {p : Pending}

/-- Out of reset the completion step runs the pending command that decodes. -/
theorem completionStep_of_decodes {i : Instr} (hreset : s.inReset = false) (hp : s.pending = some p)
    (hd : decodeCommand p.word = .ok i) : s.completionStep = exec i s := by
  simp [State.completionStep, hreset, hp, hd]

/-- It raises the error of one that does not decode (30_encoding.md R98). -/
theorem completionStep_of_illegal {e : DecodeError} (hreset : s.inReset = false) (hp : s.pending = some p)
    (hd : decodeCommand p.word = .error e) : s.completionStep = .next (s.raise (detailOfDecodeError e)) := by
  simp [State.completionStep, hreset, hp, hd]

/-- With no input left a step is the completion step. -/
theorem step_of_no_inputs (hin : s.inputs = []) : step s = s.completionStep := by
  rw [step, State.nextStep, hin]

/-- All that a step with no input left does to a pending command: an illegal encoding's error, or the command's completion. -/
theorem step_completes {t : State} (hreset : s.inReset = false) (hin : s.inputs = []) (hp : s.pending = some p)
    (h : step s = .next t) :
    (∃ e, decodeCommand p.word = .error e ∧ t = s.raise (detailOfDecodeError e)) ∨
      ∃ i, decodeCommand p.word = .ok i ∧ Completed i s t := by
  rw [step_of_no_inputs hin] at h
  cases hd : decodeCommand p.word with
  | error e =>
    rw [completionStep_of_illegal hreset hp hd] at h
    cases h
    exact .inl ⟨e, rfl, rfl⟩
  | ok i =>
    rw [completionStep_of_decodes hreset hp hd] at h
    exact .inr ⟨i, rfl, completed_of_exec h⟩

end

/-- Settles O5: the queue is empty, or its head is the grant of the completion step. -/
theorem stepRunsDecodedCommand : Obligations.StepRunsDecodedCommand := by
  intro s p i hreset hp hd
  refine ⟨fun hin => ?_, fun rest hin => ?_⟩
  · rw [step_of_no_inputs hin, completionStep_of_decodes hreset hp hd]
  · rw [step, State.nextStep, hin]
    exact completionStep_of_decodes (s := { s with inputs := rest }) hreset hp hd

/-! ## Errors -/

/-- An illegal encoding's detail is of class ILLEGAL_COMMAND. -/
theorem detailOfDecodeError_errClass (e : DecodeError) : (detailOfDecodeError e).errClass = .illegalCommand := by
  cases e <;> rfl

/-- A completion that may change the arrays leaves the control registers, the reset input and the model's own fields alone. -/
theorem sameControl_setMem_raise (s : State) (m : Memory) (d : Detail) : SameControl s ((s.setMem m).raise d) := by
  constructor <;> rfl

theorem sameTables_setMem_raise (s : State) (m : Memory) (d : Detail) : SameTables s ((s.setMem m).raise d) := by
  constructor <;> rfl

/-- An error that is not INTERNAL keeps FATAL. -/
theorem raise_fatal {s : State} {d : Detail} (h : d.errClass ≠ .internal) : (s.raise d).status.fatal = s.status.fatal := by
  rw [raise_status, completed_fatal, decide_eq_false, Bool.or_false]
  rintro rfl
  exact h rfl

/-- Settles O10: the completion step raises the detail of the decoder's error, and `raise` changes STATUS and ERR_CMD only. -/
theorem illegalWordCompletesWithError : Obligations.IllegalWordCompletesWithError := by
  intro s p e hreset hin hp hd
  have hclass := detailOfDecodeError_errClass e
  refine ⟨s.raise (detailOfDecodeError e), ?step, rfl, rfl, hclass, ?code, rfl, rfl, rfl,
    sameControl_setMem_raise s s.mem _, sameTables_setMem_raise s s.mem _, rfl, ?fatal, rfl⟩
  case step => rw [step_of_no_inputs hin, completionStep_of_illegal hreset hp hd]
  case code => cases e <;> rfl
  case fatal => exact raise_fatal (by rw [hclass]; decide)

/-- An error that changes at most the arrays, and those for INTERNAL only, is precise (R225). -/
theorem raise_setMem_precise (s : State) (m : Memory) (d : Detail) (hm : d.errClass ≠ .internal → m = s.mem)
    (hbuf : ∀ a, a < 0x01000000 ∨ 0x01000000 + 8 * s.n ≤ a → (s.setMem m).readByte a = s.readByte a) :
    let t := (s.setMem m).raise d
    t.status.err = t.status.errDetail.errClass ∧ t.errCmd = s.cmd ∧
      t.status.fatal = (s.status.fatal || decide (t.status.err = .internal)) ∧
      t.status.lastPath = s.status.lastPath ∧ t.status.hazard = s.status.hazard ∧ t.x = s.x ∧ SameControl s t ∧ SameTables s t ∧
      (t.status.err ≠ .internal → t.mem = s.mem) ∧
      (t.status.err = .internal → ∀ a, a < 0x01000000 ∨ 0x01000000 + 8 * s.n ≤ a → t.readByte a = s.readByte a) :=
  ⟨rfl, rfl, rfl, rfl, rfl, rfl, sameControl_setMem_raise s m d, sameTables_setMem_raise s m d, hm, fun _ => hbuf⟩

/-- The words a transform writes are those of BUF[0 .. n-1] (43_ntt.md R171, R179). -/
theorem readByte_transformOutput_outside {s : State} {dir : Direction} {m : ModeSel} {p : NttPath} (hv : Validated s dir m p) {a : Nat}
    (ha : a < 0x01000000 ∨ 0x01000000 + 8 * s.n ≤ a) :
    (s.storeArray .buf (s.transformOutput dir p)).readByte a = s.readByte a := by
  apply readByte_storeArray_outside
  rwa [transformOutput_length hv]

/-- Settles O9: an error is raised by a check, which leaves the arrays alone, or by the postcondition of a transform, which has
written BUF[0 .. n-1]. -/
theorem errorsArePrecise : Obligations.ErrorsArePrecise := by
  intro s t hreset hin hbusy h herr
  obtain ⟨p, hp⟩ := Option.isSome_iff_exists.mp hbusy
  rcases step_completes hreset hin hp h with ⟨e, -, rfl⟩ | ⟨i, -, hc⟩
  · exact raise_setMem_precise s s.mem _ (fun _ => rfl) fun _ _ => rfl
  · cases hc with
    | raised d hd => exact raise_setMem_precise s s.mem _ (fun _ => rfl) fun _ _ => rfl
    | postcondition dir m path hi hv hge =>
      exact raise_setMem_precise s _ .postcondition (fun h => absurd rfl h) fun a ha => readByte_transformOutput_outside hv ha
    | scalar | reversed | built | transformed => exact absurd rfl herr

/-! ## The frame of a scalar command -/

/-- A completion that writes one register leaves the rest alone. -/
theorem sameControl_writeX_succeed (s : State) (rd : Reg) (v : Word) : SameControl s (s.writeX rd v).succeed := by
  constructor <;> rfl

theorem sameTables_writeX_succeed (s : State) (rd : Reg) (v : Word) : SameTables s (s.writeX rd v).succeed := by
  constructor <;> rfl

/-- Settles O39: a scalar command ends with a check's error or with its result in RD. -/
theorem scalarCommandFrame : Obligations.ScalarCommandFrame := by
  intro i rd s t hrd h
  cases completed_of_exec h with
  | raised d hd =>
    exact ⟨fun _ _ => rfl, fun _ => rfl, fun he => absurd he hd.1, fun _ => rfl, rfl, sameControl_setMem_raise s s.mem d,
      sameTables_setMem_raise s s.mem d, rfl, raise_fatal hd.2, rfl⟩
  | scalar rd' v hrd' =>
    obtain rfl : rd = rd' := Option.some_inj.mp (hrd.symm.trans hrd')
    exact ⟨fun r hr => writeX_get_other s v hr, fun he => absurd rfl he, fun _ => rfl, fun _ => rfl, rfl,
      sameControl_writeX_succeed s rd v, sameTables_writeX_succeed s rd v, rfl, completed_none_fatal _, rfl⟩
  | reversed hi => simp [hi, destination] at hrd
  | built r hi => simp [hi, destination] at hrd
  | transformed dir m p hi => simp [hi, destination_transformInstr] at hrd
  | postcondition dir m p hi => simp [hi, destination_transformInstr] at hrd

/-! ## The frame of an array command -/

/-- The arrays of legal parameters hold at most 2^20 words (00_scope.md R8). -/
theorem nMax_le_of_legal {s : State} (h : s.params.legal = true) : s.nMax ≤ 2 ^ 20 := by
  simp only [Config.Params.legal, Bool.and_eq_true, decide_eq_true_eq] at h
  exact Nat.pow_le_pow_right (by decide) h.1.1.2

theorem sameControl_transformed (s : State) (ws : List Word) (p : NttPath) :
    SameControl s (State.succeed { s.storeArray .buf ws with status := { s.status with lastPath := some p } }) := by
  constructor <;> rfl

theorem sameTables_transformed (s : State) (ws : List Word) (p : NttPath) :
    SameTables s (State.succeed { s.storeArray .buf ws with status := { s.status with lastPath := some p } }) := by
  constructor <;> rfl

theorem sameControl_buildTables_succeed (s : State) (n q g : Nat) : SameControl s (s.buildTables n q g).succeed := by
  constructor <;> simp

/-- TBUILD's update leaves every array byte but those of words 0 to n-1 of the five tables (42_bitrev_table.md R152). -/
theorem readByte_buildTables_outside (s : State) {n : Nat} (q g : Nat) (hn : n ≤ 2 ^ 20) {a : Nat}
    (ha : a < 0x02000000 ∨ 0x07000000 ≤ a ∨ 8 * n ≤ a % 0x01000000) :
    (s.buildTables n q g).succeed.readByte a = s.readByte a := by
  rw [← readByte_storeTables_outside s q g hn ha, readByte_succeed]
  exact readByte_congr _ (buildTables_mem s n q g) (by simp) a

theorem transformInstr_ne_tbuild (dir : Direction) (m : ModeSel) (r : Reg) : transformInstr dir m ≠ .tbuild r := by
  cases dir <;> exact nofun

/-- Settles O40: BREVBUF and the transforms store n words at BUF[0], TBUILD the first n words of the five tables, and an error stores
nothing, POSTCONDITION's transform aside. -/
theorem arrayCommandFrame : Obligations.ArrayCommandFrame := by
  intro i s t hlegal hdest h
  cases completed_of_exec h with
  | raised d hd =>
    exact ⟨rfl, sameControl_setMem_raise s s.mem d, rfl, fun he => absurd he hd.1,
      fun _ => ⟨sameTables_setMem_raise s s.mem d, fun _ _ => rfl⟩, fun _ => ⟨raise_fatal hd.2, rfl, fun _ _ => rfl⟩⟩
  | scalar rd v hrd => simp [hdest] at hrd
  | reversed hi hpow hmax =>
    refine ⟨rfl, sameControl_storeArray_succeed .., rfl, fun _ => rfl, fun _ => ⟨sameTables_storeArray_succeed .., fun a ha => ?_⟩,
      fun ⟨r, hr⟩ => by simp [hi] at hr⟩
    exact readByte_storeArray_outside s (by simpa [ArrayId.base] using ha)
  | built r hi hroot hmax =>
    exact ⟨by simp, sameControl_buildTables_succeed .., by simp, by simp, fun hne => absurd hi (hne r),
      fun _ => ⟨by simp, by simp, fun a ha =>
        readByte_buildTables_outside s s.q _ (hmax.trans (nMax_le_of_legal hlegal)) ha⟩⟩
  | transformed dir m p hi hv hlt =>
    exact ⟨rfl, sameControl_transformed s _ p, rfl, fun _ => rfl,
      fun _ => ⟨sameTables_transformed s _ p, fun a ha => readByte_transformOutput_outside hv ha⟩,
      fun ⟨r, hr⟩ => absurd (hi.symm.trans hr) (transformInstr_ne_tbuild dir m r)⟩
  | postcondition dir m p hi hv hge =>
    exact ⟨rfl, sameControl_setMem_raise s _ _, rfl, nofun,
      fun _ => ⟨sameTables_setMem_raise s _ _, fun a ha => readByte_transformOutput_outside hv ha⟩,
      fun ⟨r, hr⟩ => absurd (hi.symm.trans hr) (transformInstr_ne_tbuild dir m r)⟩

/-! ## LAST_PATH -/

/-- The path AUTO takes in a direction (44_dispatch.md R202, R203). -/
theorem autoPath_eq (s : State) :
    autoPath s.params s.operands.ctrl .fwd s.q = autoForward s ∧ autoPath s.params s.operands.ctrl .inv s.q = autoInverse s :=
  ⟨autoPath_fwd .., autoPath_inv ..⟩

/-- RESOLVE_PATH answers the forced path or AUTO's (R204). -/
theorem resolvePath_ok_eq {params : Config.Params} {ctrl : Ctrl} {dir : Direction} {mode : Option NttPath} {q : Nat} {p : NttPath}
    (h : resolvePath params ctrl dir mode q = .ok p) : p = mode.getD (autoPath params ctrl dir q) := by
  cases mode with
  | none =>
    obtain ⟨-, h⟩ := check_eq_ok.mp h
    cases h
    rfl
  | some p' =>
    obtain ⟨-, h⟩ := check_eq_ok.mp h
    obtain ⟨-, h⟩ := check_eq_ok.mp h
    obtain ⟨-, h⟩ := check_eq_ok.mp h
    cases h
    rfl

/-- The path of a validated transform is the one LAST_PATH is to record (R207). -/
theorem validated_path {s : State} {dir : Direction} {m : ModeSel} {p : NttPath} (hv : Validated s dir m p) :
    p = recordedPath m (autoPath s.params s.operands.ctrl dir s.q) := by
  obtain ⟨mode, hm, hr⟩ := hv.path
  rw [recordedPath, hm]
  exact resolvePath_ok_eq hr

/-- A transform that completes without error records its path. -/
theorem completed_transform_lastPath {s t : State} {dir : Direction} {m : ModeSel} (h : Completed (transformInstr dir m) s t)
    (herr : t.status.err = .none) :
    t.status.lastPath = some (recordedPath m (autoPath s.params s.operands.ctrl dir s.q)) := by
  generalize hi : transformInstr dir m = i at h
  cases h with
  | raised d hd => exact absurd herr hd.1
  | scalar rd v hrd => simp [← hi, destination_transformInstr] at hrd
  | reversed hi' => cases dir <;> simp [← hi, transformInstr] at hi'
  | built r hi' => cases dir <;> simp [← hi, transformInstr] at hi'
  | transformed dir' m' p hi' hv hlt =>
    obtain ⟨rfl, rfl⟩ : dir = dir' ∧ m = m' := by
      cases dir <;> cases dir' <;> simp_all [transformInstr]
    exact congrArg some (validated_path hv)
  | postcondition => simp [Detail.errClass] at herr

/-- Any other completion keeps LAST_PATH: one with an error, and one of a command that is no transform. -/
theorem completed_lastPath_kept {i : Instr} {s t : State} (h : Completed i s t)
    (hkeep : t.status.err ≠ .none ∨ ∀ dir m, i ≠ transformInstr dir m) : t.status.lastPath = s.status.lastPath := by
  cases h with
  | raised | scalar | reversed | built | postcondition => rfl
  | transformed dir m p hi hv hlt => exact absurd hkeep (by simp [hi, Detail.errClass])

/-- Settles O38. -/
theorem lastPathRecordsTransformsOnly : Obligations.LastPathRecordsTransformsOnly := by
  intro s t p hreset hin hp h
  obtain ⟨hfwd, hinv⟩ := autoPath_eq s
  rcases step_completes hreset hin hp h with ⟨e, hd, rfl⟩ | ⟨i, hd, hc⟩
  · simp [hd]
  · rw [hd]
    refine ⟨fun herr m hm => ?forward, fun herr m hm => ?inverse, fun herr => completed_lastPath_kept hc (.inl herr), fun hne =>
      completed_lastPath_kept hc (.inr fun dir m hi => ?other)⟩
    case forward =>
      cases hm
      exact hfwd ▸ completed_transform_lastPath (dir := .fwd) hc herr
    case inverse =>
      cases hm
      exact hinv ▸ completed_transform_lastPath (dir := .inv) hc herr
    case other =>
      obtain ⟨h1, h2⟩ := hne m
      cases dir with
      | fwd => exact h1 (congrArg _ hi)
      | inv => exact h2 (congrArg _ hi)

/-! ## Progress -/

/-- An input that neither asserts reset nor reaches outside the window (70_reset_and_hazards.md R258, 20_memory.md R60). -/
def State.Admits (s : State) : Input → Prop
  | .memRead addr _ => s.inWindow addr = true
  | .memWrite addr _ => s.inWindow addr = true
  | .reset asserted => asserted = false
  | .completion => True

/-- u waits for the same command as s. -/
def SameWait (s u : State) : Prop := u.inputs = s.inputs ∧ u.inReset = s.inReset ∧ u.pending = s.pending ∧ u.params = s.params

/-- No read ends a command. -/
theorem memRead_waits (s : State) (off n : Nat) : SameWait s (s.memRead off n) := by
  rcases memRead_cases s off n with h | ⟨-, h⟩ | h <;> rw [h] <;> exact ⟨rfl, rfl, rfl, rfl⟩

/-- No write to a busy block ends its command (20_memory.md R68). -/
theorem memWrite_waits {s : State} (hbusy : s.busy = true) (off : Nat) (lanes : List Byte) : SameWait s (s.memWrite off lanes) := by
  rcases memWrite_cases s off lanes with h | ⟨-, -, h⟩ | ⟨hidle, -⟩
  · rw [h]
    exact ⟨rfl, rfl, rfl, rfl⟩
  · rw [h]
    exact ⟨rfl, rfl, rfl, rfl⟩
  · rw [hbusy] at hidle
    cases hidle

/-- The completion step of a busy block out of reset completes its command, whatever its word. -/
theorem completionStep_completes {s : State} (hreset : s.inReset = false) (hbusy : s.busy = true) :
    ∃ t, s.completionStep = .next t ∧ t.busy = false ∧ t.status.done = true := by
  obtain ⟨p, hp⟩ := Option.isSome_iff_exists.mp hbusy
  cases hd : decodeCommand p.word with
  | error e => exact ⟨_, completionStep_of_illegal hreset hp hd, rfl, rfl⟩
  | ok i =>
    obtain ⟨t, ht, hidle, hdone, -⟩ := everyCommandCompletes i s
    exact ⟨t, (completionStep_of_decodes hreset hp hd).trans ht, hidle, hdone⟩

/-- An admitted input of a busy block out of reset completes its command, or leaves it waiting. -/
theorem inputStep_progress {s : State} (hreset : s.inReset = false) (hbusy : s.busy = true) {i : Input} (hi : s.Admits i) :
    ∃ t, s.inputStep i = .next t ∧ ((t.busy = false ∧ t.status.done = true) ∨ SameWait s t) := by
  cases i with
  | memRead addr n => exact ⟨_, if_pos hi, .inr (memRead_waits s _ n)⟩
  | memWrite addr lanes => exact ⟨_, if_pos hi, .inr (memWrite_waits hbusy _ lanes)⟩
  | reset asserted =>
    obtain rfl : asserted = false := hi
    refine ⟨s, ?_, .inr ⟨rfl, rfl, rfl, rfl⟩⟩
    simp [State.inputStep, State.setReset, hreset]
  | completion =>
    obtain ⟨t, ht, hdone⟩ := completionStep_completes hreset hbusy
    exact ⟨t, ht, .inl hdone⟩

/-- A step that answers a next state is the first of a run. -/
theorem run_succ_of_step (M : Host.Core) {s t : M.State} (k : Nat) (h : M.step s = .next t) : M.run (k + 1) s = M.run k t := by
  rw [Host.Core.run, h]

/-- By induction on the queue: each input completes the command or leaves it waiting with a shorter queue. -/
theorem pending_completes (l : List Input) (s : State) (hl : s.inputs = l) (hreset : s.inReset = false) (hbusy : s.busy = true)
    (hadmits : ∀ i ∈ l, s.Admits i) :
    ∃ k t, k ≤ l.length + 1 ∧ Host.Core.run core k s = .next t ∧ t.busy = false ∧ t.status.done = true := by
  induction l generalizing s with
  | nil =>
    obtain ⟨t, ht, hdone⟩ := completionStep_completes hreset hbusy
    exact ⟨1, t, le_rfl, run_succ_of_step core 0 ((step_of_no_inputs hl).trans ht), hdone⟩
  | cons i rest ih =>
    have hstep : step s = State.inputStep { s with inputs := rest } i := by rw [step, State.nextStep, hl]
    have hi : State.Admits { s with inputs := rest } i := by
      have := hadmits i (by simp)
      cases i <;> exact this
    obtain ⟨t, ht, hdone | ⟨hin, hr, hp, hparams⟩⟩ := inputStep_progress (s := { s with inputs := rest }) hreset hbusy hi
    · exact ⟨1, t, by simp, run_succ_of_step core 0 (hstep.trans ht), hdone⟩
    · have hrest : ∀ j ∈ rest, t.Admits j := by
        intro j hj
        have := hadmits j (by simp [hj])
        cases j with
        | memRead | memWrite => simpa [State.Admits, State.inWindow, hparams] using this
        | reset | completion => exact this
      obtain ⟨k, u, hk, hrun, hdone⟩ := ih t hin (hr.trans hreset) (by rw [State.busy, hp]; exact hbusy) hrest
      exact ⟨k + 1, u, by simpa using hk, (run_succ_of_step core k (hstep.trans ht)).trans hrun, hdone⟩

/-- Settles O11. -/
theorem pendingCommandCompletesUnlessReset : Obligations.PendingCommandCompletesUnlessReset := by
  intro s hreset hbusy hadmits
  refine pending_completes s.inputs s rfl hreset hbusy fun i hi => ?_
  have := hadmits i hi
  cases i <;> exact this

end Sys2Proof.Machine

/-! # One step (60_exceptions.md, 20_memory.md R60 to R68, 70_reset_and_hazards.md): what it can do to the block

All that a step can leave, one case a kind of step; then the rules on FATAL, HAZARD and the operand registers, and the invariant
`Sound`. -/

namespace Sys2Proof.Machine

/-! ## The kinds of step -/

/-- The states that an accepted write of v at a writable offset can leave, the response aside (20_memory.md R67). -/
inductive Stored (s : State) (v : Word) : Nat → State → Prop where
  | ctrl : Stored s v 0x010 (s.writeCtrl v)
  | modulus : Stored s v 0x030 { s with modulus := v }
  | degree : Stored s v 0x038 { s with degree := v }
  | operand (r : Reg) : Stored s v (0x100 + 8 * r.val) (s.writeX r v)
  | buffer (k : Nat) (hk : k < s.nMax) :
      Stored s v (ArrayId.buf.base + 8 * k) (s.storeBytes (ArrayId.buf.base + 8 * k) (bytesOfWord v))
  | accepted (hfatal : s.status.fatal = false) : Stored s v 0x020 (s.accept v)

/-- The states that a step can leave: nothing but the queue, the response and the draws; a write refused for busy, or stored; a change
of the reset input; or the completion of the pending command. -/
inductive Moved (s : State) : State → Prop where
  | quiet (inputs : List Input) (response : Response) (draws : Nat) :
      Moved s { s with inputs := inputs, response := response, draws := draws }
  | refused (addr : Nat) (lanes : List Byte) (rest : List Input) (hin : s.inputs = .memWrite addr lanes :: rest)
      (hbusy : s.busy = true) : Moved s (State.refuseBusy { s with inputs := rest })
  | stored (off : Nat) (lanes : List Byte) (rest : List Input) (t : State)
      (hin : s.inputs = .memWrite (s.params.blockBase + off) lanes :: rest) (hreset : s.inReset = false) (hidle : s.busy = false)
      (hlen : lanes.length = 8) (ht : Stored { s with inputs := rest } (wordOfBytes lanes) off t) :
      Moved s { t with response := .writeOk }
  | asserted (rest : List Input) (hin : s.inputs = .reset true :: rest) : Moved s { s with inputs := rest, inReset := true }
  | released (rest : List Input) (hin : s.inputs = .reset false :: rest) (hreset : s.inReset = true) :
      Moved s (State.afterReset { s with inputs := rest })
  | illegal (rest : List Input) (p : Pending) (e : DecodeError) (hreset : s.inReset = false) (hp : s.pending = some p)
      (hd : decodeCommand p.word = .error e) : Moved s (State.raise { s with inputs := rest } (detailOfDecodeError e))
  | command (rest : List Input) (p : Pending) (i : Instr) (t : State) (hreset : s.inReset = false) (hp : s.pending = some p)
      (hd : decodeCommand p.word = .ok i) (ht : Completed i { s with inputs := rest } t) : Moved s t

/-- The completion step, taken with any rest of the queue. -/
theorem moved_of_completionStep {s t : State} (rest : List Input) (h : State.completionStep { s with inputs := rest } = .next t) :
    Moved s t := by
  rcases completionStep_cases { s with inputs := rest } with ⟨-, he⟩ | ⟨hreset, p, e, hp, hd, he⟩ | ⟨hreset, p, i, hp, hd, he⟩
  · rw [he] at h
    cases h
    exact .quiet rest s.response s.draws
  · rw [he] at h
    cases h
    exact .illegal rest p e hreset hp hd
  · rw [he] at h
    exact .command rest p i t hreset hp hd (completed_of_exec h)

/-- A read of the window. -/
theorem moved_of_memRead (s : State) (rest : List Input) (off n : Nat) : Moved s (State.memRead { s with inputs := rest } off n) := by
  rcases memRead_cases { s with inputs := rest } off n with h | ⟨-, h⟩ | h <;> rw [h] <;> exact .quiet rest _ _

/-- A write of the window. -/
theorem moved_of_memWrite {s : State} {off : Nat} {lanes : List Byte} {rest : List Input}
    (hin : s.inputs = .memWrite (s.params.blockBase + off) lanes :: rest) :
    Moved s (State.memWrite { s with inputs := rest } off lanes) := by
  rcases memWrite_inv { s with inputs := rest } off lanes with h | ⟨-, hbusy, h⟩ | ⟨hreset, hidle, -, hlen, hst⟩
  · rw [h]
    exact .quiet rest .busError s.draws
  · rw [h]
    exact .refused _ lanes rest hin hbusy
  · have store {t : State} (ht : Stored { s with inputs := rest } (wordOfBytes lanes) off t) :
        Moved s { t with response := .writeOk } := .stored off lanes rest t hin hreset hidle hlen ht
    rcases hst with ⟨rfl, h⟩ | ⟨rfl, h⟩ | ⟨rfl, h⟩ | ⟨r, rfl, h⟩ | ⟨k, hk, rfl, h⟩ | ⟨rfl, hfatal, h⟩
    · exact h ▸ store .ctrl
    · exact h ▸ store .modulus
    · exact h ▸ store .degree
    · exact h ▸ store (.operand r)
    · exact h ▸ store (.buffer k hk)
    · exact h ▸ store (.accepted hfatal)

/-- Whatever state a step answers is one of these. -/
theorem moved_of_step {s t : State} (h : step s = .next t) : Moved s t := by
  rcases step_cases s with ⟨-, he⟩ | ⟨rest, -, he⟩ | ⟨rest, addr, n, -, he⟩ | ⟨rest, addr, lanes, hin, he⟩ | ⟨rest, asserted, hin, he⟩
  · exact moved_of_completionStep s.inputs (he.symm.trans h)
  · exact moved_of_completionStep rest (he.symm.trans h)
  · rw [he, State.busRead] at h
    split at h
    · cases h
      exact moved_of_memRead s rest _ n
    · cases h
  · rw [he, State.busWrite] at h
    split at h
    case isTrue hw =>
      cases h
      have hbase : s.params.blockBase ≤ addr := by
        simp only [State.inWindow, Bool.and_eq_true, decide_eq_true_eq] at hw
        exact hw.1
      refine moved_of_memWrite ?_
      rw [hin]
      simp [Nat.add_sub_cancel' hbase]
    case isFalse => cases h
  · rw [he] at h
    cases h
    rcases setReset_cases { s with inputs := rest } asserted with ⟨rfl, h⟩ | ⟨rfl, hr, h⟩ | ⟨rfl, -, h⟩
    · rw [h]
      exact .asserted rest hin
    · rw [h]
      exact .released rest hin hr
    · rw [h]
      exact .quiet rest s.response s.draws

/-! ## FATAL, HAZARD and the operand registers -/

/-- A completion changes FATAL for INTERNAL only (60_exceptions.md R227). -/
theorem completed_fatal_kept {i : Instr} {s t : State} (h : Completed i s t) :
    t.status.fatal = s.status.fatal ∨ (t.status.fatal = true ∧ t.status.err = .internal) := by
  cases h with
  | raised d hd => exact .inl (raise_fatal hd.2)
  | scalar | reversed | built | transformed => exact .inl (by simp)
  | postcondition => exact .inr ⟨by simp [completed_fatal], rfl⟩

/-- A completion keeps HAZARD (R228). -/
theorem completed_hazard_kept {i : Instr} {s t : State} (h : Completed i s t) : t.status.hazard = s.status.hazard := by
  cases h with
  | raised | scalar | reversed | transformed | postcondition => rfl
  | built => simp

/-- A completion changes an operand register only as the destination of a scalar command without error (10_state.md R31). -/
theorem completed_x_kept {i : Instr} {s t : State} (h : Completed i s t) (r : Reg) :
    t.x[r] = s.x[r] ∨ (t.status.err = .none ∧ destination i = some r) := by
  cases h with
  | scalar rd v hrd =>
    by_cases hr : r = rd
    · exact .inr ⟨rfl, hr ▸ hrd⟩
    · exact .inl (writeX_get_other s v hr)
  | built => exact .inl (by simp)
  | raised | reversed | transformed | postcondition => exact .inl rfl

/-- Settles O47: of the steps only a completion and a release of reset touch FATAL. -/
theorem onlyResetClearsFatal : Obligations.OnlyResetClearsFatal := by
  intro s t h
  have kept {t : State} (ht : t.status.fatal = s.status.fatal) :
      (s.status.fatal = true → t.status.fatal = true ∨ (s.inReset = true ∧ ∃ rest, s.inputs = .reset false :: rest)) ∧
        (s.status.fatal = false → t.status.fatal = true → t.status.err = .internal ∧ s.busy = true ∧ t.busy = false) :=
    ⟨fun hf => .inl (ht.trans hf), fun hf hf' => by rw [ht, hf] at hf'; cases hf'⟩
  cases moved_of_step h with
  | quiet | refused | asserted => exact kept rfl
  | stored off lanes rest u hin hreset hidle hlen hu => exact kept (by cases hu <;> rfl)
  | released rest hin hreset => exact ⟨fun _ => .inr ⟨hreset, rest, hin⟩, nofun⟩
  | illegal rest p e hreset hp hd => exact kept (raise_fatal (by rw [detailOfDecodeError_errClass]; decide))
  | command rest p i _ hreset hp hd hc =>
    rcases completed_fatal_kept hc with hkept | ⟨hset, herr⟩
    · exact kept hkept
    · exact ⟨fun _ => .inl hset, fun _ _ => ⟨herr, by rw [State.busy, hp]; rfl, by rw [State.busy, (completed_report hc).1]; rfl⟩⟩

/-- Settles O48: of the steps only a refusal for busy, a write of CTRL and a release of reset touch HAZARD. -/
theorem hazardChangesOnlyAsListed : Obligations.HazardChangesOnlyAsListed := by
  intro s t h
  have kept {t : State} (ht : t.status.hazard = s.status.hazard) :
      (s.status.hazard = false → t.status.hazard = true →
          s.busy = true ∧ t.response = .busError ∧ ∃ addr lanes rest, s.inputs = .memWrite addr lanes :: rest) ∧
        (s.status.hazard = true → t.status.hazard = false →
          (s.busy = false ∧ ∃ lanes rest, s.inputs = .memWrite (s.params.blockBase + 0x010) lanes :: rest ∧
            (wordOfBytes lanes).getLsbD 8 = true) ∨ (s.inReset = true ∧ ∃ rest, s.inputs = .reset false :: rest)) := by
    rw [ht]
    exact ⟨fun hf hf' => by simp [hf] at hf', fun hf hf' => by simp [hf] at hf'⟩
  cases moved_of_step h with
  | quiet | asserted => exact kept rfl
  | refused addr lanes rest hin hbusy => exact ⟨fun _ _ => ⟨hbusy, rfl, addr, lanes, rest, hin⟩, nofun⟩
  | released rest hin hreset => exact ⟨nofun, fun _ _ => .inr ⟨hreset, rest, hin⟩⟩
  | illegal => exact kept rfl
  | command rest p i _ hreset hp hd hc =>
    have hkept := completed_hazard_kept hc
    exact kept hkept
  | stored off lanes rest u hin hreset hidle hlen hu =>
    cases hu with
    | ctrl =>
      refine ⟨fun hf hset => ?_, fun hf hclear => .inl ⟨hidle, lanes, rest, hin, ?_⟩⟩
      · simp [hf] at hset
      · simpa [hf] using hclear
    | modulus | degree | operand | buffer | accepted => exact kept rfl

/-- Settles O50: of the steps only a write of Xi, a scalar command and a release of reset touch Xi. -/
theorem operandRegisterWriters : Obligations.OperandRegisterWriters := by
  intro s t r h hne
  cases moved_of_step h with
  | quiet | refused | asserted | illegal => exact absurd rfl hne
  | released rest hin hreset => exact .inr (.inr ⟨hreset, rest, hin⟩)
  | command rest p i _ hreset hp hd hc =>
    rcases completed_x_kept hc r with hkept | ⟨herr, hrd⟩
    · exact absurd hkept hne
    · exact .inr (.inl ⟨herr, hreset, by rw [State.busy, (completed_report hc).1]; rfl, p, i, hp, hd, hrd⟩)
  | stored off lanes rest u hin hreset hidle hlen hu =>
    cases hu with
    | ctrl | modulus | degree | buffer | accepted => exact absurd rfl hne
    | operand r' =>
      obtain rfl : r = r' := by
        by_contra hr
        exact hne (writeX_get_other { s with inputs := rest } _ hr)
      exact .inl ⟨hreset, hidle, lanes, rest, by rw [hin, Nat.add_assoc], hlen, writeX_get_same { s with inputs := rest } r _⟩

/-! ## The invariant `Sound` -/

/-- A memory of s in its one form, inside the arrays (20_memory.md R61). -/
structure SoundMemory (s : State) (m : Memory) : Prop where
  canonical : Memory.wf m = true
  inside : ∀ c ∈ m, inArrays s c.1

/-- A store inside an array keeps the memory sound. -/
theorem SoundMemory.store {s : State} {m : Memory} (hm : SoundMemory s m) (arr : ArrayId) {a : Nat} {bs : List Byte}
    (hlo : arr.base ≤ a) (hhi : a + bs.length ≤ arr.base + 8 * s.nMax) : SoundMemory s (m.store a bs) := by
  refine ⟨store_wf hm.canonical a bs, fun c hc => ?_⟩
  rcases mem_store hc with hc | ⟨h1, h2⟩
  · exact hm.inside c hc
  · exact ⟨arr, hlo.trans h1, h2.trans_le hhi⟩

/-- So does a store of words from an array's word 0 on. -/
theorem SoundMemory.storeWords {s : State} {m : Memory} (hm : SoundMemory s m) (arr : ArrayId) {ws : List Word}
    (hl : ws.length ≤ s.nMax) : SoundMemory s (m.storeWords arr ws) :=
  hm.store arr le_rfl (by rw [flatMap_bytes_length]; omega)

/-- A completion keeps the memory sound. -/
theorem completed_soundMemory {i : Instr} {s t : State} (h : Completed i s t) (hm : SoundMemory s s.mem) : SoundMemory s t.mem := by
  cases h with
  | raised | scalar => exact hm
  | reversed hi hpow hmax => exact hm.storeWords .buf (by simpa using hmax)
  | built r hi hroot hmax =>
    rw [succeed_mem, buildTables_mem]
    exact ((((hm.storeWords .fwdPow (by simpa using hmax)).storeWords .fwdPre64 (by simpa using hmax)).storeWords .fwdPre52
      (by simpa using hmax)).storeWords .invPow (by simpa using hmax)).storeWords .invPre64 (by simpa using hmax)
  | transformed dir m p hi hv hlt => exact hm.storeWords .buf ((transformOutput_length hv).trans_le hv.degreeMax)
  | postcondition dir m p hi hv hge => exact hm.storeWords .buf ((transformOutput_length hv).trans_le hv.degreeMax)

/-- A completion leaves the parameters and CTRL alone. -/
theorem completed_params_ctrl {i : Instr} {s t : State} (h : Completed i s t) : t.params = s.params ∧ t.ctrl = s.ctrl := by
  cases h with
  | raised | scalar | reversed | transformed | postcondition => exact ⟨rfl, rfl⟩
  | built => exact ⟨by simp, by simp⟩

/-- The status a completion leaves is that of the command with one detail reported. -/
theorem completed_status {i : Instr} {s t : State} (h : Completed i s t) :
    ∃ (st : Status) (d : Detail), st.fatal = s.status.fatal ∧ t.status = st.completed d := by
  cases h with
  | raised d hd => exact ⟨s.status, d, rfl, rfl⟩
  | scalar => exact ⟨s.status, .none, rfl, rfl⟩
  | reversed => exact ⟨s.status, .none, rfl, rfl⟩
  | built r => exact ⟨(s.buildTables s.n s.q (s.src r)).status, .none, by simp, rfl⟩
  | transformed dir m p => exact ⟨{ s.status with lastPath := some p }, .none, rfl, rfl⟩
  | postcondition => exact ⟨s.status, .postcondition, rfl, rfl⟩

/-- A busy block whose state is sound has FATAL 0: nothing is accepted with FATAL 1 (60_exceptions.md R220, R227). -/
theorem Sound.fatal_of_busy {s : State} (h : s.Sound) (hbusy : s.busy = true) : s.status.fatal = false := by
  rw [← Bool.not_eq_true, h.fatalIsPostcondition, (h.busyReport hbusy).2]
  decide

/-- The end of a pending command leaves a sound state where it keeps the memory sound. -/
theorem sound_of_completion {s t : State} (h : s.Sound) (hbusy : s.busy = true) (hp : t.pending = none) (hparams : t.params = s.params)
    (hctrl : t.ctrl = s.ctrl) (hm : SoundMemory s t.mem) {st : Status} {d : Detail} (hst : st.fatal = s.status.fatal)
    (ht : t.status = st.completed d) : t.Sound where
  paramsLegal := hparams ▸ h.paramsLegal
  memCanonical := hm.canonical
  memInArrays c hc := by
    unfold inArrays
    rw [hparams]
    exact hm.inside c hc
  wideEnable := by
    rw [hparams, hctrl]
    exact h.wideEnable
  narrowEnable := by
    rw [hparams, hctrl]
    exact h.narrowEnable
  errMatchesDetail := by rw [ht]; rfl
  fatalIsPostcondition := by
    rw [ht, completed_fatal, hst, Sound.fatal_of_busy h hbusy]
    simp
  busyReport hb := by simp [State.busy, hp] at hb
  pendingIsCmd p hp' := by simp [hp] at hp'
  snapshotIsLive p hp' := by simp [hp] at hp'

section
variable (params : Config.Params) (inputs : List Input) (response : Response) (draws resets : Nat)

/-- The state with every reset value, for any parameters: what a release of reset leaves (10_state.md R54, 70_reset_and_hazards.md
R250). -/
def State.withResetValues : State :=
  { State.reset with params := params, inputs := inputs, response := response, draws := draws, resets := resets }

/-- A release of reset leaves the reset values. -/
theorem afterReset_eq (s : State) : s.afterReset = .withResetValues s.params s.inputs s.response s.draws (s.resets + 1) := rfl

/-- The reset values are sound for legal parameters. -/
theorem sound_withResetValues (h : params.legal = true) : (State.withResetValues params inputs response draws resets).Sound where
  paramsLegal := h
  memCanonical := rfl
  memInArrays c hc := by cases hc
  wideEnable := nofun
  narrowEnable := nofun
  errMatchesDetail := rfl
  fatalIsPostcondition := ⟨nofun, nofun⟩
  busyReport := nofun
  pendingIsCmd _ := nofun
  snapshotIsLive _ := nofun

/-- There the tables agree with TBL_VALID, which is 0. -/
theorem tablesAgree_withResetValues : (State.withResetValues params inputs response draws resets).TablesAgree where
  none _ := ⟨rfl, rfl, rfl⟩
  accepted := nofun
  capacity := Nat.zero_le _
  columns := nofun

end

/-- Settles O55: the reset state holds the reset values for legal parameters. -/
theorem resetStateIsSound : Obligations.ResetStateIsSound :=
  ⟨sound_withResetValues Config.params [] .noAccess 0 0 rfl, tablesAgree_withResetValues Config.params [] .noAccess 0 0⟩

/-- The invariant does not speak of the queue, the response, the draws, the reset input or HAZARD. -/
theorem sound_congr {s : State} (h : s.Sound) (inputs : List Input) (response : Response) (draws : Nat) (inReset hazard : Bool) :
    State.Sound
      { s with
        inputs := inputs, response := response, draws := draws, inReset := inReset, status := { s.status with hazard := hazard } } := by
  obtain ⟨hparams, hwf, hin, hwide, hnarrow, herr, hfat, hreport, hcmd, hsnap⟩ := h
  exact ⟨hparams, hwf, hin, hwide, hnarrow, herr, hfat, hreport, hcmd, hsnap⟩

/-- A write that a sound idle block stores leaves it sound. -/
theorem sound_of_stored {s t : State} {v : Word} {off : Nat} (h : s.Sound) (hidle : s.busy = false) (ht : Stored s v off t) :
    t.Sound := by
  obtain ⟨hparams, hwf, hin, hwide, hnarrow, herr, hfat, hreport, hcmd, hsnap⟩ := h
  have hp : s.pending = none := Option.isNone_iff_eq_none.mp (by simpa [State.busy] using hidle)
  cases ht with
  | ctrl =>
    refine ⟨hparams, hwf, hin, fun hw => ?_, fun hn => ?_, herr, hfat, hreport, hcmd, fun p hp' => ?_⟩
    · exact (Bool.and_eq_true_iff.mp hw).1
    · exact (Bool.and_eq_true_iff.mp hn).1
    · simp [hp] at hp'
  | modulus | degree =>
    exact ⟨hparams, hwf, hin, hwide, hnarrow, herr, hfat, hreport, hcmd, fun p hp' => by simp [hp] at hp'⟩
  | operand r =>
    exact ⟨hparams, hwf, hin, hwide, hnarrow, herr, hfat, hreport, hcmd, fun p hp' => by simp [hp] at hp'⟩
  | buffer k hk =>
    have hm := SoundMemory.store ⟨hwf, hin⟩ .buf (a := ArrayId.buf.base + 8 * k) (bs := bytesOfWord v) (by omega)
      (by rw [bytesOfWord_length]; omega)
    exact ⟨hparams, hm.canonical, hm.inside, hwide, hnarrow, herr, hfat, hreport, hcmd, hsnap⟩
  | accepted hfatal =>
    refine ⟨hparams, hwf, hin, hwide, hnarrow, rfl, ?_, fun _ => ⟨rfl, rfl⟩, fun p hp' => ?_, fun p hp' => ?_⟩
    · simp [hfatal]
    · cases hp'
      rfl
    · cases hp'
      rfl

/-- Settles O56: each kind of step keeps the invariant; a completion by `sound_of_completion`, since its command was pending. -/
theorem everyStepKeepsSoundness : Obligations.EveryStepKeepsSoundness := by
  intro s t h hstep
  have same (rest : List Input) : State.Sound { s with inputs := rest } :=
    sound_congr h rest s.response s.draws s.inReset s.status.hazard
  have hmem (rest : List Input) : SoundMemory { s with inputs := rest } s.mem := ⟨h.memCanonical, h.memInArrays⟩
  cases moved_of_step hstep with
  | quiet inputs response draws => exact sound_congr h inputs response draws s.inReset s.status.hazard
  | refused addr lanes rest hin hbusy => exact sound_congr h rest .busError s.draws s.inReset true
  | stored off lanes rest u hin hreset hidle hlen hu =>
    exact sound_congr (sound_of_stored (same rest) hidle hu) u.inputs .writeOk u.draws u.inReset u.status.hazard
  | asserted rest hin => exact sound_congr h rest s.response s.draws true s.status.hazard
  | released rest hin hreset => exact sound_withResetValues _ _ _ _ _ h.paramsLegal
  | illegal rest p e hreset hp hd =>
    exact sound_of_completion (same rest) (by rw [State.busy, hp]; rfl) rfl rfl rfl (hmem rest) rfl rfl
  | command rest p i _ hreset hp hd hc =>
    obtain ⟨hparams, hctrl⟩ := completed_params_ctrl hc
    obtain ⟨st, d, hst, ht⟩ := completed_status hc
    exact sound_of_completion (same rest) (by rw [State.busy, hp]; rfl) (completed_report hc).1 hparams hctrl
      (completed_soundMemory hc (hmem rest)) hst ht

end Sys2Proof.Machine

/-! # The checks of each command (60_exceptions.md R226)

A rule's result as its list of checks followed by what it computes, command by command; then the settlement. -/

namespace Sys2Proof.Machine

/-! ## A list of checks before a result -/

/-- The result of a rule whose checks, in order, are cs: the first failure's detail, or the rest of the rule. -/
def answered {α : Type} (cs : List (Bool × Detail)) (rest : Except Detail α) : Except Detail α :=
  match firstFailure cs with
  | some d => .error d
  | none => rest

section
variable {α : Type} (cs cs' : List (Bool × Detail)) (rest : Except Detail α)

@[simp] theorem answered_nil : answered [] rest = rest := rfl

theorem answered_cons (b : Bool) (d : Detail) :
    answered ((b, d) :: cs) rest = if b = true then answered cs rest else .error d := by
  cases b <;> rfl

/-- A check of the model in front of a list of checks. -/
theorem check_answered {c : Prop} [Decidable c] {b : Bool} (h : b = true ↔ c) (d : Detail) :
    check c d (answered cs rest) = answered ((b, d) :: cs) rest := by
  rw [answered_cons, check]
  exact if_congr h.symm rfl rfl

theorem answered_append : answered (cs ++ cs') rest = answered cs (answered cs' rest) := by
  induction cs with
  | nil => rfl
  | cons c cs ih => rw [List.cons_append, answered_cons, answered_cons, ih]

variable {cs}

theorem answered_of_none (h : firstFailure cs = none) : answered cs rest = rest := by rw [answered, h]

theorem answered_of_some {d : Detail} (h : firstFailure cs = some d) : answered cs rest = .error d := by rw [answered, h]

end

/-! ## The rules' results as their checks -/

/-- MFACT's checks (R111), those of R101 on SEL first. -/
theorem mfactResult_answered (bs : ShiftSel) (op q : Nat) : mfactResult bs op q =
    answered [((shiftWidth bs).isSome, .badBitshift), (q != 0, .modZero), (decide (op ≤ q), .operandGtMod)]
      (.ok (barrettFactor (widthOf bs) op q)) := by
  cases hbs : shiftWidth bs <;> simp [mfactResult, widthOf, hbs, answered_cons, check]

/-- MULLAZY's checks (R112). -/
theorem mullazyResult_answered (bs : ShiftSel) (x y f q : Nat) : mullazyResult bs x y f q =
    answered [((shiftWidth bs).isSome, .badBitshift), (q != 0, .modZero), (decide (y < q), .operandGeMod),
      (decide (q ≤ 2 ^ widthOf bs - 1), .modTooWide), (decide (x ≤ 2 ^ widthOf bs - 1), .xTooWide)]
      (.ok (lazyMul (widthOf bs) x y f q)) := by
  cases hbs : shiftWidth bs <;> simp [mullazyResult, widthOf, hbs, answered_cons, check]

/-- The checks on a modulus and two operands (R114, R115, R131, R132). -/
theorem operandChecks_answered (a b q : Nat) (v : Except Detail Nat) :
    check (q ≠ 0) .modZero (check (a < q) .operandGeMod (check (b < q) .operandGeMod v)) =
      answered [(q != 0, .modZero), (decide (a < q), .operandGeMod), (decide (b < q), .operandGeMod)] v := by
  simp [answered_cons, check]

/-- The check on a modulus alone (R118, R133). -/
theorem modZero_answered {α : Type} (q : Nat) (v : Except Detail α) : check (q ≠ 0) .modZero v = answered [(q != 0, .modZero)] v := by
  simp [answered_cons, check]

/-- REDUCE's checks (R116). -/
theorem reduceResult_answered (mf : FactorSel) (v q : Nat) : reduceResult mf v q =
    answered [((inputFactor mf).isSome, .badModfactor), (q != 0, .modZero)] (.ok (reduceBy ((inputFactor mf).getD 0) v q)) := by
  cases hmf : inputFactor mf <;> simp [reduceResult, hmf, answered_cons, check]

/-- INVMOD's checks (R134): the gcd is that of the argument before it is reduced. -/
theorem invmodResult_answered (a q : Nat) : invmodResult a q =
    answered [(q != 0, .modZero), (a % q != 0, .notInvertible), (Nat.gcd a q == 1, .notInvertible)] (.ok (invMod (a % q) q)) := by
  simp [invmodResult, answered_cons, check, gcd_mod_left]

/-- BITREV's checks (R150). -/
theorem bitrevResult_answered (v k : Nat) : bitrevResult v k =
    answered [(decide (k ≤ 64), .bitrevWidth), (decide (v < 2 ^ k), .bitrevValue)] (.ok (bitRev k v)) := by
  simp [bitrevResult, answered_cons, check]

/-- CHECK_DEGREE's checks (43_ntt.md R170). -/
theorem checkDegree_answered {α : Type} (s : State) (rest : Except Detail α) :
    checkDegree s.n s.nMax rest = answered (degreeChecks s) rest := by
  rw [degreeChecks, ← check_answered _ _ (powerOfTwo_iff_isPowerOfTwo s.n).symm,
    ← check_answered (c := 2 ≤ s.n ∧ s.n ≤ s.nMax) _ _ (by simp [State.nMax]), answered_nil, checkDegree]

/-- TBUILD's checks on q and the root (42_bitrev_table.md R152, R158). -/
theorem rootChecks_answered {α : Type} (g n q : Nat) (rest : Except Detail α) :
    check (q < Config.fullModBound) .modPathBound (check (q % (2 * n) = 1) .modNotNttFriendly
      (check (g < q) .operandGeMod (check (isPrimitive2n g n q) .rootNotPrimitive rest))) = answered (rootChecks g n q) rest := by
  have hroot : (g ^ (2 * n) % q == 1 && g ^ n % q != 1) = true ↔ isPrimitive2n g n q = true := by simp [isPrimitive2n_iff]
  rw [rootChecks, ← check_answered (c := q < Config.fullModBound) (b := decide (q < 2 ^ 62)) _ _ decide_eq_true_iff,
    ← check_answered _ _ beq_iff_eq, ← check_answered _ _ decide_eq_true_iff, ← check_answered _ _ hroot, answered_nil]

/-- TBUILD's checks (42_bitrev_table.md R152). -/
theorem tbuildResult_answered (s : State) (r : Reg) : tbuildResult (s.src r) s.n s.q s =
    answered (ruleChecks (.tbuild r) s) (.ok (s.buildTables s.n s.q (s.src r))) := by
  rw [tbuildResult, rootChecks_answered, checkDegree_answered, ruleChecks, List.append_assoc, List.singleton_append,
    ← check_answered _ _ bne_iff_ne, answered_append]

/-- RESOLVE_PATH's checks (44_dispatch.md R204). -/
theorem resolvePath_answered (s : State) (dir : Direction) {m : ModeSel} {mode : Option NttPath} (hm : requestedPath m = some mode) :
    resolvePath s.params s.operands.ctrl dir mode s.q =
      answered (pathChecks dir m s) (.ok (mode.getD (autoPath s.params s.operands.ctrl dir s.q))) := by
  unfold pathChecks
  rw [hm]
  cases mode with
  | none => exact check_answered [] _ decide_eq_true_iff _
  | some p =>
    cases p with
    | scalar => exact (resolvePath_forced_always _ _ _ (.inl rfl)).trans (check_answered [] _ decide_eq_true_iff _)
    | reference => exact (resolvePath_forced_always _ _ _ (.inr rfl)).trans (check_answered [] _ decide_eq_true_iff _)
    | wide64 =>
      rw [resolvePath_forced _ _ _ (by simp), ← check_answered _ _ Iff.rfl, ← check_answered _ _ decide_eq_true_iff]
      rfl
    | narrow52 =>
      have hdir : (dir == .fwd) = true ↔ ¬(dir = .inv ∧ NttPath.narrow52 = .narrow52) := by cases dir <;> decide
      rw [← check_answered _ _ hdir, ← check_answered _ _ Iff.rfl, ← check_answered _ _ decide_eq_true_iff]
      rfl

/-- NTT_VALIDATE's checks after the path is resolved (43_ntt.md R170). -/
theorem nttChecks_answered (s : State) (p : NttPath) : s.nttChecks p =
    answered
      [(s.q % (2 * s.n) == 1, .modNotNttFriendly),
        (s.status.tblValid && s.tblN.toNat == s.n && s.tblQ.toNat == s.q, .tableMismatch),
        ((List.range s.n).all fun k => (s.readArray .buf k).toNat < s.q, .elemRange)] (.ok p) := by
  have htable : (s.status.tblValid && s.tblN.toNat == s.n && s.tblQ.toNat == s.q) = true ↔
      s.status.tblValid = true ∧ s.tblN.toNat = s.n ∧ s.tblQ.toNat = s.q := by simp [and_assoc]
  have hrange : ((List.range s.n).all fun k => decide ((s.readArray .buf k).toNat < s.q)) = true ↔
      ((s.loadArray .buf s.n).all fun w => decide (w.toNat < s.q)) = true := by simp [State.loadArray]
  rw [← check_answered _ _ beq_iff_eq, ← check_answered _ _ htable, ← check_answered _ _ hrange]
  rfl

/-- NTT_VALIDATE goes on with the path that the checks of RESOLVE_PATH let through. -/
theorem nttValidate_of_resolvePath {s : State} {dir : Direction} {m : ModeSel} {mode : Option NttPath} {p : NttPath}
    {cs : List (Bool × Detail)} (hm : requestedPath m = some mode)
    (hr : resolvePath s.params s.operands.ctrl dir mode s.q = answered cs (.ok p)) :
    s.nttValidate dir m = check (s.q ≠ 0) .modZero (checkDegree s.n s.nMax (answered cs (s.nttChecks p))) := by
  rw [State.nttValidate, hm, withSelect_some, hr]
  unfold answered
  cases firstFailure cs <;> rfl

/-- NTT_VALIDATE's checks (43_ntt.md R170, 30_encoding.md R101), and the path it answers. -/
theorem nttValidate_answered (s : State) (dir : Direction) (m : ModeSel) : s.nttValidate dir m =
    answered (transformChecks dir m s) (.ok (recordedPath m (autoPath s.params s.operands.ctrl dir s.q))) := by
  unfold transformChecks recordedPath
  cases hm : requestedPath m with
  | none =>
    rw [State.nttValidate, hm]
    rfl
  | some mode =>
    rw [nttValidate_of_resolvePath hm (resolvePath_answered s dir hm), checkDegree_answered, nttChecks_answered, answered_append,
      answered_append, answered_append, modZero_answered]
    rfl

/-! ## The commands -/

/-- A scalar command completes with its checks and its value. -/
theorem exec_scalar_answered {i : Instr} {rd : Reg} (s : State) (hrd : destination i = some rd) :
    ∃ v, exec i s = s.completeScalar rd (answered (ruleChecks i s) (.ok v)) := by
  cases i with
  | mfact _ rs1 bs =>
    cases hrd
    exact ⟨_, congrArg (s.completeScalar rd) (mfactResult_answered bs (s.src rs1) s.q)⟩
  | mullazy _ rs1 rs2 rs3 bs =>
    cases hrd
    exact ⟨_, congrArg (s.completeScalar rd) (mullazyResult_answered bs (s.src rs1) (s.src rs2) (s.src rs3) s.q)⟩
  | mulmod _ rs1 rs2 | mulmodp _ rs1 rs2 _ | addmod _ rs1 rs2 | submod _ rs1 rs2 =>
    cases hrd
    exact ⟨_, congrArg (s.completeScalar rd) (operandChecks_answered (s.src rs1) (s.src rs2) s.q _)⟩
  | bred | powmod =>
    cases hrd
    exact ⟨_, congrArg (s.completeScalar rd) (modZero_answered s.q _)⟩
  | reduce _ rs1 mf =>
    cases hrd
    exact ⟨_, congrArg (s.completeScalar rd) (reduceResult_answered mf (s.src rs1) s.q)⟩
  | invmod _ rs1 =>
    cases hrd
    exact ⟨_, congrArg (s.completeScalar rd) (invmodResult_answered (s.src rs1) s.q)⟩
  | bitrev _ rs1 rs2 =>
    cases hrd
    exact ⟨_, congrArg (s.completeScalar rd) (bitrevResult_answered (s.src rs1) (s.src rs2))⟩
  | brevbuf | tbuild | fntt | intt => cases hrd

/-- A scalar completion whose checks stand in front of its value. -/
theorem completeScalar_answered (s : State) (rd : Reg) (cs : List (Bool × Detail)) (v : Nat) :
    s.completeScalar rd (answered cs (.ok v)) = s.complete (answered cs (.ok (s.writeX rd (BitVec.ofNat 64 v)))) := by
  unfold answered
  cases firstFailure cs <;> rfl

/-- BREVBUF completes with the checks of the degree and the reversed buffer. -/
theorem exec_brevbuf_answered (s : State) : exec .brevbuf s =
    s.complete (answered (ruleChecks .brevbuf s) (.ok (s.storeArray .buf (bitReversed (s.loadArray .buf s.n))))) := by
  rw [exec_brevbuf, checkDegree_answered]
  rfl

/-- TBUILD completes with its checks and the tables. -/
theorem exec_tbuild_answered (r : Reg) (s : State) : exec (.tbuild r) s =
    s.complete (answered (ruleChecks (.tbuild r) s) (.ok (s.buildTables s.n s.q (s.src r)))) :=
  congrArg s.complete (tbuildResult_answered s r)

/-- The checks of a transform are those of NTT_VALIDATE. -/
theorem ruleChecks_transformInstr (dir : Direction) (m : ModeSel) (s : State) :
    ruleChecks (transformInstr dir m) s = transformChecks dir m s := by
  cases dir <;> rfl

/-- A transform raises what NTT_VALIDATE raises. -/
theorem exec_transform_of_error {s : State} {dir : Direction} {m : ModeSel} {d : Detail} (h : s.nttValidate dir m = .error d) :
    exec (transformInstr dir m) s = .next (s.raise d) := by
  cases dir with
  | fwd => rw [transformInstr, exec, execFntt, h]
  | inv => rw [transformInstr, exec, execIntt, h]

/-- It computes on the path NTT_VALIDATE answers. -/
theorem exec_transform_of_ok {s : State} {dir : Direction} {m : ModeSel} {p : NttPath} (h : s.nttValidate dir m = .ok p) :
    exec (transformInstr dir m) s = s.finishTransform p (s.transformOutput dir p) := by
  cases dir with
  | fwd => rw [transformInstr, exec, execFntt, h]; rfl
  | inv => rw [transformInstr, exec, execIntt, h]; rfl

/-! ## The settlement -/

/-- The statement of O8, of one command in one state. -/
def RaisesFirstFailure (i : Instr) (s : State) : Prop :=
  (∀ d, firstFailure (ruleChecks i s) = some d → exec i s = .next (s.raise d)) ∧
    (firstFailure (ruleChecks i s) = none → ∃ t, exec i s = .next t ∧
      (t.status.errDetail = .none ∨ (t.status.errDetail = .postcondition ∧ ∃ m, i = .fntt m ∨ i = .intt m)))

/-- It holds of a command that completes with its checks in front of its result. -/
theorem raisesFirstFailure_of_complete {i : Instr} {s t : State} (h : exec i s = s.complete (answered (ruleChecks i s) (.ok t))) :
    RaisesFirstFailure i s := by
  refine ⟨fun d hd => ?_, fun hn => ⟨t.succeed, ?_, .inl rfl⟩⟩
  · rw [h, answered_of_some _ hd, complete_error]
  · rw [h, answered_of_none _ hn, complete_ok]

/-- It holds of a transform, which has a postcondition after its checks. -/
theorem raisesFirstFailure_transform (dir : Direction) (m : ModeSel) (s : State) : RaisesFirstFailure (transformInstr dir m) s := by
  have hv := nttValidate_answered s dir m
  rw [← ruleChecks_transformInstr] at hv
  refine ⟨fun d hd => exec_transform_of_error (hv.trans (answered_of_some _ hd)), fun hn => ?_⟩
  rw [exec_transform_of_ok (hv.trans (answered_of_none _ hn))]
  rcases finishTransform_cases s (recordedPath m _) (s.transformOutput dir _) with ⟨-, h⟩ | ⟨-, h⟩
  · exact ⟨_, h, .inl rfl⟩
  · exact ⟨_, h, .inr ⟨rfl, m, by cases dir <;> simp [transformInstr]⟩⟩

/-- Settles O8. -/
theorem firstFailingCheckIsRaised : Obligations.FirstFailingCheckIsRaised := by
  intro i s
  cases hrd : destination i with
  | some rd =>
    obtain ⟨v, h⟩ := exec_scalar_answered s hrd
    exact raisesFirstFailure_of_complete (h.trans (completeScalar_answered s rd _ v))
  | none =>
    cases i with
    | brevbuf => exact raisesFirstFailure_of_complete (exec_brevbuf_answered s)
    | tbuild r => exact raisesFirstFailure_of_complete (exec_tbuild_answered r s)
    | fntt m => exact raisesFirstFailure_transform .fwd m s
    | intt m => exact raisesFirstFailure_transform .inv m s
    | _ => cases hrd

end Sys2Proof.Machine

/-! # power_table_rom (42_bitrev_table.md): the tables TBUILD builds, their laws, and the steps that keep them

The arithmetic of an accepted root, the columns after TBUILD, the settlements about TBUILD and the tables' laws; then the steps that
change the tables, and the invariant `TablesAgree`. -/

namespace Sys2Proof.Machine

/-! ## An accepted root -/

/-- An accepted root's modulus is at least 2: its powers are not all the same mod 1 (R158). -/
theorem RootAccepted.one_lt {n q g : Nat} (h : RootAccepted n q g) : 1 < q := by
  have hq1 : q ≠ 1 := by
    rintro rfl
    simpa [Nat.mod_one] using h.rootFull
  have hq0 : q ≠ 0 := by
    rintro rfl
    simpa using h.friendly
  omega

/-- An accepted root is a unit: one of its powers is 1. -/
theorem RootAccepted.coprime {n q g : Nat} (h : RootAccepted n q g) : Nat.gcd g q = 1 := by
  have hn : 2 * n ≠ 0 := by
    have := h.degreeMin
    omega
  have hmod : g ^ (2 * n) ≡ 1 [MOD q] := h.rootFull.trans (Nat.mod_eq_of_lt h.one_lt).symm
  have hpow : Nat.gcd (g ^ (2 * n)) q = 1 := by
    rw [hmod.gcd_eq, Nat.gcd_one_left]
  exact (Nat.coprime_pow_left_iff (Nat.pos_of_ne_zero hn) g q).mp hpow

/-- So each of its powers has an inverse. -/
theorem RootAccepted.coprime_pow {n q g : Nat} (h : RootAccepted n q g) (e : Nat) : Nat.gcd (g ^ e % q) q = 1 := by
  rw [gcd_mod_left]
  exact Nat.Coprime.pow_left e h.coprime

/-! ## The columns after TBUILD -/

section
variable {n q g : Nat}

/-- A number below 2^64 is its word. -/
theorem toWords_getElem_toNat {vs : List Nat} {k : Nat} (hk : k < (toWords vs).length) (hlt : vs[k]'(by simpa using hk) < 2 ^ 64) :
    ((toWords vs)[k]).toNat = vs[k]'(by simpa using hk) := by
  simp only [toWords, List.getElem_map, BitVec.toNat_ofNat]
  exact Nat.mod_eq_of_lt hlt

theorem fwdPowers_getElem {k : Nat} (hk : k < (fwdPowers n q g).length) : (fwdPowers n q g)[k] = g ^ bitRev n.log2 k % q := by
  simp [fwdPowers, powMod_eq]

/-- Words of the forward powers (R153). -/
theorem readArray_fwdPow (s : State) (h : RootAccepted n q g) (hn : n ≤ 2 ^ 20) {k : Nat} (hk : k < n) :
    ((s.storeTables n q g).readArray .fwdPow k).toNat = g ^ bitRev n.log2 k % q := by
  have hlt : g ^ bitRev n.log2 k % q < 2 ^ 64 := (Nat.mod_lt _ (Nat.zero_lt_of_lt h.one_lt)).trans (h.bound.trans (by decide))
  rw [(readArray_storeTables s q g hn hk).1, toWords_getElem_toNat _ (by rwa [fwdPowers_getElem]), fwdPowers_getElem]

/-- A companion of a word below q (R154, R156). -/
theorem companions_getElem_toNat {b : Nat} (hb : b ≤ 64) {ws : List Nat} {k : Nat} (hk : k < (toWords (companions b q ws)).length)
    (hlt : ws[k]'(by simpa using hk) < q) :
    ((toWords (companions b q ws))[k]).toNat = ws[k]'(by simpa using hk) * 2 ^ b / q := by
  obtain ⟨heq, hbound⟩ := barrettFactor_eq hb hlt
  have hget : (companions b q ws)[k]'(by simpa using hk) = ws[k]'(by simpa using hk) * 2 ^ b / q := by simp [companions, heq]
  rw [toWords_getElem_toNat hk (by rw [hget]; exact hbound.trans_le (Nat.pow_le_pow_right (by decide) hb)), hget]

end

/-- TBUILD's update leaves the columns of R153 to R156 (`TableHolds`) for an accepted root. -/
theorem tableHolds_storeTables (s : State) {n q g : Nat} (h : RootAccepted n q g) (hn : n ≤ 2 ^ 20) :
    (s.storeTables n q g).TableHolds n q g := by
  have hq : 0 < q := Nat.zero_lt_of_lt h.one_lt
  have hword {v : Nat} (hv : v < q) : v < 2 ^ 64 := hv.trans (h.bound.trans (by decide))
  have hfwd {k : Nat} (hk : k < n) := readArray_fwdPow s h hn hk
  have hfwdLt {k : Nat} (hk : k < (fwdPowers n q g).length) : (fwdPowers n q g)[k] < q := by
    rw [fwdPowers_getElem]
    exact Nat.mod_lt _ hq
  have hinv {k : Nat} (hk : k < (invPowers n q g).length) :
      (invPowers n q g)[k] < q ∧ g ^ bitRev n.log2 k % q * (invPowers n q g)[k] % q = 1 := by
    have hget : (invPowers n q g)[k] = invMod (g ^ bitRev n.log2 k % q) q := by simp [invPowers, fwdPowers_getElem]
    rw [hget]
    exact invMod_spec h.one_lt (h.coprime_pow _)
  have hinvWord {k : Nat} (hk : k < n) : ((s.storeTables n q g).readArray .invPow k).toNat = (invPowers n q g)[k]'(by simpa) := by
    rw [(readArray_storeTables s q g hn hk).2.2.2.1, toWords_getElem_toNat _ (hword (hinv _).1)]
  refine ⟨fun i hi => ?fwdPow, fun k hk => ?fwdPre64, fun k hk => ?fwdPre52, fun k hk => ?invPow, fun k hk => ?invPre64⟩
  case fwdPow =>
    have hi' : i < 2 ^ n.log2 := h.degreePow ▸ hi
    rw [hfwd ((bitRev_lt _ _).trans_eq h.degreePow.symm), bitRev_bitRev _ _ hi']
  case fwdPre64 =>
    rw [(readArray_storeTables s q g hn hk).2.1, companions_getElem_toNat (by decide) _ (hfwdLt _), hfwd hk, fwdPowers_getElem]
  case fwdPre52 =>
    rw [(readArray_storeTables s q g hn hk).2.2.1, companions_getElem_toNat (by decide) _ (hfwdLt _), hfwd hk, fwdPowers_getElem]
  case invPow =>
    rw [hinvWord hk, hfwd hk]
    exact hinv _
  case invPre64 =>
    rw [(readArray_storeTables s q g hn hk).2.2.2.2, companions_getElem_toNat (by decide) _ (hinv _).1, hinvWord hk]

/-- The columns are those of any state whose table words are the same. -/
theorem State.TableHolds.congr {s t : State} {n q g : Nat} (h : s.TableHolds n q g) (hpow : n = 2 ^ n.log2)
    (he : ∀ arr : ArrayId, arr ≠ .buf → ∀ k < n, t.readArray arr k = s.readArray arr k) : t.TableHolds n q g := by
  have hrev (i : Nat) : bitRev n.log2 i < n := (bitRev_lt _ _).trans_eq hpow.symm
  refine ⟨fun i hi => ?_, fun k hk => ?_, fun k hk => ?_, fun k hk => ?_, fun k hk => ?_⟩
  · rw [he _ (by decide) _ (hrev i), h.fwdPow i hi]
  · rw [he _ (by decide) _ hk, he _ (by decide) _ hk, h.fwdPre64 k hk]
  · rw [he _ (by decide) _ hk, he _ (by decide) _ hk, h.fwdPre52 k hk]
  · rw [he _ (by decide) _ hk, he _ (by decide) _ hk]
    exact h.invPow k hk
  · rw [he _ (by decide) _ hk, he _ (by decide) _ hk, h.invPre64 k hk]

/-- A word of an array after TBUILD's completion is that of its update. -/
theorem readArray_buildTables (s : State) (n q g : Nat) (arr : ArrayId) (k : Nat) :
    (s.buildTables n q g).succeed.readArray arr k = (s.storeTables n q g).readArray arr k :=
  readArray_congr _ fun _ _ => readByte_congr _ (buildTables_mem s n q g) (by simp) _

/-- The columns after TBUILD's completion. -/
theorem tableHolds_buildTables (s : State) {n q g : Nat} (h : RootAccepted n q g) (hn : n ≤ 2 ^ 20) :
    (s.buildTables n q g).succeed.TableHolds n q g :=
  (tableHolds_storeTables s h hn).congr h.degreePow fun arr _ k _ => readArray_buildTables s n q g arr k

/-- The degree and the modulus of a command are words. -/
theorem ofNat_n (s : State) : (BitVec.ofNat 64 s.n).toNat = s.n := Nat.mod_eq_of_lt (BitVec.isLt _)

theorem ofNat_q (s : State) : (BitVec.ofNat 64 s.q).toNat = s.q := Nat.mod_eq_of_lt (BitVec.isLt _)

theorem ofNat_src (s : State) (r : Reg) : (BitVec.ofNat 64 (s.src r)).toNat = s.src r := Nat.mod_eq_of_lt (src_lt s r)

/-- Settles O27: the checks pass, and the update is that of an accepted root. -/
theorem tbuildBuildsTables : Obligations.TbuildBuildsTables := by
  intro rs1 s hlegal hchecks
  have hres : tbuildResult (s.src rs1) s.n s.q s = .ok (s.buildTables s.n s.q (s.src rs1)) :=
    (tbuildResult_answered s rs1).trans (answered_of_none _ hchecks)
  obtain ⟨hroot, hmax, -⟩ := tbuildResult_ok hres
  have hn : s.n ≤ 2 ^ 20 := hmax.trans (nMax_le_of_legal hlegal)
  refine ⟨(s.buildTables s.n s.q (s.src rs1)).succeed, ?exec, hroot, tableHolds_buildTables s hroot hn, ?tblN, ?tblQ, ?tblRoot,
    ?status, rfl, by simp, by simp, sameControl_buildTables_succeed .., fun a ha => readByte_buildTables_outside s _ _ hn ha⟩
  case exec => rw [exec, execTbuild, hres, complete_ok]
  case tblN => rw [succeed_tblN, buildTables_tblN, ofNat_n]
  case tblQ => rw [succeed_tblQ, buildTables_tblQ, ofNat_q]
  case tblRoot => rw [succeed_tblRoot, buildTables_tblRoot, ofNat_src]
  case status => rw [succeed_status, buildTables_status, completed_none_eq]

/-! ## The tables' laws -/

/-- In the residues of the modulus an accepted root has order dividing 2n (R158). -/
theorem RootAccepted.cast_pow_two_mul {n q g : Nat} (h : RootAccepted n q g) : (g : ZMod q) ^ (2 * n) = 1 := by
  have hmod : g ^ (2 * n) % q = 1 % q := h.rootFull.trans (Nat.mod_eq_of_lt h.one_lt).symm
  exact_mod_cast (ZMod.natCast_eq_natCast_iff' _ _ q).mpr hmod

/-- For a prime modulus its n-th power is -1 (R160). -/
theorem RootAccepted.cast_pow_degree {n q g : Nat} (h : RootAccepted n q g) (hq : Nat.Prime q) : (g : ZMod q) ^ n = -1 := by
  have : Fact q.Prime := ⟨hq⟩
  have hsq : (g : ZMod q) ^ n * (g : ZMod q) ^ n = 1 := by
    rw [← pow_add, ← Nat.two_mul]
    exact h.cast_pow_two_mul
  refine (mul_self_eq_one_iff.mp hsq).resolve_left fun hone => ?_
  have hmod : g ^ n % q = 1 % q := (ZMod.natCast_eq_natCast_iff' _ _ q).mp (by exact_mod_cast hone)
  exact h.rootHalf (hmod.trans (Nat.mod_eq_of_lt h.one_lt))

/-- The reversal of 0 is 0. -/
theorem bitRev_zero (k : Nat) : bitRev k 0 = 0 := by
  induction k with
  | zero => rfl
  | succ k ih => rw [bitRev_succ, Nat.zero_div, ih, Nat.zero_mod, Nat.zero_mul]

/-- The reversal of half the degree is 1. -/
theorem bitRev_half {n : Nat} (hpow : n = 2 ^ n.log2) (hmin : 2 ≤ n) : bitRev n.log2 (n / 2) = 1 := by
  obtain ⟨l, hl⟩ := log2_succ hpow hmin
  have hhalf : n / 2 = 0 + 1 * 2 ^ l := by
    rw [hl, Nat.pow_succ] at hpow
    omega
  rw [hl, hhalf, bitRev_top l 0 1 (Nat.two_pow_pos l) (by decide), bitRev_zero]

/-- The forward powers by their index (R153). -/
theorem State.TableHolds.fwdPow_eq {s : State} {n q g : Nat} (h : s.TableHolds n q g) (hpow : n = 2 ^ n.log2) {k : Nat} (hk : k < n) :
    (s.readArray .fwdPow k).toNat = g ^ bitRev n.log2 k % q := by
  have hk' : k < 2 ^ n.log2 := hpow ▸ hk
  rw [← h.fwdPow _ ((bitRev_lt _ _).trans_eq hpow.symm), bitRev_bitRev _ _ hk']

/-- Settles O28: -1 is the root's n-th power, and each column is fixed by the ones before it, the inverses by their property. -/
theorem tableLaws : Obligations.TableLaws := by
  intro s n q g hq hroot hs
  have hpow := hroot.degreePow
  refine ⟨fun k hk => (hs.invPow k hk).2, ?half, ?minusOne, fun t ht k hk => ?words⟩
  case half =>
    have hlt : n / 2 < n := Nat.div_lt_self (by have := hroot.degreeMin; omega) (by decide)
    rw [← hs.fwdPow _ hlt, bitRev_half hpow hroot.degreeMin]
  case minusOne =>
    have hcast : ((g ^ n : Nat) : ZMod q) = ((q - 1 : Nat) : ZMod q) := by
      rw [Nat.cast_pow, hroot.cast_pow_degree hq, Nat.cast_sub hroot.one_lt.le, ZMod.natCast_self, Nat.cast_one, zero_sub]
    rw [(ZMod.natCast_eq_natCast_iff' _ _ q).mp hcast, Nat.mod_eq_of_lt (Nat.sub_lt (Nat.zero_lt_of_lt hroot.one_lt) Nat.one_pos)]
  case words =>
    have hfwd : t.readArray .fwdPow k = s.readArray .fwdPow k :=
      BitVec.eq_of_toNat_eq (by rw [ht.fwdPow_eq hpow hk, hs.fwdPow_eq hpow hk])
    have hinv : t.readArray .invPow k = s.readArray .invPow k := by
      obtain ⟨hlt, hone⟩ := ht.invPow k hk
      obtain ⟨hlt', hone'⟩ := hs.invPow k hk
      rw [hfwd] at hone
      exact BitVec.eq_of_toNat_eq (inverse_unique hlt hlt' hone hone')
    refine ⟨hfwd, BitVec.eq_of_toNat_eq ?_, BitVec.eq_of_toNat_eq ?_, hinv, BitVec.eq_of_toNat_eq ?_⟩
    · rw [ht.fwdPre64 k hk, hs.fwdPre64 k hk, hfwd]
    · rw [ht.fwdPre52 k hk, hs.fwdPre52 k hk, hfwd]
    · rw [ht.invPre64 k hk, hs.invPre64 k hk, hinv]

/-! ## The steps that change the tables -/

/-- The table metadata, the parameters and the table bytes are as they were: what the tables' agreement rests on. -/
structure TablesKept (s t : State) : Prop where
  metadata : SameTables s t
  params : t.params = s.params
  bytes : ∀ a, 0x02000000 ≤ a → t.readByte a = s.readByte a

/-- A store into BUF keeps the tables (20_memory.md R61). -/
theorem readByte_storeArray_buf_high {s : State} {ws : List Word} (hl : ws.length ≤ 2 ^ 20) {a : Nat} (ha : 0x02000000 ≤ a) :
    (s.storeArray .buf ws).readByte a = s.readByte a :=
  readByte_storeArray_outside s (.inr (by simp only [ArrayId.base]; omega))

/-- A completion keeps the tables, TBUILD without error aside. -/
theorem completed_tables {i : Instr} {s t : State} (hlegal : s.params.legal = true) (h : Completed i s t) :
    TablesKept s t ∨ ∃ r, i = .tbuild r ∧ RootAccepted s.n s.q (s.src r) ∧ s.n ≤ s.nMax ∧
      t = (s.buildTables s.n s.q (s.src r)).succeed := by
  have hN := nMax_le_of_legal hlegal
  cases h with
  | raised d hd => exact .inl ⟨sameTables_setMem_raise s s.mem d, rfl, fun _ _ => rfl⟩
  | scalar rd v hrd => exact .inl ⟨sameTables_writeX_succeed s rd v, rfl, fun _ _ => rfl⟩
  | reversed hi hpow hmax =>
    exact .inl ⟨sameTables_storeArray_succeed .., rfl, fun a ha => readByte_storeArray_buf_high (by simpa using hmax.trans hN) ha⟩
  | built r hi hroot hmax => exact .inr ⟨r, hi, hroot, hmax, rfl⟩
  | transformed dir m p hi hv hlt =>
    exact .inl ⟨sameTables_transformed s _ p, rfl, fun a ha =>
      readByte_storeArray_buf_high (((transformOutput_length hv).trans_le hv.degreeMax).trans hN) ha⟩
  | postcondition dir m p hi hv hge =>
    exact .inl ⟨sameTables_setMem_raise s _ _, rfl, fun a ha =>
      readByte_storeArray_buf_high (((transformOutput_length hv).trans_le hv.degreeMax).trans hN) ha⟩

/-- A write the block stores keeps the tables: of the arrays it reaches BUF only (20_memory.md R66). -/
theorem stored_tables {s t : State} {v : Word} {off : Nat} (hlegal : s.params.legal = true) (h : Stored s v off t) :
    TablesKept s t := by
  cases h with
  | ctrl | modulus | degree | operand | accepted => exact ⟨⟨rfl, rfl, rfl, rfl⟩, rfl, fun _ _ => rfl⟩
  | buffer k hk =>
    refine ⟨⟨rfl, rfl, rfl, rfl⟩, rfl, fun a ha => readByte_storeBytes_outside s (.inr ?_)⟩
    have hN := nMax_le_of_legal hlegal
    rw [bytesOfWord_length]
    simp only [ArrayId.base]
    omega

/-- All a step can do to the tables: nothing, a release of reset, or the completion of TBUILD without error. -/
theorem step_tables {s t : State} (hlegal : s.params.legal = true) (h : step s = .next t) :
    TablesKept s t ∨
      (s.inReset = true ∧ ∃ rest, s.inputs = .reset false :: rest ∧
        t = .withResetValues s.params rest s.response s.draws (s.resets + 1)) ∨
      (s.inReset = false ∧ ∃ p r rest, s.pending = some p ∧ decodeCommand p.word = .ok (.tbuild r) ∧
        RootAccepted s.n s.q (s.src r) ∧ s.n ≤ s.nMax ∧
        t = (State.buildTables { s with inputs := rest } s.n s.q (s.src r)).succeed) := by
  cases moved_of_step h with
  | quiet | refused | asserted | illegal => exact .inl ⟨⟨rfl, rfl, rfl, rfl⟩, rfl, fun _ _ => rfl⟩
  | stored off lanes rest u hin hreset hidle hlen hu =>
    obtain ⟨⟨hN, hQ, hR, hV⟩, hparams, hbytes⟩ := stored_tables (s := { s with inputs := rest }) hlegal hu
    exact .inl ⟨⟨hN, hQ, hR, hV⟩, hparams, hbytes⟩
  | released rest hin hreset => exact .inr (.inl ⟨hreset, rest, hin, rfl⟩)
  | command rest p i _ hreset hp hd hc =>
    rcases completed_tables (s := { s with inputs := rest }) hlegal hc with ⟨⟨hN, hQ, hR, hV⟩, hparams, hbytes⟩ |
      ⟨r, rfl, hroot, hmax, ht⟩
    · exact .inl ⟨⟨hN, hQ, hR, hV⟩, hparams, hbytes⟩
    · exact .inr (.inr ⟨hreset, p, r, rest, hp, hd, hroot, hmax, ht⟩)

/-- Settles O49. -/
theorem onlyTbuildOrResetChangesTables : Obligations.OnlyTbuildOrResetChangesTables := by
  intro s t hlegal h
  rcases step_tables hlegal h with hkept | ⟨hreset, rest, hin, -⟩ | ⟨hreset, p, r, rest, hp, hd, -, -, rfl⟩
  · exact .inl ⟨hkept.metadata, hkept.bytes⟩
  · exact .inr (.inl ⟨hreset, rest, hin⟩)
  · exact .inr (.inr ⟨rfl, by simpa using hreset, rfl, p, r, hp, hd⟩)

/-! ## The invariant `TablesAgree` -/

/-- The tables' regions begin at 0x02000000 (20_memory.md R61). -/
theorem table_base_le {arr : ArrayId} (h : arr ≠ .buf) : 0x02000000 ≤ arr.base := by
  cases arr with
  | buf => exact absurd rfl h
  | _ => decide

/-- Where the tables are kept they still agree. -/
theorem tablesAgree_of_kept {s t : State} (h : s.TablesAgree) (hk : TablesKept s t) : t.TablesAgree := by
  obtain ⟨⟨hN, hQ, hR, hV⟩, hparams, hbytes⟩ := hk
  constructor
  case none =>
    rw [hN, hQ, hR, hV]
    exact h.none
  case accepted =>
    rw [hN, hQ, hR, hV]
    exact h.accepted
  case capacity =>
    rw [hN, hparams]
    exact h.capacity
  case columns =>
    rw [hN, hQ, hR, hV]
    intro hvalid
    refine (h.columns hvalid).congr (h.accepted hvalid).degreePow fun arr harr k _ => readArray_congr s fun b _ => hbytes _ ?_
    have := table_base_le harr
    omega

/-- TBUILD's completion leaves tables that agree (R157). -/
theorem tablesAgree_buildTables {s : State} (hlegal : s.params.legal = true) {r : Reg} (hroot : RootAccepted s.n s.q (s.src r))
    (hmax : s.n ≤ s.nMax) : (s.buildTables s.n s.q (s.src r)).succeed.TablesAgree := by
  have hN : (s.buildTables s.n s.q (s.src r)).succeed.tblN.toNat = s.n := by rw [succeed_tblN, buildTables_tblN, ofNat_n]
  have hQ : (s.buildTables s.n s.q (s.src r)).succeed.tblQ.toNat = s.q := by rw [succeed_tblQ, buildTables_tblQ, ofNat_q]
  have hR : (s.buildTables s.n s.q (s.src r)).succeed.tblRoot.toNat = s.src r := by
    rw [succeed_tblRoot, buildTables_tblRoot, ofNat_src]
  constructor
  case none => simp
  case accepted =>
    rw [hN, hQ, hR]
    exact fun _ => hroot
  case capacity =>
    rw [hN, succeed_params, buildTables_params]
    exact hmax
  case columns =>
    rw [hN, hQ, hR]
    exact fun _ => tableHolds_buildTables s hroot (hmax.trans (nMax_le_of_legal hlegal))

/-- Settles O57: a step keeps the tables, clears them with TBL_VALID, or builds them. -/
theorem everyStepKeepsTablesAgreeing : Obligations.EveryStepKeepsTablesAgreeing := by
  intro s t hlegal h hstep
  rcases step_tables hlegal hstep with hkept | ⟨-, rest, -, rfl⟩ | ⟨-, p, r, rest, -, -, hroot, hmax, rfl⟩
  · exact tablesAgree_of_kept h hkept
  · exact tablesAgree_withResetValues ..
  · exact tablesAgree_buildTables (s := { s with inputs := rest }) hlegal hroot hmax

end Sys2Proof.Machine

/-! # ntt_butterfly_engine (43_ntt.md): the transforms in the residues of the modulus

The stages over the residues mod q, which every path's stages compute whatever their word ranges; then the forward law, the inverse
law and the round trip, by induction on the stages, for any roots whose powers are the twiddles. -/

namespace Sys2Proof.Machine

/-! ## Stages over residues -/

/-- What a butterfly computes of a twiddle and a pair. -/
abbrev Pairing (R : Type) := R → R → R → R × R

/-- One stage (R172, R180), as `runStage` takes it. -/
def stage {R : Type} (f : Pairing R) (t : Nat) : (twiddles buf : List R) → List R
  | [], buf => buf
  | w :: ws, buf =>
    let pairs := List.zipWith (f w) (buf.take t) ((buf.drop t).take t)
    pairs.map Prod.fst ++ (pairs.map Prod.snd ++ stage f t ws (buf.drop (2 * t)))

theorem stage_length {R : Type} (f : Pairing R) (t : Nat) (ws buf : List R) (h : buf.length = 2 * t * ws.length) :
    (stage f t ws buf).length = buf.length := by
  induction ws generalizing buf with
  | nil => rfl
  | cons w ws ih =>
    rw [List.length_cons, Nat.mul_add, Nat.mul_one] at h
    have hd : (buf.drop (2 * t)).length = 2 * t * ws.length := by rw [List.length_drop, h, Nat.add_sub_cancel]
    simp only [stage, List.length_append, List.length_map, List.length_zipWith, List.length_take, List.length_drop, ih _ hd]
    omega

theorem tableStage_length {R : Type} (f : Pairing R) {table buf : List R} {t m : Nat} (hm : 2 * m ≤ table.length)
    (hl : buf.length = 2 * t * m) : (stage f t ((table.drop m).take m) buf).length = buf.length := by
  apply stage_length
  rw [List.length_take, List.length_drop, hl, Nat.min_eq_left (by omega)]

section
variable {R : Type} [CommRing R]

/-- FWD_BFLY (43_ntt.md R173). -/
def forwardPair : Pairing R := fun w x y => (x + w * y, x - w * y)

/-- INV_BFLY (R181). -/
def inversePair : Pairing R := fun w x y => (x + y, w * (x - y))

/-- The final stage's pair (R183). -/
def lastPair (c d : R) : Pairing R := fun _ x y => (c * (x + y), d * (x - y))

/-- The forward stages (R172), as `forwardStages` takes them. -/
def forwardResidues (table : List R) : (stages m t : Nat) → List R → List R
  | 0, _, _, buf => buf
  | stages + 1, m, t, buf => forwardResidues table stages (2 * m) (t / 2) (stage forwardPair t ((table.drop m).take m) buf)

/-- The inverse stages but the last (R180), as `inverseStages` takes them. -/
def inverseResidues (table : List R) : (stages m t : Nat) → List R → List R
  | 0, _, _, buf => buf
  | stages + 1, m, t, buf => inverseResidues table stages (m / 2) (2 * t) (stage inversePair t ((table.drop m).take m) buf)

/-- Group i of a stage pairs its words j and j + t with the i-th twiddle (R172, R180). -/
theorem stage_getD (f : Pairing R) (t : Nat) (ws buf : List R) (h : buf.length = 2 * t * ws.length) {i j : Nat}
    (hi : i < ws.length) (hj : j < t) :
    (stage f t ws buf).getD (2 * t * i + j) 0 =
        (f (ws.getD i 0) (buf.getD (2 * t * i + j) 0) (buf.getD (2 * t * i + t + j) 0)).1 ∧
      (stage f t ws buf).getD (2 * t * i + t + j) 0 =
        (f (ws.getD i 0) (buf.getD (2 * t * i + j) 0) (buf.getD (2 * t * i + t + j) 0)).2 := by
  induction ws generalizing buf i with
  | nil => cases hi
  | cons w ws ih =>
    rw [List.length_cons, Nat.mul_add, Nat.mul_one] at h
    have hd : (buf.drop (2 * t)).length = 2 * t * ws.length := by rw [List.length_drop, h, Nat.add_sub_cancel]
    have hlen : (List.zipWith (f w) (buf.take t) ((buf.drop t).take t)).length = t := by
      simp only [List.length_zipWith, List.length_take, List.length_drop]
      omega
    have past (k : Nat) : (stage f t (w :: ws) buf).getD (2 * t + k) 0 = (stage f t ws (buf.drop (2 * t))).getD k 0 := by
      rw [stage, List.getD_append_right _ _ _ _ (by simp only [List.length_map, hlen]; omega), List.length_map, hlen,
        List.getD_append_right _ _ _ _ (by simp only [List.length_map, hlen]; omega), List.length_map, hlen]
      congr 1
      omega
    cases i with
    | zero =>
      have hx : j < buf.length := by omega
      have hy : t + j < buf.length := by omega
      have hpair : (List.zipWith (f w) (buf.take t) ((buf.drop t).take t))[j]? = some (f w buf[j] buf[t + j]) := by
        simp [List.getElem?_zipWith, hj, hx, hy]
      have hmap (g : R × R → R) :
          ((List.zipWith (f w) (buf.take t) ((buf.drop t).take t)).map g).getD j 0 = g (f w buf[j] buf[t + j]) := by
        rw [List.getD_eq_getElem?_getD, List.getElem?_map, hpair]
        rfl
      have hget : buf.getD j 0 = buf[j] ∧ buf.getD (t + j) 0 = buf[t + j] := by simp [List.getD_eq_getElem?_getD, hx, hy]
      simp only [Nat.mul_zero, Nat.zero_add, List.getD_cons_zero, hget]
      constructor
      · rw [stage, List.getD_append _ _ _ _ (by rw [List.length_map, hlen]; exact hj), hmap]
      · rw [stage, List.getD_append_right _ _ _ _ (by simp), List.length_map, hlen, Nat.add_sub_cancel_left,
          List.getD_append _ _ _ _ (by rw [List.length_map, hlen]; exact hj), hmap]
    | succ i =>
      have hdrop (k : Nat) : (buf.drop (2 * t)).getD k 0 = buf.getD (2 * t + k) 0 := by simp [List.getD_eq_getElem?_getD]
      have ih' := ih (buf.drop (2 * t)) hd (Nat.lt_of_succ_lt_succ hi)
      rw [hdrop, hdrop, ← past, ← past] at ih'
      have h1 : 2 * t * (i + 1) + j = 2 * t + (2 * t * i + j) := by ring
      have h2 : 2 * t * (i + 1) + t + j = 2 * t + (2 * t * i + t + j) := by ring
      rw [h1, h2, List.getD_cons_succ]
      exact ih'

/-- Stage m with half size t over the table: group i, of words 2ti to 2ti + 2t - 1, uses the table's word m + i. -/
theorem tableStage_getD (f : Pairing R) {table buf : List R} {t m i j : Nat} (hm : 2 * m ≤ table.length)
    (hl : buf.length = 2 * t * m) (hi : i < m) (hj : j < t) :
    (stage f t ((table.drop m).take m) buf).getD (t * (2 * i) + j) 0 =
        (f (table.getD (m + i) 0) (buf.getD (2 * t * i + j) 0) (buf.getD (2 * t * i + (t + j)) 0)).1 ∧
      (stage f t ((table.drop m).take m) buf).getD (t * (2 * i + 1) + j) 0 =
        (f (table.getD (m + i) 0) (buf.getD (2 * t * i + j) 0) (buf.getD (2 * t * i + (t + j)) 0)).2 := by
  have hlen : ((table.drop m).take m).length = m := by
    rw [List.length_take, List.length_drop]
    omega
  have htw : ((table.drop m).take m).getD i 0 = table.getD (m + i) 0 := by simp [List.getD_eq_getElem?_getD, hi]
  have h1 : t * (2 * i) + j = 2 * t * i + j := by ring
  have h2 : t * (2 * i + 1) + j = 2 * t * i + t + j := by ring
  rw [h1, h2, ← Nat.add_assoc, ← htw]
  exact stage_getD f t _ buf (by rw [hlen, hl]) (by rwa [hlen]) hj

/-! ## The laws -/

/-- The roots of the transform, one a word of the output: at every stage the t-th power of a root is the twiddle of its group in the
upper half of the group and the opposite in the lower (43_ntt.md R172, R177). -/
def Roots (N : Nat) (w ρ : Nat → R) : Prop :=
  ∀ t m, 2 * t * m = N → ∀ i < m, ∀ j < t, ρ (t * (2 * i) + j) ^ t = w (m + i) ∧ ρ (t * (2 * i + 1) + j) ^ t = -w (m + i)

/-- Roots inverse to roots whose twiddles are inverse. -/
theorem Roots.inverse {N : Nat} {w u ρ σ : Nat → R} (h : Roots N w ρ) (hroots : ∀ k < N, σ k * ρ k = 1)
    (htwiddles : ∀ k, 0 < k → k < N → u k * w k = 1) : Roots N u σ := by
  intro t m hN i hi j hj
  obtain ⟨hlo, hhi⟩ := h t m hN i hi j hj
  have hN' : N = t * (2 * m) := by rw [← hN]; ring
  have hlo' : t * (2 * i) + j < N := by nlinarith
  have hhi' : t * (2 * i + 1) + j < N := by nlinarith
  have hunit : u (m + i) * w (m + i) = 1 := htwiddles _ (by omega) (by nlinarith)
  have power {k : Nat} (hk : k < N) : σ k ^ t * ρ k ^ t = 1 := by rw [← mul_pow, hroots k hk, one_pow]
  have h1 := power hlo'
  have h2 := power hhi'
  rw [hlo] at h1
  rw [hhi] at h2
  constructor
  · linear_combination u (m + i) * h1 - σ (t * (2 * i) + j) ^ t * hunit
  · linear_combination -u (m + i) * h2 - σ (t * (2 * i + 1) + j) ^ t * hunit

/-- A polynomial of 2t coefficients at x, its upper half taken with x^t. -/
theorem sum_two_mul (t : Nat) (v : Nat → R) (x : R) : ∑ j ∈ Finset.range (2 * t), v j * x ^ j =
    ∑ j ∈ Finset.range t, (v j + x ^ t * v (t + j)) * x ^ j := by
  rw [Nat.two_mul, Finset.sum_range_add, ← Finset.sum_add_distrib]
  exact Finset.sum_congr rfl fun j _ => by ring

/-- The forward stages evaluate each block of the buffer at the roots of its words (R177). -/
theorem forwardResidues_getD {table : List R} {ρ : Nat → R} {N : Nat} (hρ : Roots N (fun k => table.getD k 0) ρ)
    (ht : N ≤ table.length) (stages m : Nat) (buf : List R) (hN : 2 ^ stages * m = N) (hl : buf.length = N) {i k : Nat}
    (hi : i < m) (hk : k < 2 ^ stages) :
    (forwardResidues table stages m (2 ^ stages / 2) buf).getD (2 ^ stages * i + k) 0 =
      ∑ j ∈ Finset.range (2 ^ stages), buf.getD (2 ^ stages * i + j) 0 * ρ (2 ^ stages * i + k) ^ j := by
  induction stages generalizing m buf i k with
  | zero =>
    obtain rfl : k = 0 := by simpa using hk
    simp [forwardResidues]
  | succ stages ih =>
    generalize hpow : 2 ^ stages = t at ih
    have hsucc : 2 ^ (stages + 1) = 2 * t := by rw [Nat.pow_succ, hpow, Nat.mul_comm]
    rw [hsucc] at hN hk ⊢
    have hm : 2 * m ≤ table.length := by
      have : 0 < t := hpow ▸ Nat.two_pow_pos stages
      nlinarith
    have hstage := tableStage_length (forwardPair (R := R)) hm (hl.trans hN.symm)
    have pair {j : Nat} (hj : j < t) := tableStage_getD (forwardPair (R := R)) hm (hl.trans hN.symm) hi hj
    have next {i' k' : Nat} (hi' : i' < 2 * m) (hk' : k' < t) :=
      ih (2 * m) _ (by rw [← hN]; ring) (hstage.trans hl) hi' hk'
    rw [forwardResidues, Nat.mul_div_cancel_left t (by decide), sum_two_mul t (fun j => buf.getD (2 * t * i + j) 0)]
    by_cases hkt : k < t
    · have hidx : 2 * t * i + k = t * (2 * i) + k := by ring
      rw [hidx, next (by omega) hkt]
      refine Finset.sum_congr rfl fun j hj => ?_
      rw [(pair (Finset.mem_range.mp hj)).1, (hρ t m hN i hi k hkt).1]
      rfl
    · obtain ⟨k', rfl⟩ := Nat.exists_eq_add_of_le (Nat.not_lt.mp hkt)
      have hk' : k' < t := by omega
      have hidx : 2 * t * i + (t + k') = t * (2 * i + 1) + k' := by ring
      rw [hidx, next (by omega) hk']
      refine Finset.sum_congr rfl fun j hj => ?_
      rw [(pair (Finset.mem_range.mp hj)).2, (hρ t m hN i hi k' hk').2, neg_mul, ← sub_eq_add_neg]
      rfl

/-- buf holds, block by block of t words, the coefficients that the values b have at the inverse roots σ (R180, R186). -/
def PartialInverse (σ : Nat → R) (b : List R) (t : Nat) (buf : List R) : Prop :=
  ∀ i j, t * (i + 1) ≤ b.length → j < t →
    buf.getD (t * i + j) 0 = ∑ k ∈ Finset.range t, b.getD (t * i + k) 0 * σ (t * i + k) ^ j

/-- A group's sum is that of its two blocks. -/
theorem sum_group (t i : Nat) (f : Nat → R) : ∑ k ∈ Finset.range (2 * t), f (2 * t * i + k) =
    ∑ k ∈ Finset.range t, f (t * (2 * i) + k) + ∑ k ∈ Finset.range t, f (t * (2 * i + 1) + k) := by
  have h1 (k : Nat) : 2 * t * i + k = t * (2 * i) + k := by ring
  have h2 (k : Nat) : t * (2 * i) + (t + k) = t * (2 * i + 1) + k := by ring
  simp only [h1]
  rw [Nat.two_mul t, Finset.sum_range_add]
  simp only [h2]

/-- The t-th power that a block's roots share, taken out of a sum over the block. -/
theorem sum_block_pow_add {t base : Nat} {σ : Nat → R} {u : R} (h : ∀ k < t, σ (base + k) ^ t = u) (f : Nat → R) (j : Nat) :
    ∑ k ∈ Finset.range t, f k * σ (base + k) ^ (t + j) = u * ∑ k ∈ Finset.range t, f k * σ (base + k) ^ j := by
  rw [Finset.mul_sum]
  refine Finset.sum_congr rfl fun k hk => ?_
  rw [pow_add, h k (Finset.mem_range.mp hk)]
  ring

/-- An inverse stage joins the two blocks of each group (R180): the sums x + y and w (x - y) are those over the group. -/
theorem partialInverse_stage {table b buf : List R} {σ : Nat → R} {t m : Nat}
    (hσ : Roots b.length (fun k => table.getD k 0) σ) (hm : 2 * m ≤ table.length) (hb : b.length = 2 * t * m)
    (hl : buf.length = 2 * t * m) (h : PartialInverse σ b t buf) :
    PartialInverse σ b (2 * t) (stage inversePair t ((table.drop m).take m) buf) := by
  intro i j hij hj
  have hi : i < m := by
    rw [hb] at hij
    exact Nat.le_of_mul_le_mul_left hij (by omega)
  have hlo {j : Nat} (hj : j < t) := h (2 * i) j (by linarith) hj
  have hhi {j : Nat} (hj : j < t) := h (2 * i + 1) j (by linarith) hj
  have pair {j : Nat} (hj : j < t) := tableStage_getD (inversePair (R := R)) hm hl hi hj
  have hx (j : Nat) : 2 * t * i + j = t * (2 * i) + j := by ring
  have hy (j : Nat) : t * (2 * i) + (t + j) = t * (2 * i + 1) + j := by ring
  rw [sum_group (R := R) t i (fun k => b.getD k 0 * σ k ^ j)]
  by_cases hjt : j < t
  · rw [hx, (pair hjt).1, inversePair, hx, hx, hy, hlo hjt, hhi hjt]
  · obtain ⟨j', rfl⟩ := Nat.exists_eq_add_of_le (Nat.not_lt.mp hjt)
    have hj' : j' < t := by omega
    rw [hx, hy, (pair hj').2, inversePair, hx, hx, hy, hlo hj', hhi hj',
      sum_block_pow_add (fun k hk => (hσ t m hb.symm i hi k hk).1), sum_block_pow_add (fun k hk => (hσ t m hb.symm i hi k hk).2)]
    ring

/-- The inverse stages but the last join all blocks but two. -/
theorem partialInverse_stages {table b : List R} {σ : Nat → R} (hσ : Roots b.length (fun k => table.getD k 0) σ)
    (stages t : Nat) (buf : List R) (ht : 2 ^ (stages + 1) ≤ table.length) (hb : b.length = t * 2 ^ (stages + 1))
    (hl : buf.length = b.length) (h : PartialInverse σ b t buf) :
    (inverseResidues table stages (2 ^ stages) t buf).length = b.length ∧
      PartialInverse σ b (t * 2 ^ stages) (inverseResidues table stages (2 ^ stages) t buf) := by
  induction stages generalizing t buf with
  | zero => exact ⟨hl, by simpa [inverseResidues] using h⟩
  | succ stages ih =>
    have hgroup : b.length = 2 * t * 2 ^ (stages + 1) := by rw [hb]; ring
    have hm : 2 * 2 ^ (stages + 1) ≤ table.length := by rwa [← Nat.pow_succ']
    have hstage := tableStage_length (inversePair (R := R)) hm (hl.trans hgroup)
    have hhalf : 2 ^ (stages + 1) / 2 = 2 ^ stages := by rw [Nat.pow_succ, Nat.mul_div_cancel _ (by decide)]
    have hblock : t * 2 ^ (stages + 1) = 2 * t * 2 ^ stages := by ring
    rw [inverseResidues, hhalf, hblock]
    exact ih (2 * t) _ (by omega) hgroup (hstage.trans hl) (partialInverse_stage hσ hm hgroup (hl.trans hgroup) h)

/-- The final stage is the inverse stage of one group scaled by c, where d is c times the twiddle (R182, R183). -/
theorem lastStage_getD {table buf : List R} {t : Nat} (c : R) (hm : 2 ≤ table.length) (hl : buf.length = 2 * t) {j : Nat}
    (hj : j < 2 * t) : (stage (lastPair c (c * table.getD 1 0)) t ((table.drop 1).take 1) buf).getD j 0 =
      c * (stage inversePair t ((table.drop 1).take 1) buf).getD j 0 := by
  have hl' : buf.length = 2 * t * 1 := by rw [hl, Nat.mul_one]
  have last {j : Nat} (hj : j < t) := tableStage_getD (lastPair c (c * table.getD 1 0)) (m := 1) hm hl' Nat.one_pos hj
  have inv {j : Nat} (hj : j < t) := tableStage_getD (inversePair (R := R)) (m := 1) hm hl' Nat.one_pos hj
  simp only [Nat.mul_zero, Nat.zero_add, Nat.add_zero, Nat.mul_one] at last inv
  by_cases hjt : j < t
  · rw [(last hjt).1, (inv hjt).1]
    rfl
  · obtain ⟨j', rfl⟩ := Nat.exists_eq_add_of_le (Nat.not_lt.mp hjt)
    rw [(last (by omega)).2, (inv (by omega)).2, lastPair, inversePair, mul_assoc]

/-- What INTT's stages compute (R179), with the constants of the final stage. -/
def inverseTransform (table : List R) (n : Nat) (c d : R) (b : List R) : List R :=
  stage (lastPair c d) (n / 2) ((table.drop 1).take 1) (inverseResidues table (n.log2 - 1) (n / 2) 1 b)

/-- The inverse law at any roots whose powers are the twiddles (R186). -/
theorem inverseTransform_getD {table b : List R} {σ : Nat → R} {n : Nat} (hpow : n = 2 ^ n.log2) (hmin : 2 ≤ n)
    (ht : table.length = n) (hb : b.length = n) (hσ : Roots n (fun k => table.getD k 0) σ) (c : R) {j : Nat} (hj : j < n) :
    (inverseTransform table n c (c * table.getD 1 0) b).getD j 0 = c * ∑ k ∈ Finset.range n, b.getD k 0 * σ k ^ j := by
  obtain ⟨l, hlog⟩ := log2_succ hpow hmin
  have hn : n = 2 ^ (l + 1) := by rw [← hlog, ← hpow]
  have hhalf : n / 2 = 2 ^ l := by rw [hn, Nat.pow_succ, Nat.mul_div_cancel _ (by decide)]
  have htwo : n = 2 * 2 ^ l := by rw [hn, Nat.pow_succ']
  have hone : PartialInverse σ b 1 b := by
    intro i j _ hj
    obtain rfl : j = 0 := by omega
    simp
  rw [← hb] at hσ
  obtain ⟨hlen, hstages⟩ := partialInverse_stages hσ l 1 b (by omega) (by omega) rfl hone
  rw [Nat.one_mul] at hstages
  have hlast := partialInverse_stage (m := 1) hσ (by omega) (by omega) (by omega) hstages 0 j (by omega) (by omega)
  rw [inverseTransform, hlog, Nat.add_sub_cancel, hhalf, lastStage_getD c (by omega) (by omega) (by omega)]
  simp only [Nat.mul_zero, Nat.zero_add, ← htwo] at hlast
  rw [hlast]

/-- The forward transform (R171). -/
def forwardTransform (table : List R) (n : Nat) (buf : List R) : List R := forwardResidues table n.log2 1 (n / 2) buf

theorem forwardResidues_length {table : List R} (stages m : Nat) (buf : List R) (ht : 2 ^ stages * m ≤ table.length)
    (hl : buf.length = 2 ^ stages * m) : (forwardResidues table stages m (2 ^ stages / 2) buf).length = buf.length := by
  induction stages generalizing m buf with
  | zero => rfl
  | succ stages ih =>
    rw [Nat.pow_succ'] at ht hl
    have hm : 2 * m ≤ table.length := by
      have : 0 < 2 ^ stages := Nat.two_pow_pos stages
      nlinarith
    have hstage := tableStage_length (forwardPair (R := R)) hm hl
    rw [forwardResidues, Nat.pow_succ', Nat.mul_div_cancel_left _ (by decide), ih (2 * m) _ (by linarith) (by linarith), hstage]

theorem forwardTransform_length {table buf : List R} {n : Nat} (hpow : n = 2 ^ n.log2) (ht : table.length = n)
    (hb : buf.length = n) : (forwardTransform table n buf).length = n := by
  have h := forwardResidues_length n.log2 1 buf (table := table) (by omega) (by omega)
  rwa [← hpow, hb] at h

/-- The forward law at any roots whose powers are the twiddles (R177). -/
theorem forwardTransform_getD {table buf : List R} {ρ : Nat → R} {n : Nat} (hpow : n = 2 ^ n.log2) (ht : table.length = n)
    (hb : buf.length = n) (hρ : Roots n (fun k => table.getD k 0) ρ) {k : Nat} (hk : k < n) :
    (forwardTransform table n buf).getD k 0 = ∑ j ∈ Finset.range n, buf.getD j 0 * ρ k ^ j := by
  have h := forwardResidues_getD hρ ht.ge n.log2 1 buf (by omega) hb (i := 0) Nat.one_pos (hpow ▸ hk)
  simp only [← hpow, Nat.mul_zero, Nat.zero_add] at h
  exact h

/-- The inverse undoes the forward stages, but for the number of words: at every stage the two butterflies multiply to 2 (R186). -/
theorem sum_forwardResidues {table inverse : List R} {σ : Nat → R} {N : Nat} (hσ : Roots N (fun k => inverse.getD k 0) σ)
    (ht : N ≤ table.length) (hinv : ∀ k, 0 < k → k < N → inverse.getD k 0 * table.getD k 0 = 1) (stages m : Nat)
    (buf : List R) (hN : 2 ^ stages * m = N) (hl : buf.length = N) {i j : Nat} (hi : i < m) (hj : j < 2 ^ stages) :
    ∑ k ∈ Finset.range (2 ^ stages), (forwardResidues table stages m (2 ^ stages / 2) buf).getD (2 ^ stages * i + k) 0 *
      σ (2 ^ stages * i + k) ^ j = 2 ^ stages * buf.getD (2 ^ stages * i + j) 0 := by
  induction stages generalizing m buf i j with
  | zero =>
    obtain rfl : j = 0 := by simpa using hj
    simp [forwardResidues]
  | succ stages ih =>
    have hcast : (2 : R) ^ (stages + 1) = 2 * 2 ^ stages := pow_succ' 2 stages
    have hsucc : 2 ^ (stages + 1) = 2 * 2 ^ stages := Nat.pow_succ'
    rw [hcast]
    rw [hsucc] at hN hj ⊢
    generalize (2 : R) ^ stages = T at ih ⊢
    generalize hpow : 2 ^ stages = t at ih hN hj ⊢
    have hpos : 0 < t := hpow ▸ Nat.two_pow_pos stages
    have hm : 2 * m ≤ N := by nlinarith
    have hm' : 2 * m ≤ table.length := hm.trans ht
    have hstage := tableStage_length (forwardPair (R := R)) hm' (hl.trans hN.symm)
    have pair {j : Nat} (hj : j < t) := tableStage_getD (forwardPair (R := R)) hm' (hl.trans hN.symm) hi hj
    have next {i' j' : Nat} (hi' : i' < 2 * m) (hj' : j' < t) :=
      ih (2 * m) _ (by rw [← hN]; ring) (hstage.trans hl) hi' hj'
    rw [forwardResidues, Nat.mul_div_cancel_left t (by decide), sum_group t i
      (fun k => (forwardResidues table stages (2 * m) (t / 2) (stage forwardPair t ((table.drop m).take m) buf)).getD k 0 * σ k ^ j)]
    by_cases hjt : j < t
    · rw [next (by omega) hjt, next (by omega) hjt, (pair hjt).1, (pair hjt).2, forwardPair]
      ring
    · obtain ⟨j', rfl⟩ := Nat.exists_eq_add_of_le (Nat.not_lt.mp hjt)
      have hj' : j' < t := by omega
      rw [sum_block_pow_add (fun k hk => (hσ t m hN i hi k hk).1), sum_block_pow_add (fun k hk => (hσ t m hN i hi k hk).2),
        next (by omega) hj', next (by omega) hj', (pair hj').1, (pair hj').2, forwardPair]
      linear_combination 2 * T * buf.getD (2 * t * i + (t + j')) 0 * hinv (m + i) (by omega) (by omega)

/-- The inverse transform undoes the forward one, where c is the inverse of the number of words (R186). -/
theorem inverseTransform_forwardTransform {table inverse buf : List R} {σ : Nat → R} {n : Nat} (hpow : n = 2 ^ n.log2)
    (hmin : 2 ≤ n) (ht : table.length = n) (ht' : inverse.length = n) (hb : buf.length = n)
    (hσ : Roots n (fun k => inverse.getD k 0) σ) (hinv : ∀ k, 0 < k → k < n → inverse.getD k 0 * table.getD k 0 = 1) {c : R}
    (hc : c * n = 1) {j : Nat} (hj : j < n) :
    (inverseTransform inverse n c (c * inverse.getD 1 0) (forwardTransform table n buf)).getD j 0 = buf.getD j 0 := by
  have hlen := forwardTransform_length hpow ht hb
  have h := sum_forwardResidues hσ ht.ge hinv n.log2 1 buf (by omega) hb (i := 0) Nat.one_pos (hpow ▸ hj)
  have hn : (2 : R) ^ n.log2 = n := by rw [← Nat.cast_two, ← Nat.cast_pow, ← hpow]
  simp only [hn, ← hpow, Nat.mul_zero, Nat.zero_add] at h
  rw [inverseTransform_getD hpow hmin ht' hlen hσ c hj, forwardTransform, h, ← mul_assoc, hc, one_mul]

end

end Sys2Proof.Machine

/-! # FNTT and INTT (43_ntt.md): every path computes the transform of the residues

The words' residues through every stage and the final pass; the outputs of both directions below q, with their residues; the roots of
the tables TBUILD builds; then the settlements. -/

namespace Sys2Proof.Machine

/-! ## The residues of a buffer through the stages -/

/-- The words' residues mod q. -/
def residues (q : Nat) (buf : List Word) : List (ZMod q) := buf.map fun w => (w.toNat : ZMod q)

@[simp] theorem residues_length (q : Nat) (buf : List Word) : (residues q buf).length = buf.length := List.length_map _

/-- Words below q with the same residues are the same. -/
theorem eq_of_residues {q : Nat} {l l' : List Word} (hl : ∀ w ∈ l, w.toNat < q) (hl' : ∀ w ∈ l', w.toNat < q)
    (h : residues q l = residues q l') : l = l' := by
  induction l generalizing l' with
  | nil => exact (List.map_eq_nil_iff.mp h.symm).symm
  | cons w l ih =>
    cases l' with
    | nil => simp [residues] at h
    | cons w' l' =>
      simp only [List.mem_cons, forall_eq_or_imp] at hl hl'
      simp only [residues, List.map_cons, List.cons.injEq] at h
      have hw : w.toNat = w'.toNat := by
        have := (ZMod.natCast_eq_natCast_iff' _ _ q).mp h.1
        rwa [Nat.mod_eq_of_lt hl.1, Nat.mod_eq_of_lt hl'.1] at this
      rw [BitVec.eq_of_toNat_eq hw, ih hl.2 hl'.2 h.2]

/-- On pairs of words that satisfy P and twiddles that satisfy T, a butterfly keeps to Q and computes f of the residues. -/
def Computes (q : Nat) (T : Word × Word → Prop) (P Q : Word → Prop) (f : Pairing (ZMod q)) (bfly : Butterfly) : Prop :=
  ∀ tw x y, T tw → P x → P y →
    (Q (bfly tw.1 tw.2 x y).1 ∧ Q (bfly tw.1 tw.2 x y).2) ∧
      ((bfly tw.1 tw.2 x y).1.toNat : ZMod q) = (f tw.1.toNat x.toNat y.toNat).1 ∧
      ((bfly tw.1 tw.2 x y).2.toNat : ZMod q) = (f tw.1.toNat x.toNat y.toNat).2

section
variable {q : Nat} {T : Word × Word → Prop} {P Q : Word → Prop} {f : Pairing (ZMod q)} {bfly : Butterfly}

/-- The residues of one group's pairs. -/
theorem residues_zipWith (hb : Computes q T P Q f bfly) {tw : Word × Word} (htw : T tw) (xs ys : List Word)
    (hx : ∀ w ∈ xs, P w) (hy : ∀ w ∈ ys, P w) :
    residues q ((List.zipWith (bfly tw.1 tw.2) xs ys).map Prod.fst) =
        (List.zipWith (f tw.1.toNat) (residues q xs) (residues q ys)).map Prod.fst ∧
      residues q ((List.zipWith (bfly tw.1 tw.2) xs ys).map Prod.snd) =
        (List.zipWith (f tw.1.toNat) (residues q xs) (residues q ys)).map Prod.snd := by
  induction xs generalizing ys with
  | nil => exact ⟨rfl, rfl⟩
  | cons x xs ih =>
    cases ys with
    | nil => exact ⟨rfl, rfl⟩
    | cons y ys =>
      simp only [List.mem_cons, forall_eq_or_imp] at hx hy
      obtain ⟨h1, h2⟩ := ih ys hx.2 hy.2
      obtain ⟨-, e1, e2⟩ := hb tw x y htw hx.1 hy.1
      simp only [residues, List.map_cons, List.zipWith_cons_cons] at h1 h2 ⊢
      exact ⟨by rw [e1, h1], by rw [e2, h2]⟩

/-- The residues after a stage are the stage of the residues. -/
theorem residues_runStage (hb : Computes q T P Q f bfly) (t : Nat) (tws : List (Word × Word)) (buf : List Word)
    (ht : ∀ tw ∈ tws, T tw) (hP : ∀ w ∈ buf, P w) :
    residues q (runStage bfly t tws buf) = stage f t (residues q (tws.map Prod.fst)) (residues q buf) := by
  induction tws generalizing buf with
  | nil => rfl
  | cons tw tws ih =>
    simp only [List.mem_cons, forall_eq_or_imp] at ht
    obtain ⟨h1, h2⟩ := residues_zipWith hb ht.1 (buf.take t) ((buf.drop t).take t) (fun w h => hP w (List.mem_of_mem_take h))
      fun w h => hP w (List.mem_of_mem_drop (List.mem_of_mem_take h))
    have hrest := ih (buf.drop (2 * t)) ht.2 fun w h => hP w (List.mem_of_mem_drop h)
    have happend (l l' : List Word) : residues q (l ++ l') = residues q l ++ residues q l' := List.map_append
    have htake (l : List Word) (k : Nat) : residues q (l.take k) = (residues q l).take k := List.map_take
    have hdrop (l : List Word) (k : Nat) : residues q (l.drop k) = (residues q l).drop k := List.map_drop
    simp only [htake, hdrop] at h1 h2 hrest
    rw [runStage, happend, happend, h1, h2, hrest]
    rfl

theorem residues_stageTwiddles (q : Nat) (table : List (Word × Word)) (m : Nat) :
    residues q ((stageTwiddles table m).map Prod.fst) = ((residues q (table.map Prod.fst)).drop m).take m := by
  simp only [residues, stageTwiddles, List.map_take, List.map_drop]

/-- The residues after the forward stages. -/
theorem residues_forwardStages (hb : Computes q T P P forwardPair bfly) {table : List (Word × Word)} (hT : ∀ tw ∈ table, T tw)
    (stages m : Nat) (buf : List Word) (hl : buf.length = m * 2 ^ stages) (ht : m * 2 ^ stages ≤ table.length)
    (hP : ∀ w ∈ buf, P w) : residues q (forwardStages bfly table stages m (2 ^ stages / 2) buf) =
      forwardResidues (residues q (table.map Prod.fst)) stages m (2 ^ stages / 2) (residues q buf) := by
  induction stages generalizing m buf with
  | zero => rfl
  | succ stages ih =>
    have hhalf : 2 ^ (stages + 1) / 2 = 2 ^ stages := by rw [Nat.pow_succ, Nat.mul_div_cancel _ (by decide)]
    have htwo : m * 2 ^ (stages + 1) = 2 * m * 2 ^ stages := by ring
    rw [htwo] at hl ht
    have hm : 2 * m ≤ table.length := (Nat.le_mul_of_pos_right _ (Nat.two_pow_pos stages)).trans ht
    have hgroup : buf.length = 2 * 2 ^ stages * (stageTwiddles table m).length := by
      rw [stageTwiddles_length hm, hl]
      ring
    have htws : ∀ tw ∈ stageTwiddles table m, T tw := fun tw h => hT tw (mem_stageTwiddles h)
    rw [forwardStages, forwardResidues, hhalf, ← residues_stageTwiddles, ← residues_runStage hb _ _ _ htws hP]
    exact ih (2 * m) _ (by rw [runStage_length _ _ _ _ hgroup, hl]) ht
      (runStage_forall (fun tw x y h hx hy => (hb tw x y h hx hy).1) _ _ _ htws hgroup hP)

/-- The residues after the inverse stages but the last. -/
theorem residues_inverseStages (hb : Computes q T P P inversePair bfly) {table : List (Word × Word)} (hT : ∀ tw ∈ table, T tw)
    (stages t : Nat) (buf : List Word) (hl : buf.length = t * 2 ^ (stages + 1)) (ht : 2 ^ (stages + 1) ≤ table.length)
    (hP : ∀ w ∈ buf, P w) : residues q (inverseStages bfly table stages (2 ^ stages) t buf) =
      inverseResidues (residues q (table.map Prod.fst)) stages (2 ^ stages) t (residues q buf) := by
  induction stages generalizing t buf with
  | zero => rfl
  | succ stages ih =>
    have hhalf : 2 ^ (stages + 1) / 2 = 2 ^ stages := by rw [Nat.pow_succ, Nat.mul_div_cancel _ (by decide)]
    have hm : 2 * 2 ^ (stages + 1) ≤ table.length := by rwa [← Nat.pow_succ']
    have hgroup : buf.length = 2 * t * (stageTwiddles table (2 ^ (stages + 1))).length := by
      rw [stageTwiddles_length hm, hl]
      ring
    have htws : ∀ tw ∈ stageTwiddles table (2 ^ (stages + 1)), T tw := fun tw h => hT tw (mem_stageTwiddles h)
    rw [inverseStages, inverseResidues, hhalf, ← residues_stageTwiddles, ← residues_runStage hb _ _ _ htws hP]
    exact ih (2 * t) _ (by rw [runStage_length _ _ _ _ hgroup, hl]; ring) (by omega)
      (runStage_forall (fun tw x y h hx hy => (hb tw x y h hx hy).1) _ _ _ htws hgroup hP)

end

/-! ## The butterflies -/

theorem computes_fwdButterfly {s q : Nat} (hs : s ≤ 64) (hq : 4 * q ≤ 2 ^ s) :
    Computes q (ExactTwiddle s q) (fun w => w.toNat < 4 * q) (fun w => w.toNat < 4 * q) forwardPair (fwdButterfly s q) :=
  fun _ _ _ htw hx hy => fwdButterfly_spec hs hq htw hx hy

theorem computes_fwdRefButterfly {q : Nat} (hq : q ≤ 2 ^ 64) :
    Computes q (fun _ => True) (fun w => w.toNat < q) (fun w => w.toNat < q) forwardPair (fwdRefButterfly q) :=
  fun _ _ _ _ hx _ => fwdRefButterfly_spec hq hx

theorem computes_invButterfly {q : Nat} (hq : 4 * q ≤ 2 ^ 64) :
    Computes q (ExactTwiddle 64 q) (fun w => w.toNat < 2 * q) (fun w => w.toNat < 2 * q) inversePair (invButterfly q) :=
  fun _ _ _ htw hx hy => invButterfly_spec hq htw hx hy

theorem computes_invRefButterfly {q : Nat} (hq : q ≤ 2 ^ 64) :
    Computes q (fun _ => True) (fun w => w.toNat < q) (fun w => w.toNat < q) inversePair (invRefButterfly q) :=
  fun _ _ _ _ hx hy => invRefButterfly_spec hq hx hy

theorem computes_invLastButterfly {q : Nat} {c : InverseConstants} (hq : 4 * q ≤ 2 ^ 64) (h1 : c.invN < q)
    (h2 : c.invNP = c.invN * 2 ^ 64 / q) (h3 : c.invNW < q) (h4 : c.invNWP = c.invNW * 2 ^ 64 / q) :
    Computes q (fun _ => True) (fun w => w.toNat < 2 * q) (fun w => w.toNat < 2 * q) (lastPair c.invN c.invNW)
      (invLastButterfly q c) :=
  fun _ _ _ _ hx hy => invLastButterfly_spec hq h1 h2 h3 h4 hx hy

theorem computes_invRefLastButterfly {q : Nat} (c : InverseConstants) (hq : q ≤ 2 ^ 64) :
    Computes q (fun _ => True) (fun w => w.toNat < q) (fun w => w.toNat < q) (lastPair c.invN c.invNW) (invRefLastButterfly q c) :=
  fun _ _ _ _ hx hy => invRefLastButterfly_spec hq hx hy

/-- The final pass keeps the residues (43_ntt.md R174, R184). -/
theorem residues_finalPass {q : Nat} {buf : List Word} (hb : ∀ w ∈ buf, w.toNat < 4 * q) :
    residues q (finalPass q buf) = residues q buf := by
  rw [residues, finalPass, List.map_map]
  refine List.map_congr_left fun w hw => ?_
  rw [Function.comp_apply, reduceBy_four (hb w hw), wordOf_toNat_of_lt ((Nat.mod_le _ _).trans_lt w.isLt), ZMod.natCast_mod]

/-! ## The transforms of a buffer -/

section
variable {n q : Nat} {table : List (Word × Word)} {buf : List Word}

/-- The forward stages at degree n, as they are called. -/
theorem residues_forwardStages_degree {T : Word × Word → Prop} {P : Word → Prop} {bfly : Butterfly}
    (hb : Computes q T P P forwardPair bfly) (hpow : n = 2 ^ n.log2) (ht : table.length = n) (hl : buf.length = n)
    (hT : ∀ tw ∈ table, T tw) (hP : ∀ w ∈ buf, P w) :
    residues q (forwardStages bfly table n.log2 1 (n / 2) buf) =
        forwardTransform (residues q (table.map Prod.fst)) n (residues q buf) ∧
      ∀ w ∈ forwardStages bfly table n.log2 1 (n / 2) buf, P w := by
  have hres := residues_forwardStages hb hT n.log2 1 buf (by omega) (by omega) hP
  have hall := forwardStages_forall (fun tw x y h hx hy => (hb tw x y h hx hy).1) hT n.log2 1 buf (by omega) (by omega) hP
  rw [← hpow] at hres hall
  exact ⟨hres, hall⟩

/-- FNTT's lazy paths compute the forward transform of the residues (R173, R174). -/
theorem residues_forwardLazy {s : Nat} (hs : s ≤ 64) (hpow : n = 2 ^ n.log2) (hq : 4 * q ≤ 2 ^ s) (ht : table.length = n)
    (hl : buf.length = n) (hT : ∀ tw ∈ table, ExactTwiddle s q tw) (hb : ∀ w ∈ buf, w.toNat < q) :
    residues q (forwardLazy s n q table buf) = forwardTransform (residues q (table.map Prod.fst)) n (residues q buf) := by
  obtain ⟨hres, hall⟩ := residues_forwardStages_degree (computes_fwdButterfly hs hq) hpow ht hl hT
    fun w hw => (hb w hw).trans_le (Nat.le_mul_of_pos_left q (by decide))
  rw [forwardLazy, residues_finalPass hall, hres]

/-- FNTT's reference path does too (R176). -/
theorem residues_forwardReference (hpow : n = 2 ^ n.log2) (hq : q ≤ 2 ^ 64) (ht : table.length = n) (hl : buf.length = n)
    (hb : ∀ w ∈ buf, w.toNat < q) :
    residues q (forwardReference n q table buf) = forwardTransform (residues q (table.map Prod.fst)) n (residues q buf) :=
  (residues_forwardStages_degree (computes_fwdRefButterfly hq) hpow ht hl (fun _ _ => trivial) hb).1

/-- The inverse stages and the final one at degree n, as they are called. -/
theorem residues_inverse_degree {T : Word × Word → Prop} {P : Word → Prop} {bfly last : Butterfly} {c d : ZMod q}
    (hb : Computes q T P P inversePair bfly) (hlast : Computes q (fun _ => True) P P (lastPair c d) last) (hpow : n = 2 ^ n.log2)
    (hmin : 2 ≤ n) (ht : table.length = n) (hl : buf.length = n) (hT : ∀ tw ∈ table, T tw) (hP : ∀ w ∈ buf, P w) :
    residues q (runStage last (n / 2) (stageTwiddles table 1) (inverseStages bfly table (n.log2 - 1) (n / 2) 1 buf)) =
        inverseTransform (residues q (table.map Prod.fst)) n c d (residues q buf) ∧
      ∀ w ∈ runStage last (n / 2) (stageTwiddles table 1) (inverseStages bfly table (n.log2 - 1) (n / 2) 1 buf), P w := by
  obtain ⟨l, hlog⟩ := log2_succ hpow hmin
  have hn : n = 2 ^ (l + 1) := by rw [← hlog, ← hpow]
  have hhalf : n / 2 = 2 ^ l := by rw [hn, Nat.pow_succ, Nat.mul_div_cancel _ (by decide)]
  have hres := residues_inverseStages hb hT l 1 buf (by omega) (by omega) hP
  have hall := inverseStages_forall (fun tw x y h hx hy => (hb tw x y h hx hy).1) hT l 1 buf (by omega) (by omega) hP
  have hlen := lastStage_degree hpow hmin ht (inverseStages_degree bfly hpow hmin ht hl)
  rw [hlog, Nat.add_sub_cancel, hhalf] at hlen ⊢
  refine ⟨?_, runStage_forall (fun tw x y h hx hy => (hlast tw x y h hx hy).1) _ _ _ (fun _ _ => trivial) hlen hall⟩
  rw [residues_runStage hlast _ _ _ (fun _ _ => trivial) hall, hres, residues_stageTwiddles, inverseTransform, hlog,
    Nat.add_sub_cancel, hhalf]

/-- INTT's lazy paths compute the inverse transform of the residues (R181 to R184). -/
theorem residues_inverseLazy (hpow : n = 2 ^ n.log2) (hmin : 2 ≤ n) (h1 : 1 < q) (hf : q % (2 * n) = 1) (hq : 4 * q ≤ 2 ^ 64)
    (ht : table.length = n) (hl : buf.length = n) (hT : ∀ tw ∈ table, ExactTwiddle 64 q tw) (hb : ∀ w ∈ buf, w.toNat < q) :
    let c := inverseConstants n q (table.getD 1 (0, 0)).1.toNat
    residues q (inverseLazy n q table buf) =
      inverseTransform (residues q (table.map Prod.fst)) n c.invN c.invNW (residues q buf) := by
  intro c
  obtain ⟨⟨a, -⟩, ⟨b, -⟩, d, e⟩ := inverseConstants_spec (w1 := (table.getD 1 (0, 0)).1.toNat) hf h1
  obtain ⟨hres, hall⟩ := residues_inverse_degree (computes_invButterfly hq) (computes_invLastButterfly hq a d b e) hpow hmin ht hl hT
    fun w hw => (hb w hw).trans_le (Nat.le_mul_of_pos_left q (by decide))
  rw [inverseLazy]
  exact (residues_finalPass fun w hw => (hall w hw).trans_le (Nat.mul_le_mul_right q (by decide))).trans hres

/-- INTT's reference path does too (R185). -/
theorem residues_inverseReference (hpow : n = 2 ^ n.log2) (hmin : 2 ≤ n) (hq : q ≤ 2 ^ 64) (ht : table.length = n)
    (hl : buf.length = n) (hb : ∀ w ∈ buf, w.toNat < q) :
    let c := inverseConstants n q (table.getD 1 (0, 0)).1.toNat
    residues q (inverseReference n q table buf) =
      inverseTransform (residues q (table.map Prod.fst)) n c.invN c.invNW (residues q buf) :=
  (residues_inverse_degree (computes_invRefButterfly hq) (computes_invRefLastButterfly _ hq) hpow hmin ht hl (fun _ _ => trivial) hb).1

end

end Sys2Proof.Machine

/-! # FNTT and INTT (43_ntt.md): what they leave on every path

The outputs of both directions over tables that agree, the completion of a transform, then the ranges (R178, R187) and the paths
(44_dispatch.md R208). -/

namespace Sys2Proof.Machine

/-! ## Tables that agree -/

/-- The tables a validated transform reads are those of an accepted root, for its degree and modulus (43_ntt.md R170). -/
theorem tables_of_validated {s : State} {dir : Direction} {m : ModeSel} {p : NttPath} (h : s.TablesAgree) (hv : Validated s dir m p) :
    RootAccepted s.n s.q s.tblRoot.toNat ∧ s.TableHolds s.n s.q s.tblRoot.toNat := by
  have hroot := h.accepted hv.valid
  have hcols := h.columns hv.valid
  rw [hv.tblN, hv.tblQ] at hroot hcols
  exact ⟨hroot, hcols⟩

/-- A table with its companions: the powers alone. -/
theorem twiddleTable_powers (s : State) (powers companion : ArrayId) (n : Nat) :
    (s.twiddleTable powers companion n).map Prod.fst = s.loadArray powers n := by
  rw [State.twiddleTable, List.map_fst_zip (by simp)]

/-- A table whose companions are exact at precision b is one of exact twiddles. -/
theorem twiddleTable_exact {s : State} {powers companion : ArrayId} {b n q : Nat}
    (hlt : ∀ k < n, (s.readArray powers k).toNat < q)
    (hexact : ∀ k < n, (s.readArray companion k).toNat = (s.readArray powers k).toNat * 2 ^ b / q) :
    ∀ tw ∈ s.twiddleTable powers companion n, ExactTwiddle b q tw := by
  intro tw htw
  obtain ⟨k, hk, rfl⟩ := List.getElem_of_mem htw
  rw [twiddleTable_length] at hk
  simpa [State.twiddleTable, ExactTwiddle] using And.intro (hlt k hk) (hexact k hk)

section
variable {s : State} {n q g : Nat} (hroot : RootAccepted n q g) (hs : s.TableHolds n q g)
include hroot hs

/-- The forward powers are below the modulus (R153). -/
theorem fwdPow_lt {k : Nat} (hk : k < n) : (s.readArray .fwdPow k).toNat < q := by
  rw [hs.fwdPow_eq hroot.degreePow hk]
  exact Nat.mod_lt _ (Nat.zero_lt_of_lt hroot.one_lt)

theorem fwdTable64_exact : ∀ tw ∈ s.twiddleTable .fwdPow .fwdPre64 n, ExactTwiddle 64 q tw :=
  twiddleTable_exact (fun _ hk => fwdPow_lt hroot hs hk) hs.fwdPre64

theorem fwdTable52_exact : ∀ tw ∈ s.twiddleTable .fwdPow .fwdPre52 n, ExactTwiddle 52 q tw :=
  twiddleTable_exact (fun _ hk => fwdPow_lt hroot hs hk) hs.fwdPre52

end

theorem invTable_exact {s : State} {n q g : Nat} (hs : s.TableHolds n q g) :
    ∀ tw ∈ s.twiddleTable .invPow .invPre64 n, ExactTwiddle 64 q tw :=
  twiddleTable_exact (fun k hk => (hs.invPow k hk).1) hs.invPre64

/-! ## The outputs -/

/-- A residue is that of the word at its index. -/
theorem residues_getD {q : Nat} (l : List Word) {k : Nat} (hk : k < l.length) :
    (residues q l).getD k 0 = (l[k].toNat : ZMod q) := by
  rw [residues, List.getD_eq_getElem _ _ (by simpa using hk), List.getElem_map]

/-- So it is of a table's power, where the table has none too. -/
theorem residues_powers_getD (q : Nat) (table : List (Word × Word)) (k : Nat) :
    (residues q (table.map Prod.fst)).getD k 0 = ((table.getD k (0, 0)).1.toNat : ZMod q) := by
  rw [residues, List.map_map, List.getD_eq_getElem?_getD, List.getD_eq_getElem?_getD, List.getElem?_map]
  cases table[k]? <;> simp

/-- The residues of an array's words below the degree. -/
def State.residueArray (s : State) (arr : ArrayId) : List (ZMod s.q) := residues s.q (s.loadArray arr s.n)

theorem residueArray_length (s : State) (arr : ArrayId) : (s.residueArray arr).length = s.n := by simp [State.residueArray]

theorem residueArray_getD (s : State) (arr : ArrayId) {k : Nat} (hk : k < s.n) :
    (s.residueArray arr).getD k 0 = ((s.readArray arr k).toNat : ZMod s.q) := by
  rw [State.residueArray, residues_getD _ (by simpa using hk), loadArray_getElem]

/-- On every path FNTT's words are below q, and their residues the forward transform of BUF's (R177, R178, R208). -/
theorem forwardOutput_spec {s : State} {m : ModeSel} {p : NttPath} (h : s.TablesAgree) (hv : Validated s .fwd m p) :
    (∀ w ∈ s.forwardOutput p, w.toNat < s.q) ∧
      residues s.q (s.forwardOutput p) = forwardTransform (s.residueArray .fwdPow) s.n (s.residueArray .buf) := by
  obtain ⟨hroot, hs⟩ := tables_of_validated h hv
  have hq : 0 < s.q := Nat.zero_lt_of_lt hroot.one_lt
  have hl := loadArray_length s .buf s.n
  have ht (companion : ArrayId) := twiddleTable_length s .fwdPow companion s.n
  have h64 := fwdTable64_exact hroot hs
  have h52 := fwdTable52_exact hroot hs
  have hbound := hv.bound
  have hnarrow := hv.narrow
  unfold State.residueArray
  cases p with
  | scalar | wide64 =>
    rw [← twiddleTable_powers s .fwdPow .fwdPre64]
    exact ⟨forwardLazy_lt (by decide) hv.degreePow hq (by omega) (ht _) hl h64 hv.elements,
      residues_forwardLazy (by decide) hv.degreePow (by omega) (ht _) hl h64 hv.elements⟩
  | narrow52 =>
    have hq50 := hnarrow rfl
    rw [← twiddleTable_powers s .fwdPow .fwdPre52]
    exact ⟨forwardLazy_lt (by decide) hv.degreePow hq (by omega) (ht _) hl h52 hv.elements,
      residues_forwardLazy (by decide) hv.degreePow (by omega) (ht _) hl h52 hv.elements⟩
  | reference =>
    rw [← twiddleTable_powers s .fwdPow .fwdPre64]
    exact ⟨forwardReference_lt hv.degreePow (by omega) (ht _) hl hv.elements,
      residues_forwardReference hv.degreePow (by omega) (ht _) hl hv.elements⟩

/-- The residue of inv_n (R182). -/
def State.invDegree (s : State) : ZMod s.q := (invMod s.n s.q : ZMod s.q)

/-- What INTT computes of the residues (R179). -/
def State.inverseResidueOutput (s : State) : List (ZMod s.q) :=
  inverseTransform (s.residueArray .invPow) s.n s.invDegree (s.invDegree * (s.residueArray .invPow).getD 1 0) (s.residueArray .buf)

/-- On every path INTT's words are below q, and their residues the inverse transform of BUF's (R186, R187, R208). -/
theorem inverseOutput_spec {s : State} {m : ModeSel} {p : NttPath} (h : s.TablesAgree) (hv : Validated s .inv m p) :
    (∀ w ∈ s.inverseOutput p, w.toNat < s.q) ∧ residues s.q (s.inverseOutput p) = s.inverseResidueOutput := by
  obtain ⟨hroot, hs⟩ := tables_of_validated h hv
  have hq := hroot.one_lt
  have hl := loadArray_length s .buf s.n
  have ht := twiddleTable_length s .invPow .invPre64 s.n
  have hT := invTable_exact hs
  have hbound := hv.bound
  obtain ⟨-, ⟨-, hNW⟩, -⟩ := inverseConstants_spec
    (w1 := ((s.twiddleTable .invPow .invPre64 s.n).getD 1 (0, 0)).1.toNat) hv.friendly hq
  rw [← residues_powers_getD, twiddleTable_powers] at hNW
  have hout : s.inverseResidueOutput = inverseTransform (residues s.q ((s.twiddleTable .invPow .invPre64 s.n).map Prod.fst)) s.n
      (inverseConstants s.n s.q ((s.twiddleTable .invPow .invPre64 s.n).getD 1 (0, 0)).1.toNat).invN
      (inverseConstants s.n s.q ((s.twiddleTable .invPow .invPre64 s.n).getD 1 (0, 0)).1.toNat).invNW
      (residues s.q (s.loadArray .buf s.n)) := by
    rw [hNW, twiddleTable_powers]
    rfl
  rw [hout]
  cases p with
  | scalar | wide64 | narrow52 =>
    exact ⟨inverseLazy_lt hv.degreePow hv.degreeMin hq hv.friendly (by omega) ht hl hT hv.elements,
      residues_inverseLazy hv.degreePow hv.degreeMin hq hv.friendly (by omega) ht hl hT hv.elements⟩
  | reference =>
    exact ⟨inverseReference_lt hv.degreePow hv.degreeMin (by omega) ht hl hv.elements,
      residues_inverseReference hv.degreePow hv.degreeMin (by omega) ht hl hv.elements⟩

/-- What a transform computes of the residues, the same on every path. -/
def State.residueOutput (s : State) : Direction → List (ZMod s.q)
  | .fwd => forwardTransform (s.residueArray .fwdPow) s.n (s.residueArray .buf)
  | .inv => s.inverseResidueOutput

/-- On every path a transform's words are below q, and their residues the same. -/
theorem transformOutput_spec {s : State} {dir : Direction} {m : ModeSel} {p : NttPath} (h : s.TablesAgree) (hv : Validated s dir m p) :
    (∀ w ∈ s.transformOutput dir p, w.toNat < s.q) ∧ residues s.q (s.transformOutput dir p) = s.residueOutput dir := by
  cases dir with
  | fwd => exact forwardOutput_spec h hv
  | inv => exact inverseOutput_spec h hv

/-! ## The completion of a transform -/

/-- What a transform without error leaves (43_ntt.md R171, R175, R179). -/
def State.afterTransform (s : State) (dir : Direction) (p : NttPath) : State :=
  State.succeed { s.storeArray .buf (s.transformOutput dir p) with status := { s.status with lastPath := some p } }

/-- Where the checks pass and the tables agree, the transform completes without error on the path of its mode (R175). -/
theorem transform_completes {s : State} {dir : Direction} {m : ModeSel} (h : s.TablesAgree)
    (hchecks : firstFailure (ruleChecks (transformInstr dir m) s) = none) :
    ∃ p, p = recordedPath m (autoPath s.params s.operands.ctrl dir s.q) ∧ Validated s dir m p ∧
      exec (transformInstr dir m) s = .next (s.afterTransform dir p) := by
  have hok := nttValidate_answered s dir m
  rw [← ruleChecks_transformInstr, answered_of_none _ hchecks] at hok
  have hv := nttValidate_ok hok
  refine ⟨_, rfl, hv, ?_⟩
  rw [exec_transform_of_ok hok]
  obtain ⟨hlt, -⟩ := transformOutput_spec h hv
  rcases finishTransform_cases s (recordedPath m _) (s.transformOutput dir _) with ⟨-, hf⟩ | ⟨⟨w, hw, hge⟩, -⟩
  · exact hf
  · exact absurd (hlt w hw) (Nat.not_lt.mpr hge)

section
variable {s : State} {dir : Direction} {m : ModeSel} {p : NttPath} (hv : Validated s dir m p)
include hv

/-- A word of BUF after the transform. -/
theorem readArray_afterTransform {k : Nat} (hk : k < s.n) :
    (s.afterTransform dir p).readArray .buf k =
      (s.transformOutput dir p)[k]'(by rw [transformOutput_length hv]; exact hk) :=
  readArray_storeArray_same s .buf _ (by rw [transformOutput_length hv]; exact hk)

/-- Its residue. -/
theorem readArray_afterTransform_cast (h : s.TablesAgree) {k : Nat} (hk : k < s.n) :
    (((s.afterTransform dir p).readArray .buf k).toNat : ZMod s.q) = (s.residueOutput dir).getD k 0 := by
  rw [readArray_afterTransform hv hk, ← (transformOutput_spec h hv).2, residues_getD]

/-- It is below the modulus. -/
theorem readArray_afterTransform_lt (h : s.TablesAgree) {k : Nat} (hk : k < s.n) :
    ((s.afterTransform dir p).readArray .buf k).toNat < s.q := by
  rw [readArray_afterTransform hv hk]
  exact (transformOutput_spec h hv).1 _ (List.getElem_mem _)

end

/-- The report and the frame of a transform without error, in either direction. -/
theorem transform_completesBelowModulus (dir : Direction) (m : ModeSel) (s : State) (h : s.TablesAgree)
    (hchecks : firstFailure (ruleChecks (transformInstr dir m) s) = none) :
    ∃ t, exec (transformInstr dir m) s = .next t ∧
      TransformReport s t (recordedPath m (autoPath s.params s.operands.ctrl dir s.q)) ∧
      (∀ k < s.n, (t.readArray .buf k).toNat < s.q) ∧
      (∀ a, a < 0x01000000 ∨ 0x01000000 + 8 * s.n ≤ a → t.readByte a = s.readByte a) ∧
      t.x = s.x ∧ t.errCmd = s.errCmd ∧ SameControl s t ∧ SameTables s t := by
  obtain ⟨p, hp, hv, he⟩ := transform_completes h hchecks
  exact ⟨_, he, hp ▸ ⟨completed_none_eq _, rfl⟩, fun k hk => readArray_afterTransform_lt hv h hk,
    fun a ha => readByte_transformOutput_outside hv ha, rfl, rfl, sameControl_transformed s _ p, sameTables_transformed s _ p⟩

/-- Settles O30. -/
theorem fnttCompletesBelowModulus : Obligations.FnttCompletesBelowModulus := fun m s _ h hchecks =>
  (autoPath_eq s).1 ▸ transform_completesBelowModulus .fwd m s h hchecks

/-- Settles O31. -/
theorem inttCompletesBelowModulus : Obligations.InttCompletesBelowModulus := fun m s _ h hchecks =>
  (autoPath_eq s).2 ▸ transform_completesBelowModulus .inv m s h hchecks

/-- Two modes that pass the checks of a direction leave the same memory: their outputs are below q and have the same residues. -/
theorem transform_sameMemory {s : State} {dir : Direction} {m m' : ModeSel} (h : s.TablesAgree)
    (hchecks : firstFailure (ruleChecks (transformInstr dir m) s) = none)
    (hchecks' : firstFailure (ruleChecks (transformInstr dir m') s) = none) :
    ∃ t t', exec (transformInstr dir m) s = .next t ∧ exec (transformInstr dir m') s = .next t' ∧ t.mem = t'.mem := by
  obtain ⟨p, -, hv, he⟩ := transform_completes h hchecks
  obtain ⟨p', -, hv', he'⟩ := transform_completes h hchecks'
  obtain ⟨hlt, hres⟩ := transformOutput_spec h hv
  obtain ⟨hlt', hres'⟩ := transformOutput_spec h hv'
  exact ⟨_, _, he, he', congrArg (s.mem.storeWords .buf) (eq_of_residues hlt hlt' (hres.trans hres'.symm))⟩

/-- Settles O35. -/
theorem pathsAreBitExact : Obligations.PathsAreBitExact := fun _ _ _ _ h =>
  ⟨fun hm hm' => transform_sameMemory (dir := .fwd) h hm hm', fun hm hm' => transform_sameMemory (dir := .inv) h hm hm'⟩

/-- Settles O58: of the steps only a completion touches FATAL, and a transform's postcondition holds where the tables agree. -/
theorem fatalIsNeverSet : Obligations.FatalIsNeverSet := by
  intro s t hlegal h hfatal hstep
  cases moved_of_step hstep with
  | quiet | refused | asserted => exact hfatal
  | stored off lanes rest u hin hreset hidle hlen hu => cases hu <;> exact hfatal
  | released => rfl
  | illegal rest p e hreset hp hd => exact (raise_fatal (by rw [detailOfDecodeError_errClass]; decide)).trans hfatal
  | command rest p i _ hreset hp hd hc =>
    have hagree : State.TablesAgree { s with inputs := rest } := tablesAgree_of_kept h ⟨⟨rfl, rfl, rfl, rfl⟩, rfl, fun _ _ => rfl⟩
    cases hc with
    | raised d hd => exact (raise_fatal hd.2).trans hfatal
    | scalar | reversed | built | transformed => simpa using hfatal
    | postcondition dir m p hi hv hge =>
      obtain ⟨w, hw, hge⟩ := hge
      exact absurd ((transformOutput_spec hagree hv).1 w hw) (Nat.not_lt.mpr hge)

end Sys2Proof.Machine

/-! # The laws of FNTT and INTT for a prime modulus (43_ntt.md R177, R186)

The roots of the tables TBUILD builds; then the forward law, the inverse law and the round trip. -/

namespace Sys2Proof.Machine

/-! ## The roots -/

/-- The reversal of a number in two parts: the parts reversed, in the other order. -/
theorem bitRev_split (a b hi : Nat) {lo : Nat} (h : lo < 2 ^ a) :
    bitRev (a + b) (lo + 2 ^ a * hi) = bitRev a lo * 2 ^ b + bitRev b hi := by
  induction a generalizing lo with
  | zero =>
    obtain rfl : lo = 0 := by simpa using h
    simp [bitRev]
  | succ a ih =>
    rw [Nat.pow_succ] at h
    have hparity : (lo + 2 ^ (a + 1) * hi) % 2 = lo % 2 := by
      rw [Nat.pow_succ', Nat.mul_assoc, Nat.add_mul_mod_self_left]
    have hhalf : (lo + 2 ^ (a + 1) * hi) / 2 = lo / 2 + 2 ^ a * hi := by
      rw [Nat.pow_succ', Nat.mul_assoc, Nat.add_mul_div_left _ _ (by decide)]
    rw [Nat.add_right_comm, bitRev_succ, bitRev_succ, hparity, hhalf, ih (by omega)]
    ring

/-- Where a stage of groups of 2t words stands in the reversal of the roots' indices: the exponent of a root, times t, is that of its
group's twiddle, but for multiples of n and 2n. -/
theorem bitRev_root (a b : Nat) {i j e : Nat} (hi : i < 2 ^ b) (hj : j < 2 ^ a) (he : e < 2) :
    (2 * bitRev (a + b + 1) (2 ^ a * (2 * i + e) + j) + 1) * 2 ^ a =
      bitRev (a + b + 1) (2 ^ b + i) + 2 ^ (a + b + 1) * e + 2 * 2 ^ (a + b + 1) * bitRev a j := by
  have hgroup : bitRev (b + 1) (2 * i + e) = e * 2 ^ b + bitRev b i := by
    rw [bitRev_succ, show (2 * i + e) % 2 = e by omega, show (2 * i + e) / 2 = i by omega]
  have hroot : bitRev (a + b + 1) (2 ^ a * (2 * i + e) + j) = bitRev a j * 2 ^ (b + 1) + (e * 2 ^ b + bitRev b i) := by
    rw [← hgroup, ← bitRev_split a (b + 1) _ hj, Nat.add_comm j, Nat.add_assoc]
  have hone : bitRev (a + 1) 1 = 2 ^ a := by
    rw [bitRev_succ, Nat.one_mod, Nat.one_mul, show (1 / 2 : Nat) = 0 from rfl, bitRev_zero, Nat.add_zero]
  have htwiddle : bitRev (a + b + 1) (2 ^ b + i) = bitRev b i * 2 ^ (a + 1) + 2 ^ a := by
    rw [Nat.add_comm (2 ^ b), show a + b + 1 = b + (a + 1) by omega, ← hone, ← bitRev_split b (a + 1) 1 hi, Nat.mul_one]
  rw [hroot, htwiddle]
  ring

section
variable {R : Type} [CommRing R]

/-- The exponents 2 bitRev_L(k) + 1 of R177. -/
def rootExponent (n k : Nat) : Nat := 2 * bitRev n.log2 k + 1

/-- The odd powers of an n-th root of -1 are the roots of a transform by its powers in bit-reversed order (R153, R177). -/
theorem roots_of_pow_degree {n : Nat} {x : R} (hpow : n = 2 ^ n.log2) (hx : x ^ n = -1) {w : Nat → R}
    (hw : ∀ k < n, w k = x ^ bitRev n.log2 k) : Roots n w fun k => x ^ rootExponent n k := by
  intro t m hN i hi j hj
  obtain ⟨a, -, rfl⟩ := (Nat.dvd_prime_pow Nat.prime_two).mp (show t ∣ 2 ^ n.log2 from hpow ▸ ⟨2 * m, by rw [← hN]; ring⟩)
  obtain ⟨b, -, rfl⟩ := (Nat.dvd_prime_pow Nat.prime_two).mp (show m ∣ 2 ^ n.log2 from hpow ▸ ⟨2 * 2 ^ a, by rw [← hN]; ring⟩)
  have hn : n = 2 ^ (a + b + 1) := by rw [← hN]; ring
  have hL : n.log2 = a + b + 1 := by rw [hn, Nat.log2_two_pow]
  have hone : x ^ (2 * n) = 1 := by rw [Nat.mul_comm, pow_mul, hx]; ring
  have htwiddle : w (2 ^ b + i) = x ^ bitRev (a + b + 1) (2 ^ b + i) := by
    rw [hw _ (by rw [hn, Nat.pow_succ, Nat.pow_add]; have := Nat.two_pow_pos a; nlinarith), hL]
  have root {e : Nat} (he : e < 2) : (x ^ rootExponent n (2 ^ a * (2 * i + e) + j)) ^ 2 ^ a = w (2 ^ b + i) * (-1) ^ e := by
    rw [← pow_mul, rootExponent, hL, bitRev_root a b hi hj he, ← hn, pow_add, pow_add, pow_mul, pow_mul, hx, hone, one_pow, mul_one,
      htwiddle]
  constructor
  · simpa using root (e := 0) (by decide)
  · simpa using root (e := 1) (by decide)

/-- An inverse of a power where x^N = 1. -/
theorem pow_sub_mod_mul_pow {x : R} {N : Nat} (hN : 0 < N) (hx : x ^ N = 1) (e : Nat) : x ^ (N - e % N) * x ^ e = 1 := by
  rw [pow_eq_pow_mod e hx, ← pow_add, Nat.sub_add_cancel (Nat.mod_lt e hN).le, hx]

/-- Its powers are the inverses of the powers. -/
theorem pow_sub_mod_pow {x : R} {N : Nat} (hN : 0 < N) (hx : x ^ N = 1) (e j : Nat) : (x ^ (N - e % N)) ^ j = x ^ (N - e * j % N) := by
  refine left_inv_eq_right_inv (a := x ^ (e * j)) ?_ ?_
  · rw [pow_mul, ← mul_pow, pow_sub_mod_mul_pow hN hx, one_pow]
  · rw [mul_comm, pow_sub_mod_mul_pow hN hx]

end

/-- The inverse of R182 is one. -/
theorem invMod_degree {n q : Nat} (hq : 1 < q) (hf : q % (2 * n) = 1) : (invMod n q : ZMod q) * n = 1 := by
  have hg : Nat.gcd n q = 1 := by
    have hdvd : Nat.gcd n q ∣ q % (2 * n) :=
      (Nat.dvd_mod_iff (Dvd.dvd.mul_left (Nat.gcd_dvd_left n q) 2)).mpr (Nat.gcd_dvd_right n q)
    rw [hf] at hdvd
    exact Nat.dvd_one.mp hdvd
  have hmod := (invMod_spec hq hg).2
  rw [mul_comm]
  exact_mod_cast (ZMod.natCast_eq_natCast_iff' _ 1 q).mpr (hmod.trans (Nat.mod_eq_of_lt hq).symm)

section
variable {s : State} {q g : Nat} (hroot : RootAccepted s.n q g) (hs : s.TableHolds s.n q g) (hq : s.q = q)
include hroot hs hq

/-- The residues of the forward powers (R153). -/
theorem fwdPow_residue {k : Nat} (hk : k < s.n) : (s.residueArray .fwdPow).getD k 0 = (g : ZMod s.q) ^ bitRev s.n.log2 k := by
  subst hq
  rw [residueArray_getD s _ hk, hs.fwdPow_eq hroot.degreePow hk, ZMod.natCast_mod, Nat.cast_pow]

/-- Those of the inverse powers are their inverses (R155). -/
theorem invPow_residue {k : Nat} (hk : k < s.n) : (s.residueArray .invPow).getD k 0 * (s.residueArray .fwdPow).getD k 0 = 1 := by
  subst hq
  rw [residueArray_getD s _ hk, residueArray_getD s _ hk, mul_comm]
  exact_mod_cast (ZMod.natCast_eq_natCast_iff' _ 1 s.q).mpr
    ((hs.invPow k hk).2.trans (Nat.mod_eq_of_lt hroot.one_lt).symm)

end

/-- The roots of INTT: the inverses of FNTT's (R186). -/
def inverseRoot (q n g k : Nat) : ZMod q := (g : ZMod q) ^ (2 * n - rootExponent n k % (2 * n))

section
variable {s : State} {g : Nat} (hroot : RootAccepted s.n s.q g) (hs : s.TableHolds s.n s.q g) (hprime : Nat.Prime s.q)
include hroot hs hprime

theorem fwdPow_roots : Roots s.n (fun k => (s.residueArray .fwdPow).getD k 0) fun k => (g : ZMod s.q) ^ rootExponent s.n k :=
  roots_of_pow_degree hroot.degreePow (hroot.cast_pow_degree hprime) fun _ hk => fwdPow_residue hroot hs rfl hk

theorem invPow_roots : Roots s.n (fun k => (s.residueArray .invPow).getD k 0) (inverseRoot s.q s.n g) :=
  (fwdPow_roots hroot hs hprime).inverse
    (fun k _ => pow_sub_mod_mul_pow (by have := hroot.degreeMin; omega) hroot.cast_pow_two_mul (rootExponent s.n k))
    fun _ _ hk => invPow_residue hroot hs rfl hk

/-! ## The laws -/

/-- A word of the forward transform (R177). -/
theorem forwardTransform_value {k : Nat} (hk : k < s.n) :
    (s.residueOutput .fwd).getD k 0 = (negacyclicValue s.n s.q g (fun j => (s.readArray .buf j).toNat) k : ZMod s.q) := by
  rw [State.residueOutput, forwardTransform_getD hroot.degreePow (residueArray_length s _) (residueArray_length s _)
    (fwdPow_roots hroot hs hprime) hk, negacyclicValue, ZMod.natCast_mod, Nat.cast_sum]
  refine Finset.sum_congr rfl fun j hj => ?_
  rw [residueArray_getD s _ (Finset.mem_range.mp hj), ← pow_mul, Nat.cast_mul, Nat.cast_pow, rootExponent]

/-- A word of the inverse transform, times n (R186). -/
theorem inverseTransform_value {j : Nat} (hj : j < s.n) :
    s.n * (s.residueOutput .inv).getD j 0 = (scaledCoefficient s.n s.q g (fun k => (s.readArray .buf k).toNat) j : ZMod s.q) := by
  have hinv : (s.n : ZMod s.q) * s.invDegree = 1 := by
    rw [mul_comm]
    exact invMod_degree hroot.one_lt hroot.friendly
  rw [State.residueOutput, State.inverseResidueOutput, inverseTransform_getD hroot.degreePow hroot.degreeMin (residueArray_length s _)
    (residueArray_length s _) (invPow_roots hroot hs hprime) _ hj, ← mul_assoc, hinv, one_mul, scaledCoefficient, ZMod.natCast_mod,
    Nat.cast_sum]
  refine Finset.sum_congr rfl fun k hk => ?_
  rw [residueArray_getD s _ (Finset.mem_range.mp hk), Nat.cast_mul, Nat.cast_pow, inverseRoot,
    pow_sub_mod_pow (by have := hroot.degreeMin; omega) hroot.cast_pow_two_mul, rootExponent]

end

/-- Settles O32: FNTT's words are below the modulus and have the residues of the transform at the odd powers of the root. -/
theorem fnttComputesNegacyclicTransform : Obligations.FnttComputesNegacyclicTransform := by
  intro m s _ h hprime hchecks
  obtain ⟨p, -, hv, he⟩ := transform_completes (dir := .fwd) h hchecks
  obtain ⟨hroot, hs⟩ := tables_of_validated h hv
  refine ⟨_, he, rfl, fun k hk => ?_⟩
  have hcast := (readArray_afterTransform_cast hv h hk).trans (forwardTransform_value hroot hs hprime hk)
  have hmod := (ZMod.natCast_eq_natCast_iff' _ _ s.q).mp hcast
  rwa [Nat.mod_eq_of_lt (readArray_afterTransform_lt hv h hk), negacyclicValue, Nat.mod_mod] at hmod

/-- Settles O33: INTT's words have the residues of the transform at the inverse roots, n^(-1) folded in. -/
theorem inttComputesInverseTransform : Obligations.InttComputesInverseTransform := by
  intro m s _ h hprime hchecks
  obtain ⟨p, -, hv, he⟩ := transform_completes (dir := .inv) h hchecks
  obtain ⟨hroot, hs⟩ := tables_of_validated h hv
  refine ⟨_, he, rfl, fun j hj => ⟨readArray_afterTransform_lt hv h hj, ?_⟩⟩
  have hcast := inverseTransform_value hroot hs hprime hj
  rw [← readArray_afterTransform_cast hv h hj, ← Nat.cast_mul] at hcast
  have hmod := (ZMod.natCast_eq_natCast_iff' _ _ s.q).mp hcast
  rwa [scaledCoefficient, Nat.mod_mod] at hmod

/-! ## The round trip -/

/-- The step that completes an issued command runs it (30_encoding.md R103, 60_exceptions.md R223). -/
theorem step_issue {s : State} {i : Instr} (hi : i.wellFormed = true) (hreset : s.inReset = false) :
    step (s.issue i) = exec i (s.issue i) := by
  rw [step_of_no_inputs rfl]
  exact completionStep_of_decodes (p := ⟨encode i, s.snapshot⟩) hreset rfl (decodeOfEncodeIsIdentity i hi)

/-- It runs against the live values of an idle block. -/
theorem issue_operands {s : State} (hidle : s.pending = none) (i : Instr) : (s.issue i).operands = s.operands :=
  (operands_of_idle s hidle).symm

theorem tablesAgree_issue {s : State} (h : s.TablesAgree) (i : Instr) : (s.issue i).TablesAgree :=
  tablesAgree_of_kept h ⟨⟨rfl, rfl, rfl, rfl⟩, rfl, fun _ _ => rfl⟩

/-- Two lists of checks, one after the other. -/
theorem firstFailure_append_eq_none (cs cs' : List (Bool × Detail)) :
    firstFailure (cs ++ cs') = none ↔ firstFailure cs = none ∧ firstFailure cs' = none := by
  induction cs with
  | nil => simp [firstFailure]
  | cons c cs ih => rw [List.cons_append, firstFailure_cons_eq_none, firstFailure_cons_eq_none, ih, and_assoc]

/-- The checks of a transform are those of its path and of what its mode does not touch: they pass in a state that differs by the words
of BUF, where these are below the modulus. -/
theorem transformChecks_of_validated {s t : State} {dir dir' : Direction} {m m' : ModeSel} {p : NttPath} (hv : Validated s dir m p)
    (hop : t.operands = s.operands) (hparams : t.params = s.params) (htables : SameTables s t)
    (hbuf : ∀ k < s.n, (t.readArray .buf k).toNat < s.q) (hmode : (requestedPath m').isSome = true)
    (hpath : firstFailure (pathChecks dir' m' t) = none) : firstFailure (transformChecks dir' m' t) = none := by
  have hn : t.n = s.n := by rw [State.n, State.n, hop]
  have hq : t.q = s.q := by rw [State.q, State.q, hop]
  have hpow : isPowerOfTwo s.n = true := by simpa [isPowerOfTwo] using hv.degreePow
  have hmax : s.n ≤ 2 ^ s.params.nMaxLog2 := hv.degreeMax
  have hzero : s.q ≠ 0 := by
    intro h0
    have := hv.friendly
    rw [h0, Nat.zero_mod] at this
    exact absurd this (by decide)
  obtain ⟨hN, hQ, -, hV⟩ := htables
  simp only [transformChecks, degreeChecks, firstFailure_append_eq_none, hpath, hmode, hn, hq, hparams, hN, hQ,
    hV, hv.tblN, hv.tblQ, hv.valid, hv.friendly, hpow, firstFailure]
  simpa using And.intro (And.intro hzero (And.intro hv.degreeMin hmax)) hbuf

/-- INTT on the words FNTT computes gives the words FNTT had, with the same table of inverses. -/
theorem inverseOutput_forwardOutput {s t : State} {m : ModeSel} {p : NttPath} (h : s.TablesAgree) (hv : Validated s .fwd m p)
    (hprime : Nat.Prime s.q) (hn : t.n = s.n) (hq : t.q = s.q) (hbuf : t.loadArray .buf s.n = s.transformOutput .fwd p)
    (hinv : t.loadArray .invPow s.n = s.loadArray .invPow s.n) {k : Nat} (hk : k < s.n) :
    (t.residueOutput .inv).getD k 0 = ((s.readArray .buf k).toNat : ZMod t.q) := by
  obtain ⟨hroot, hs⟩ := tables_of_validated h hv
  have hout := inverseTransform_forwardTransform hroot.degreePow hroot.degreeMin (residueArray_length s .fwdPow)
    (residueArray_length s .invPow) (residueArray_length s .buf) (invPow_roots hroot hs hprime)
    (fun k _ hk => invPow_residue hroot hs rfl hk) (invMod_degree hroot.one_lt hroot.friendly) hk
  rw [residueArray_getD s _ hk] at hout
  simp only [State.residueOutput, State.inverseResidueOutput, State.residueArray, State.invDegree]
  rw [hn, hq, hbuf, hinv, (transformOutput_spec h hv).2]
  exact hout

/-- The checks of an issued transform are those of the idle block. -/
theorem transformChecks_issue {s : State} (hidle : s.pending = none) (i : Instr) (dir : Direction) (m : ModeSel) :
    transformChecks dir m (s.issue i) = transformChecks dir m s := by
  simp only [transformChecks, degreeChecks, pathChecks, State.n, State.q, issue_operands hidle]
  rfl

theorem pathChecks_congr {s t : State} (hop : t.operands = s.operands) (hparams : t.params = s.params) (dir : Direction) (m : ModeSel) :
    pathChecks dir m t = pathChecks dir m s := by
  have hq : t.q = s.q := by rw [State.q, State.q, hop]
  rw [pathChecks, pathChecks, hop, hparams, hq]

/-- The array words below the degree after a transform: its output in BUF, and the other columns as they were. -/
theorem loadArray_afterTransform {s : State} {dir : Direction} {m : ModeSel} {p : NttPath} (hlegal : s.params.legal = true)
    (hv : Validated s dir m p) : (s.afterTransform dir p).loadArray .buf s.n = s.transformOutput dir p ∧
      (s.afterTransform dir p).loadArray .invPow s.n = s.loadArray .invPow s.n := by
  have hlen := transformOutput_length (p := p) hv
  have hmax := hv.degreeMax.trans (nMax_le_of_legal hlegal)
  constructor
  · conv_rhs => rw [← loadArray_storeArray s .buf (s.transformOutput dir p), hlen]
    rfl
  · refine List.map_congr_left fun k hk => ?_
    exact readArray_storeArray_other s (by decide) (by omega) (by have := List.mem_range.mp hk; omega)

/-- In a state whose BUF holds FNTT's words, and that has its operands and its tables, INTT gives the words FNTT had. -/
theorem intt_restores {s t : State} {m m' : ModeSel} {p : NttPath} (h : s.TablesAgree) (hv : Validated s .fwd m p)
    (hprime : Nat.Prime s.q) (ht : t.TablesAgree) (hop : t.operands = s.operands) (hparams : t.params = s.params)
    (htables : SameTables s t) (hbuf : t.loadArray .buf s.n = s.transformOutput .fwd p)
    (hinv : t.loadArray .invPow s.n = s.loadArray .invPow s.n) (hlt : ∀ k < s.n, (t.readArray .buf k).toNat < s.q)
    (hmode : (requestedPath m').isSome = true) (hpath : firstFailure (pathChecks .inv m' t) = none) :
    ∃ p', exec (.intt m') t = .next (t.afterTransform .inv p') ∧
      ∀ k < s.n, (t.afterTransform .inv p').readArray .buf k = s.readArray .buf k := by
  obtain ⟨p', -, hv', he⟩ := transform_completes (dir := .inv) ht (transformChecks_of_validated hv hop hparams htables hlt hmode hpath)
  have hn : t.n = s.n := by rw [State.n, State.n, hop]
  have hq : t.q = s.q := by rw [State.q, State.q, hop]
  refine ⟨p', he, fun k hk => BitVec.eq_of_toNat_eq ?_⟩
  have hk' : k < t.n := hn.symm ▸ hk
  have hword : (s.readArray .buf k).toNat < t.q := by
    rw [hq]
    exact hv.elements _ (List.mem_map.mpr ⟨k, List.mem_range.mpr hk, rfl⟩)
  have hcast := (readArray_afterTransform_cast hv' ht hk').trans (inverseOutput_forwardOutput h hv hprime hn hq hbuf hinv hk)
  have hmod := (ZMod.natCast_eq_natCast_iff' _ _ _).mp hcast
  rwa [Nat.mod_eq_of_lt (readArray_afterTransform_lt hv' ht hk'), Nat.mod_eq_of_lt hword] at hmod

/-- So it does where INTT is issued after the completion of FNTT, whose snapshot the live values were. -/
theorem intt_issued_restores {s : State} {m m' : ModeSel} {p : NttPath} (hlegal : s.params.legal = true) (h : s.TablesAgree)
    (hv : Validated s .fwd m p) (hprime : Nat.Prime s.q) (hlive : s.snapshot = s.operands)
    (hafter : (s.afterTransform .fwd p).TablesAgree) (hmode : (requestedPath m').isSome = true)
    (hpath : firstFailure (pathChecks .inv m' s) = none) :
    ∃ u, exec (.intt m') ((s.afterTransform .fwd p).issue (.intt m')) = .next u ∧ u.status.err = .none ∧
      ∀ k < s.n, u.readArray .buf k = s.readArray .buf k := by
  have hop : ((s.afterTransform .fwd p).issue (.intt m')).operands = s.operands := hlive
  obtain ⟨hbuf, hinv⟩ := loadArray_afterTransform hlegal hv
  obtain ⟨p', he, hrestored⟩ := intt_restores h hv hprime (tablesAgree_issue hafter (.intt m')) hop rfl ⟨rfl, rfl, rfl, rfl⟩ hbuf hinv
    (fun k hk => readArray_afterTransform_lt hv h hk) hmode ((congrArg firstFailure (pathChecks_congr hop rfl .inv m')).trans hpath)
  exact ⟨_, he, rfl, hrestored⟩

/-- Settles O34: the two completions are those of `transform_completes`, INTT's against FNTT's words and the same tables. -/
theorem inttAfterFnttRestoresBuffer : Obligations.InttAfterFnttRestoresBuffer := by
  intro m m' s hwf hwf' hlegal h hreset hidle hprime hchecks hpath hmode
  have hop := issue_operands hidle (.fntt m)
  have hn : (s.issue (.fntt m)).n = s.n := by rw [State.n, State.n, hop]
  have hprime0 : Nat.Prime (s.issue (.fntt m)).q := by rwa [State.q, hop]
  have h0 := tablesAgree_issue h (.fntt m)
  have hlegal0 : (s.issue (.fntt m)).params.legal = true := hlegal
  have hstep := step_issue (i := .fntt m) hwf hreset
  obtain ⟨p, -, hv, he⟩ := transform_completes (dir := .fwd) (m := m) h0
    ((congrArg firstFailure (transformChecks_issue hidle (.fntt m) .fwd m)).trans hchecks)
  have hafter := everyStepKeepsTablesAgreeing _ _ hlegal0 h0 (hstep.trans he)
  have hpath0 := (congrArg firstFailure (pathChecks_congr hop rfl .inv m')).trans hpath
  obtain ⟨u, hu, herr, hrestored⟩ := intt_issued_restores hlegal0 h0 hv hprime0 rfl hafter hmode hpath0
  have hstep' := step_issue (s := State.afterTransform (s.issue (.fntt m)) .fwd p) (i := .intt m') hwf' hreset
  exact ⟨_, u, hstep.trans he, rfl, hstep'.trans hu, herr, fun k hk => hrestored k (hn.symm ▸ hk)⟩

end Sys2Proof.Machine

/-! # The sentinel slot (42_bitrev_table.md R159)

Word 0 of the power columns is 1, and the transforms read the tables from index 1 on. -/

namespace Sys2Proof.Machine

/-! ## Word 0 of a built table -/

/-- The forward power of index 0 is the 0-th (R153). -/
theorem fwdPow_zero {s : State} {n q g : Nat} (hroot : RootAccepted n q g) (hs : s.TableHolds n q g) :
    (s.readArray .fwdPow 0).toNat = 1 := by
  rw [hs.fwdPow_eq hroot.degreePow (by have := hroot.degreeMin; omega), bitRev_zero, pow_zero, Nat.mod_eq_of_lt hroot.one_lt]

/-- Its inverse is 1 (R155). -/
theorem invPow_zero {s : State} {n q g : Nat} (hroot : RootAccepted n q g) (hs : s.TableHolds n q g) :
    (s.readArray .invPow 0).toNat = 1 := by
  obtain ⟨hlt, hone⟩ := hs.invPow 0 (by have := hroot.degreeMin; omega)
  rwa [fwdPow_zero hroot hs, Nat.one_mul, Nat.mod_eq_of_lt hlt] at hone

/-! ## The transforms read a table from index 1 on -/

section
variable {table table' : List (Word × Word)} (h : table.drop 1 = table'.drop 1)
include h

/-- A stage's twiddles (R172, R180). -/
theorem stageTwiddles_congr {m : Nat} (hm : 0 < m) : stageTwiddles table m = stageTwiddles table' m := by
  obtain ⟨l, rfl⟩ : ∃ l, m = 1 + l := Nat.exists_eq_add_of_le hm
  rw [stageTwiddles, stageTwiddles, ← List.drop_drop, ← List.drop_drop, h]

theorem forwardStages_congr (bfly : Butterfly) (stages : Nat) {m : Nat} (hm : 0 < m) (t : Nat) (buf : List Word) :
    forwardStages bfly table stages m t buf = forwardStages bfly table' stages m t buf := by
  induction stages generalizing m t buf with
  | zero => rfl
  | succ stages ih => rw [forwardStages, forwardStages, stageTwiddles_congr h hm, ih (by omega)]

theorem inverseStages_congr (bfly : Butterfly) (stages t : Nat) (buf : List Word) :
    inverseStages bfly table stages (2 ^ stages) t buf = inverseStages bfly table' stages (2 ^ stages) t buf := by
  induction stages generalizing t buf with
  | zero => rfl
  | succ stages ih =>
    rw [inverseStages, inverseStages, stageTwiddles_congr h (Nat.two_pow_pos _), Nat.pow_succ, Nat.mul_div_cancel _ (by decide), ih]

/-- FNTT's outputs (R171, R176). -/
theorem forwardLazy_congr (s n q : Nat) (buf : List Word) : forwardLazy s n q table buf = forwardLazy s n q table' buf := by
  rw [forwardLazy, forwardLazy, forwardStages_congr h _ _ Nat.one_pos]

theorem forwardReference_congr (n q : Nat) (buf : List Word) : forwardReference n q table buf = forwardReference n q table' buf :=
  forwardStages_congr h _ _ Nat.one_pos _ _

/-- The twiddle W1 of the final inverse stage (R182). -/
theorem lastTwiddle_congr : table.getD 1 (0, 0) = table'.getD 1 (0, 0) := by
  have drop_one (l : List (Word × Word)) : l.getD 1 (0, 0) = (l.drop 1).getD 0 (0, 0) := by
    rw [List.getD_eq_getElem?_getD, List.getD_eq_getElem?_getD, List.getElem?_drop]
  rw [drop_one, drop_one, h]

variable {n : Nat} (hpow : n = 2 ^ n.log2) (hmin : 2 ≤ n)
include hpow hmin

/-- The inverse stages of a degree, but for the final one. -/
theorem inverseStages_degree_congr (bfly : Butterfly) (buf : List Word) :
    inverseStages bfly table (n.log2 - 1) (n / 2) 1 buf = inverseStages bfly table' (n.log2 - 1) (n / 2) 1 buf := by
  obtain ⟨l, hl⟩ := log2_succ hpow hmin
  have hhalf : n / 2 = 2 ^ l := by rw [hpow, hl, Nat.pow_succ, Nat.mul_div_cancel _ (by decide)]
  rw [hhalf, hl, Nat.add_sub_cancel, inverseStages_congr h]

/-- INTT's outputs (R179, R185). -/
theorem inverseLazy_congr (q : Nat) (buf : List Word) : inverseLazy n q table buf = inverseLazy n q table' buf := by
  unfold inverseLazy
  rw [lastTwiddle_congr h, inverseStages_degree_congr h hpow hmin, stageTwiddles_congr h Nat.one_pos]

theorem inverseReference_congr (q : Nat) (buf : List Word) : inverseReference n q table buf = inverseReference n q table' buf := by
  unfold inverseReference
  rw [lastTwiddle_congr h, inverseStages_degree_congr h hpow hmin, stageTwiddles_congr h Nat.one_pos]

end

/-- The table of two columns that agree from index 1 on. -/
theorem twiddleTable_drop_congr {s t : State} {n : Nat} (h : ∀ arr, ∀ k < n, k ≠ 0 → s.readArray arr k = t.readArray arr k)
    (powers companion : ArrayId) :
    (s.twiddleTable powers companion n).drop 1 = (t.twiddleTable powers companion n).drop 1 := by
  have column (arr : ArrayId) : (s.loadArray arr n).drop 1 = (t.loadArray arr n).drop 1 := by
    refine List.ext_getElem (by simp) fun k hk _ => ?_
    rw [List.length_drop, loadArray_length] at hk
    rw [List.getElem_drop, List.getElem_drop, loadArray_getElem, loadArray_getElem]
    exact h arr _ (by omega) (by omega)
  rw [State.twiddleTable, State.twiddleTable, List.zip, List.drop_zipWith, column, column, ← List.drop_zipWith]

/-- Settles O29. -/
theorem sentinelSlotIsUnused : Obligations.SentinelSlotIsUnused := by
  refine ⟨fun s n q g hroot hs => ⟨fwdPow_zero hroot hs, invPow_zero hroot hs⟩, fun s t hn hq hp hmin hbuf htable p => ?_⟩
  have hpow : s.n = 2 ^ s.n.log2 := by simpa [isPowerOfTwo] using hp
  have hwords : s.loadArray .buf s.n = t.loadArray .buf s.n :=
    List.map_congr_left fun k hk => hbuf k (List.mem_range.mp hk)
  have htables := twiddleTable_drop_congr htable
  simp only [State.forwardOutput, State.inverseOutput, ← hn, ← hq, ← hwords]
  cases p with
  | reference => exact ⟨forwardReference_congr (htables _ _) .., inverseReference_congr (htables _ _) hpow hmin ..⟩
  | narrow52 | scalar | wide64 => exact ⟨forwardLazy_congr (htables _ _) .., inverseLazy_congr (htables _ _) hpow hmin ..⟩

end Sys2Proof.Machine

/-! # modular_multiply (40_modmul.md): the laws of MULLAZY, MULMODP, BRED and REDUCE -/

namespace Sys2Proof.Machine

/-! ## MULLAZY (R113) -/

/-- A width that SEL names is at most that of a word (30_encoding.md R93). -/
theorem shiftWidth_le {bs : ShiftSel} {w : Nat} (h : shiftWidth bs = some w) : w ≤ 64 := by
  cases bs <;> cases h <;> decide

/-- The exact difference of R112 with the factor of R111: in [0, 2q) and congruent to the product. -/
theorem lazyDifference {w x y f q : Nat} (hw : w ≤ 64) (hx : x < 2 ^ w) (hy : y < q) (hf : f = y * 2 ^ w / q % 2 ^ 64) :
    ∃ v : Nat, (v : Int) = (y * x : Int) - ((x * f / 2 ^ w % 2 ^ 64 : Nat) : Int) * q ∧ v < 2 * q ∧ v % q = x * y % q := by
  have hexact := (barrettFactor_eq hw hy).1
  rw [barrettFactor_eq_mod, ← hf] at hexact
  have hlt : f < 2 ^ w := hexact ▸ (barrettFactor_eq hw hy).2
  have hhigh : x * f / 2 ^ w < 2 ^ 64 :=
    (Nat.div_lt_of_lt_mul (Nat.mul_lt_mul'' hx hlt)).trans_le (Nat.pow_le_pow_right (by decide) hw)
  obtain ⟨hle, hgt⟩ := quotient_estimate (y := y) (Nat.two_pow_pos w) (Nat.zero_lt_of_lt hy) hx
  rw [← hexact] at hle hgt
  rw [Nat.mod_eq_of_lt hhigh]
  refine ⟨y * x - x * f / 2 ^ w * q, ?value, by omega, ?residue⟩
  case value => rw [Nat.cast_sub hle, Nat.cast_mul, Nat.cast_mul]
  case residue =>
    conv_rhs => rw [Nat.mul_comm x y, ← Nat.sub_add_cancel hle, Nat.add_mul_mod_self_right]

/-- Settles O14: what MULLAZY stores is the residue mod 2^64 of the exact difference, which is below 2q. -/
theorem mullazyRangeLaw : Obligations.MullazyRangeLaw := by
  intro rd rs1 rs2 rs3 bs w s hbs hx hy hq hf
  have hx' : s.src rs1 < 2 ^ w := Nat.lt_of_le_pred (Nat.two_pow_pos w) hx
  obtain ⟨v, hv, hlt, hmod⟩ := lazyDifference (shiftWidth_le hbs) hx' hy hf
  rw [← hv]
  refine ⟨⟨by omega, by omega, by rw [← hmod]; norm_cast⟩, fun hfit => ⟨v, ?exec, rfl, hlt, hmod⟩⟩
  have hword : (v : Int) % 2 ^ 64 = v := Int.emod_eq_of_lt (by omega) (by omega)
  obtain ⟨-, -, hwidth⟩ := mullazyGivesLazyProduct rd rs1 rs2 rs3 bs s
  obtain ⟨-, -, -, -, hexec⟩ := hwidth w hbs
  rw [hexec (Nat.ne_zero_of_lt hy) hy hq hx, ← hv, hword, Int.toNat_natCast]

/-! ## MULMODP (R115) -/

/-- The lazy product with the exact factor, less the modulus once, is the product (R113, R115). -/
theorem subIfGe_lazyMul {a b q : Nat} (ha : a < 2 ^ 64) (hb : b < q) (hq : 2 * q ≤ 2 ^ 64) :
    subIfGe (lazyMul 64 a b (b * 2 ^ 64 / q) q) q = a * b % q := by
  obtain ⟨hlt, hmod⟩ := lazyMul_range (s := 64) (le_refl _) ha hb hq
  rw [(barrettFactor_eq (le_refl _) hb).1] at hlt hmod
  rw [subIfGe_eq_mod hlt, hmod]

/-- MULMODP with operands below the modulus: R115's lazy product and one conditional subtraction. -/
theorem exec_mulmodp {rd rs1 rs2 rs3 : Reg} {s : State} (ha : s.src rs1 < s.q) (hb : s.src rs2 < s.q) :
    exec (.mulmodp rd rs1 rs2 rs3) s =
      .next (s.afterScalar rd (subIfGe (lazyMul 64 (s.src rs1) (s.src rs2) (s.src rs3) s.q) s.q)) :=
  completeScalar_of_ok rd (by rw [mulmodpResult, check_pos (Nat.ne_zero_of_lt ha), check_pos ha, check_pos hb])

/-- Settles O16: R115's checks in order, then the lazy product; with the exact factor the product. -/
theorem mulmodpGivesProductWithExactFactor : Obligations.MulmodpGivesProductWithExactFactor := by
  intro rd rs1 rs2 rs3 s
  refine ⟨encodes_mulmodp rd rs1 rs2 rs3, fun hq => ?modZero, fun hq hge => ?operandGeMod,
    fun ha hb => ⟨?lazy, fun hf hq => ?product⟩⟩
  case modZero => exact completeScalar_of_error rd (by simp [mulmodpResult, hq])
  case operandGeMod => exact completeScalar_of_error rd (by rw [mulmodpResult, check_pos hq, check_operands_of_ge hge])
  case lazy =>
    refine ⟨lazyMul 64 (s.src rs1) (s.src rs2) (s.src rs3) s.q, ?_, exec_mulmodp ha hb⟩
    rw [lazyMul_eq]
    exact Int.toNat_of_nonneg (Int.emod_nonneg _ (by decide))
  case product => rw [exec_mulmodp ha hb, hf, subIfGe_lazyMul (src_lt s rs1) hb (by omega)]

/-! ## BRED (R119) -/

/-- The quotient estimate of BRED with the factor floor(2^64 / q): the lazy estimate at Y = 1. -/
theorem bred_estimate {v b q : Nat} (hq : 0 < q) (hv : v < 2 ^ 64) (hb : b = 2 ^ 64 / q) :
    v * b / 2 ^ 64 * q ≤ v ∧ v < v * b / 2 ^ 64 * q + 2 * q := by
  have h := quotient_estimate (b := 2 ^ 64) (y := 1) (by decide) hq hv
  rwa [Nat.one_mul, Nat.one_mul, ← hb] at h

/-- Settles O18. -/
theorem bredLaw : Obligations.BredLaw := by
  intro rd rs1 rs2 s hq hb
  obtain ⟨hle, hlt⟩ := bred_estimate (by omega) (src_lt s rs1) hb
  constructor
  · have h1 := (Nat.le_div_iff_mul_le (by omega)).mpr hle
    have h2 := (Nat.div_lt_iff_lt_mul (by omega)).mpr (hlt.trans_eq (Nat.add_mul _ 2 _).symm)
    omega
  · have hword : lo64 (s.src rs1 - (s.src rs1 * s.src rs2 / 2 ^ 64 * s.q : Nat)) =
        s.src rs1 - s.src rs1 * s.src rs2 / 2 ^ 64 * s.q := by
      rw [← Nat.cast_sub hle, lo64_of_lt ((Nat.sub_le _ _).trans_lt (src_lt s rs1))]
    apply completeScalar_of_ok rd
    rw [bredResult, check_pos (by omega), hiProduct_of_lt (src_lt s rs1) (src_lt s rs2), hword, subIfGe_eq_mod (by omega)]
    conv_rhs => rw [← Nat.sub_add_cancel hle, Nat.add_mul_mod_self_right]

/-! ## REDUCE (R117) -/

/-- REDUCE at factor 8. -/
theorem reduceBy_eight_eq_mod {x q : Nat} (h : x < 8 * q) : reduceBy 8 x q = x % q := by
  have hfour : subIfGe x (4 * q) < 4 * q := subIfGe_lt (by omega)
  rw [reduceBy_eight, ← reduceBy_four_eq, reduceBy_four hfour, subIfGe_mod]

/-- Below mf q the result is the remainder. -/
theorem reduceBy_eq_mod {mf : FactorSel} {f x q : Nat} (hf : inputFactor mf = some f) (h : x < f * q) : reduceBy f x q = x % q := by
  cases mf with
  | f1 =>
    cases hf
    rw [reduceBy_one, Nat.mod_eq_of_lt (by omega)]
  | f2 =>
    cases hf
    rw [reduceBy_two, subIfGe_eq_mod h]
  | f4 =>
    cases hf
    exact reduceBy_four h
  | f8 =>
    cases hf
    exact reduceBy_eight_eq_mod h
  | sel n => cases hf

/-- Settles O20. -/
theorem reduceLaw : Obligations.ReduceLaw := by
  refine ⟨fun rd rs1 mf f s hf hlt => ?remainder, fun r b h => ⟨subIfGe_lt h, ?step⟩⟩
  case remainder =>
    have hq : s.q ≠ 0 := fun h0 => Nat.not_lt_zero _ (by rwa [h0, Nat.mul_zero] at hlt)
    rw [exec_reduce_of_factor rd rs1 hf hq, reduceBy_eq_mod hf hlt]
  case step =>
    unfold subIfGe
    split <;> omega

end Sys2Proof.Machine

/-! # The host's window: bus errors, reads and writes (20_memory.md, 60_exceptions.md R229)

The places of the map, one host access to a place, the fields of the words a host reads, then the settlements. -/

namespace Sys2Proof.Machine

/-! ## The places -/

/-- An operand register's place (20_memory.md R61). -/
theorem placeAt_operand (nMax : Nat) (r : Reg) : placeAt nMax (0x100 + 8 * r.val) = .xreg r := by
  have hr := r.isLt
  rw [placeAt_xreg (by omega) (by omega), Nat.add_sub_cancel_left, Nat.mul_div_cancel_left _ (by decide), Fin.ofNat_val_eq_self]

/-- The number of an array's region (R61). -/
theorem arrayAt_base {k : Nat} (hk : k < 2 ^ 20) (arr : ArrayId) : arrayAt ((arr.base + 8 * k) / 0x01000000) = some arr := by
  have hregion : (arr.base + 8 * k) / 0x01000000 = arr.base / 0x01000000 := by
    cases arr <;> simp only [ArrayId.base] <;> omega
  rw [hregion]
  cases arr <;> rfl

/-- An array word's place. -/
theorem placeAt_array {nMax k : Nat} (hmax : nMax ≤ 2 ^ 20) (hk : k < nMax) (arr : ArrayId) :
    placeAt nMax (arr.base + 8 * k) = .array arr k := by
  have hword : (arr.base + 8 * k) % 0x01000000 / 8 = k := by
    cases arr <;> simp only [ArrayId.base] <;> omega
  have hhigh : 0x180 ≤ arr.base + 8 * k := by
    cases arr <;> simp only [ArrayId.base] <;> omega
  rw [placeAt_high hhigh, arrayAt_base (by omega), hword]
  exact if_pos hk

theorem array_offset_lt {k : Nat} (hk : k < 2 ^ 20) (arr : ArrayId) : arr.base + 8 * k < 0x08000000 := by
  cases arr <;> simp only [ArrayId.base] <;> omega

theorem array_offset_aligned (arr : ArrayId) (k : Nat) : (arr.base + 8 * k) % 8 = 0 := by
  cases arr <;> simp only [ArrayId.base] <;> omega

/-! ## One access -/

/-- The write reaches a place a host may write. -/
def WritableAccess (s : State) (off : Nat) (lanes : List Byte) : Prop :=
  lanes.length = 8 ∧ off % 8 = 0 ∧ ¬reservedOffset s off ∧ ¬readOnlyOffset off

section
variable {s : State} (hreset : s.inReset = false) {off : Nat}

/-- Out of reset the window takes the 8-byte accesses at multiples of 8 (R63, R64). -/
theorem takesAccess_iff (hreset : s.inReset = false) (n : Nat) : s.takesAccess off n = true ↔ n = 8 ∧ off % 8 = 0 := by
  simp [State.takesAccess, hreset]

include hreset

/-- A read is refused in the cases of R229, and otherwise answered. -/
theorem memRead_refused_or_answered (n : Nat) :
    ((n ≠ 8 ∨ off % 8 ≠ 0 ∨ reservedOffset s off) ∧ s.memRead off n = s.busError) ∨
      (¬(n ≠ 8 ∨ off % 8 ≠ 0 ∨ reservedOffset s off) ∧ (s.memRead off n).response ≠ .busError) := by
  by_cases ht : s.takesAccess off n = true
  case neg =>
    have hna : ¬(n = 8 ∧ off % 8 = 0) := fun h => ht ((takesAccess_iff hreset n).mpr h)
    exact .inl ⟨by tauto, memRead_notTaken s (by simpa using ht)⟩
  case pos =>
    obtain ⟨hn, h8⟩ := (takesAccess_iff hreset n).mp ht
    by_cases hr : placeAt s.nMax off = .reserved
    case pos => exact .inl ⟨.inr (.inr ((placeAt_reserved_iff s h8).mp hr)), memRead_reserved s hr⟩
    case neg =>
      have hres : ¬reservedOffset s off := fun h => hr ((placeAt_reserved_iff s h8).mpr h)
      refine .inr ⟨by tauto, ?_⟩
      by_cases hu : s.busy = true ∧ (placeAt s.nMax off).unspecifiedWhileBusy = true
      case pos =>
        rw [memRead_drawn s ht hr hu.1 hu.2]
        exact Response.noConfusion
      case neg =>
        rw [memRead_answered s ht hr (by simpa [← Bool.not_eq_true, ← not_and_or] using hu)]
        exact Response.noConfusion

/-- A write is refused for busy, refused otherwise in the cases of R229, or taken. -/
theorem memWrite_refused_or_stored (hoff : off < 0x08000000) (lanes : List Byte) :
    ((s.busy = true ∧ WritableAccess s off lanes) ∧ s.memWrite off lanes = s.refuseBusy) ∨
      ((¬WritableAccess s off lanes ∨ (s.busy = false ∧ off = 0x020 ∧ s.status.fatal = true)) ∧
        s.memWrite off lanes = s.busError) ∨
      ((WritableAccess s off lanes ∧ s.busy = false ∧ ¬(off = 0x020 ∧ s.status.fatal = true)) ∧
        (s.memWrite off lanes).response ≠ .busError) := by
  by_cases hw : WritableAccess s off lanes
  case neg =>
    refine .inr (.inl ⟨.inl hw, ?_⟩)
    by_cases ht : s.takesAccess off lanes.length = true
    case neg => exact memWrite_notTaken s (by simpa using ht)
    case pos =>
      obtain ⟨hl, h8⟩ := (takesAccess_iff hreset _).mp ht
      apply memWrite_notWritable
      rw [← Bool.not_eq_true, placeAt_writable_iff s hoff h8]
      exact fun h => hw ⟨hl, h8, h⟩
  case pos =>
    obtain ⟨hl, h8, hplace⟩ := hw
    have ht := (takesAccess_iff (off := off) hreset _).mpr ⟨hl, h8⟩
    have hwritable := (placeAt_writable_iff s hoff h8).mpr hplace
    have hcmd := placeAt_cmd_iff (nMax := s.nMax) h8
    cases hb : s.busy with
    | true => exact .inl ⟨⟨rfl, hl, h8, hplace⟩, memWrite_busy s ht hwritable hb⟩
    | false =>
      by_cases hf : off = 0x020 ∧ s.status.fatal = true
      case pos => exact .inr (.inl ⟨.inr ⟨rfl, hf⟩, memWrite_fatal s hb (hcmd.mpr hf.1) hf.2⟩)
      case neg =>
        refine .inr (.inr ⟨⟨⟨hl, h8, hplace⟩, rfl, hf⟩, ?_⟩)
        have hfatal (hc : placeAt s.nMax off = .cmd) : s.status.fatal = false := by
          rw [← Bool.not_eq_true]
          exact fun h => hf ⟨hcmd.mp hc, h⟩
        rw [memWrite_stored s ht hwritable hb hfatal]
        exact Response.noConfusion

/-- A read of a place that is not reserved, nor unspecified, answers its word (R62, R63, R67). -/
theorem hostRead_place {p : Place} (hoff : off < 0x08000000) (h8 : off % 8 = 0) (hp : placeAt s.nMax off = p) (hr : p ≠ .reserved)
    (hu : s.busy = false ∨ p.unspecifiedWhileBusy = false) {w : Word} (hw : s.placeWord p = w) :
    s.hostRead off 8 = .next { s with inputs := [], response := .readOk (bytesOfWord w) } := by
  subst hp hw
  rw [hostRead_eq s hoff]
  exact congrArg Host.Outcome.next
    (memRead_answered { s with inputs := [] } ((takesAccess_iff (s := { s with inputs := [] }) hreset 8).mpr ⟨rfl, h8⟩) hr hu)

/-- A write of a word to a writable place of an idle block, CMD aside, stores it (R67). -/
theorem hostWrite_place {p : Place} (hidle : s.busy = false) (hoff : off < 0x08000000) (h8 : off % 8 = 0)
    (hp : placeAt s.nMax off = p) (hw : p.writable = true) (hc : p ≠ .cmd) (v : Word) :
    s.hostWrite off (bytesOfWord v) = .next { State.writePlace { s with inputs := [] } p v with response := .writeOk } := by
  subst hp
  rw [hostWrite_eq s hoff]
  have h := memWrite_stored { s with inputs := [] } (takesAccess_bytesOfWord (s := { s with inputs := [] }) hreset h8 v) hw hidle
    fun h => absurd h hc
  rw [h, wordOfBytes_bytesOfWord]
  rfl

end

/-! ## Bus errors -/

/-- The cases R229 lists for a write are the refusals for busy and the others. -/
theorem refusedWrite_iff (s : State) (off : Nat) (lanes : List Byte) :
    (lanes.length ≠ 8 ∨ off % 8 ≠ 0 ∨ reservedOffset s off ∨ readOnlyOffset off ∨ s.busy = true ∨
        (off = 0x020 ∧ s.status.fatal = true)) ↔
      ¬(WritableAccess s off lanes ∧ s.busy = false ∧ ¬(off = 0x020 ∧ s.status.fatal = true)) := by
  rw [← Bool.not_eq_true, WritableAccess]
  tauto

/-- Settles O41: a read and a write, case by case. -/
theorem busErrorsExactlyWhenListed : Obligations.BusErrorsExactlyWhenListed := by
  intro s off hreset hoff
  refine ⟨fun n => ⟨_, hostRead_eq s hoff n, ?read⟩, fun lanes => ⟨_, hostWrite_eq s hoff lanes, ?write⟩⟩
  case read =>
    rcases memRead_refused_or_answered (s := { s with inputs := [] }) (off := off) hreset n with ⟨hlisted, he⟩ | ⟨hnot, he⟩
    · rw [he]
      exact ⟨iff_of_true rfl hlisted, fun _ => rfl⟩
    · exact ⟨iff_of_false he hnot, fun h => absurd h he⟩
  case write =>
    rw [refusedWrite_iff]
    rcases memWrite_refused_or_stored (s := { s with inputs := [] }) hreset hoff lanes with
      ⟨⟨hb, hw⟩, he⟩ | ⟨hrefused, he⟩ | ⟨hstored, he⟩
    · rw [he]
      refine ⟨iff_of_true rfl fun ⟨_, hidle, _⟩ => ?_, fun _ => ⟨fun _ => rfl, fun h => absurd ⟨hb, hw⟩ h⟩⟩
      exact Bool.false_ne_true (hidle.symm.trans hb)
    · rw [he]
      refine ⟨iff_of_true rfl fun ⟨hw, _, hf⟩ => ?_, fun _ => ⟨fun ⟨hb, hw⟩ => ?_, fun _ => rfl⟩⟩
      · exact hrefused.elim (fun h => h hw) fun ⟨_, h⟩ => hf h
      · exact hrefused.elim (fun h => absurd hw h) fun ⟨hidle, _⟩ => absurd (hidle.symm.trans hb) Bool.false_ne_true
    · exact ⟨iff_of_false he fun h => h hstored, fun h => absurd h he⟩

/-! ## Reads -/

/-- A read of a control register that is not unspecified answers its word. -/
theorem hostRead_register {s : State} (hreset : s.inReset = false) {off : Nat} (hoff : off < 0x100) (h8 : off % 8 = 0)
    (hr : registerAt (off / 8) ≠ .reserved) (hu : s.busy = false ∨ (registerAt (off / 8)).unspecifiedWhileBusy = false) {w : Word}
    (hw : s.placeWord (registerAt (off / 8)) = w) :
    s.hostRead off 8 = .next { s with inputs := [], response := .readOk (bytesOfWord w) } :=
  hostRead_place hreset (by omega) h8 (placeAt_low hoff) hr hu hw

/-- Settles O42. -/
theorem idleReadsReturnTheMap : Obligations.IdleReadsReturnTheMap := by
  intro s hreset hidle hlegal
  have hmax := nMax_le_of_legal hlegal
  have register {off : Nat} (hoff : off < 0x100) (h8 : off % 8 = 0) (hr : registerAt (off / 8) ≠ .reserved) {w : Word}
      (hw : s.placeWord (registerAt (off / 8)) = w) := hostRead_register hreset hoff h8 hr (.inl hidle) hw
  refine ⟨register (by decide) rfl (by decide) rfl, register (by decide) rfl (by decide) rfl, register (by decide) rfl (by decide) rfl,
    register (by decide) rfl (by decide) rfl, register (by decide) rfl (by decide) rfl, register (by decide) rfl (by decide) rfl,
    register (by decide) rfl (by decide) rfl, register (by decide) rfl (by decide) rfl, register (by decide) rfl (by decide) rfl,
    register (by decide) rfl (by decide) rfl, register (by decide) rfl (by decide) rfl, fun r => ?operand, fun arr k hk => ?array⟩
  case operand =>
    have hr := r.isLt
    exact hostRead_place hreset (by omega) (by omega) (placeAt_operand _ r) Place.noConfusion (.inl hidle) rfl
  case array =>
    exact hostRead_place hreset (array_offset_lt (hk.trans_le hmax) arr) (array_offset_aligned arr k) (placeAt_array hmax hk arr)
      Place.noConfusion (.inl hidle) rfl

/-! ## Writes -/

/-- A word stored reads back (R62). -/
theorem readArray_storeBytes_word (s : State) (arr : ArrayId) (k : Nat) (v : Word) :
    (s.storeBytes (arr.base + 8 * k) (bytesOfWord v)).readArray arr k = v := by
  refine readArray_of_lanes _ fun b hb => ?_
  have hl : arr.base + 8 * k + b - (arr.base + 8 * k) < (bytesOfWord v).length := by
    rw [bytesOfWord_length]
    omega
  rw [readByte_storeBytes_inside s (Nat.le_add_right _ _) hl, List.getElem_eq_iff, Nat.add_sub_cancel_left]
  simp [bytesOfWord, hb]

/-- Settles O44. -/
theorem idleWritesStoreTheirWord : Obligations.IdleWritesStoreTheirWord := by
  intro s v hreset hidle hlegal
  have hmax := nMax_le_of_legal hlegal
  refine ⟨?modulus, ?degree, fun r => ?operand, fun k hk => ?buffer⟩
  case modulus => exact hostWrite_place (p := .modulus) hreset hidle (by decide) rfl (placeAt_low (by decide)) rfl (by decide) v
  case degree => exact hostWrite_place (p := .degree) hreset hidle (by decide) rfl (placeAt_low (by decide)) rfl (by decide) v
  case operand =>
    have hr := r.isLt
    exact hostWrite_place hreset hidle (by omega) (by omega) (placeAt_operand _ r) rfl Place.noConfusion v
  case buffer =>
    have hstored := hostWrite_place hreset hidle (array_offset_lt (hk.trans_le hmax) .buf) (array_offset_aligned .buf k)
      (placeAt_array hmax hk .buf) rfl Place.noConfusion v
    refine ⟨_, hstored, rfl, ?word, fun a ha => ?frame⟩
    case word =>
      have hbyte := fun b (_ : b < 8) => readByte_congr (s.storeBytes (ArrayId.buf.base + 8 * k) (bytesOfWord v))
        (t := { State.writePlace { s with inputs := [] } (.array .buf k) v with response := .writeOk }) rfl rfl
        (ArrayId.buf.base + 8 * k + b)
      exact (readArray_congr _ hbyte).trans (readArray_storeBytes_word s .buf k v)
    case frame =>
      exact (readByte_congr (s.storeBytes (ArrayId.buf.base + 8 * k) (bytesOfWord v)) rfl rfl a).trans
        (readByte_storeBytes_outside s (by rwa [bytesOfWord_length]))

/-- Settles O45: the hardwired enables and the kept HAZARD are conjunctions (10_state.md R39). -/
theorem ctrlWriteSetsEnablesAndClearsHazard : Obligations.CtrlWriteSetsEnablesAndClearsHazard := by
  intro s v hreset hidle
  have henables : Ctrl.written s.params v =
      { enWide64 := if s.params.wide64Impl then v.getLsbD 0 else false
        enNarrow52 := if s.params.narrow52Impl then v.getLsbD 1 else false } := by
    simp [Ctrl.written]
  have hhazard : (s.status.hazard && !v.getLsbD 8) = if v.getLsbD 8 then false else s.status.hazard := by
    cases v.getLsbD 8 <;> simp
  rw [hostWrite_place hreset hidle (by decide) rfl (placeAt_low (by decide)) rfl (by decide) v, ← henables, ← hhazard]
  rfl

/-! ## The words of STATUS, CTRL and CAP -/

theorem bitOf_le_one (b : Bool) : bitOf b ≤ 1 := by cases b <;> decide

theorem decide_bitOf_eq_one (b : Bool) : decide (bitOf b = 1) = b := by cases b <;> rfl

theorem errClass_code_lt (c : ErrClass) : c.code < 2 ^ 3 := by cases c <;> decide

theorem pathCode_lt (p : Option NttPath) : pathCode p < 2 ^ 3 := by
  cases p with
  | none => decide
  | some p => cases p <;> decide

theorem detail_code_lt (d : Detail) : d.code < 2 ^ 8 := by cases d <;> decide

/-- A bit of a word by its place value. -/
theorem getLsbD_eq_bit {w : Word} {b : Bool} {i : Nat} (h : w.toNat / 2 ^ i % 2 = bitOf b) : w.getLsbD i = b := by
  rw [BitVec.getLsbD, Nat.testBit_eq_decide_div_mod_eq, h, decide_bitOf_eq_one]

/-- STATUS as a number. -/
theorem statusWord_toNat (s : State) : s.statusWord.toNat =
    bitOf s.busy + bitOf s.status.done * 2 + s.status.err.code * 2 ^ 2 + bitOf s.status.fatal * 2 ^ 5 +
      bitOf s.status.hazard * 2 ^ 6 + bitOf s.status.tblValid * 2 ^ 7 + pathCode s.status.lastPath * 2 ^ 8 +
      s.status.errDetail.code * 2 ^ 16 := by
  have := bitOf_le_one s.busy
  have := bitOf_le_one s.status.done
  have := errClass_code_lt s.status.err
  have := bitOf_le_one s.status.fatal
  have := bitOf_le_one s.status.hazard
  have := bitOf_le_one s.status.tblValid
  have := pathCode_lt s.status.lastPath
  have := detail_code_lt s.status.errDetail
  rw [State.statusWord, BitVec.toNat_ofNat, Nat.mod_eq_of_lt (by omega)]

/-- The fields of STATUS (10_state.md R40). -/
theorem statusWord_layout (s : State) :
    s.statusWord.getLsbD 0 = s.busy ∧ s.statusWord.getLsbD 1 = s.status.done ∧ bits s.statusWord.toNat 4 2 = s.status.err.code ∧
      s.statusWord.getLsbD 5 = s.status.fatal ∧ s.statusWord.getLsbD 6 = s.status.hazard ∧
      s.statusWord.getLsbD 7 = s.status.tblValid ∧ bits s.statusWord.toNat 10 8 = pathCode s.status.lastPath ∧
      bits s.statusWord.toNat 15 11 = 0 ∧ bits s.statusWord.toNat 23 16 = s.status.errDetail.code ∧ s.statusWord.toNat < 2 ^ 24 := by
  have hword := statusWord_toNat s
  have := bitOf_le_one s.busy
  have := bitOf_le_one s.status.done
  have := errClass_code_lt s.status.err
  have := bitOf_le_one s.status.fatal
  have := bitOf_le_one s.status.hazard
  have := bitOf_le_one s.status.tblValid
  have := pathCode_lt s.status.lastPath
  have := detail_code_lt s.status.errDetail
  unfold bits
  exact ⟨getLsbD_eq_bit (by omega), getLsbD_eq_bit (by omega), by omega, getLsbD_eq_bit (by omega), getLsbD_eq_bit (by omega),
    getLsbD_eq_bit (by omega), by omega, by omega, by omega, by omega⟩

/-- The fields of CTRL (R39). -/
theorem ctrlWord_layout (c : Ctrl) : c.word.getLsbD 0 = c.enWide64 ∧ c.word.getLsbD 1 = c.enNarrow52 ∧ c.word.toNat < 4 := by
  have := bitOf_le_one c.enWide64
  have := bitOf_le_one c.enNarrow52
  have hword : c.word.toNat = bitOf c.enWide64 + bitOf c.enNarrow52 * 2 := Nat.mod_eq_of_lt (by omega)
  exact ⟨getLsbD_eq_bit (by omega), getLsbD_eq_bit (by omega), by omega⟩

/-- The fields of CAP (R38). -/
theorem capWord_layout {p : Config.Params} (hp : p.nMaxLog2 < 32) :
    (capWord p).getLsbD 0 = p.wide64Impl ∧ (capWord p).getLsbD 1 = p.narrow52Impl ∧ bits (capWord p).toNat 7 2 = 0 ∧
      bits (capWord p).toNat 12 8 = p.nMaxLog2 ∧ (capWord p).toNat < 2 ^ 13 := by
  have := bitOf_le_one p.wide64Impl
  have := bitOf_le_one p.narrow52Impl
  have hword : (capWord p).toNat = bitOf p.wide64Impl + bitOf p.narrow52Impl * 2 + p.nMaxLog2 % 2 ^ 5 * 2 ^ 8 :=
    Nat.mod_eq_of_lt (by omega)
  unfold bits
  exact ⟨getLsbD_eq_bit (by omega), getLsbD_eq_bit (by omega), by omega, by omega, by omega⟩

/-- Settles O43. -/
theorem statusWordLayout : Obligations.StatusWordLayout :=
  fun s hmax => ⟨statusWord_layout s, ctrlWord_layout s.ctrl, capWord_layout hmax⟩

/-! ## Accesses while busy -/

/-- A read of an unspecified place draws the next free value (R68). -/
theorem hostRead_hidden {s : State} (hreset : s.inReset = false) (hbusy : s.busy = true) {off : Nat} (hoff : off < 0x08000000)
    (h8 : off % 8 = 0) (hr : ¬reservedOffset s off) (hu : hiddenWhileBusy off) : s.hostRead off 8 =
      .next { s with inputs := [], response := .readOk (bytesOfWord (Config.busyRead s.draws)), draws := s.draws + 1 } := by
  rw [hostRead_eq s hoff]
  exact congrArg Host.Outcome.next (memRead_drawn { s with inputs := [] }
    ((takesAccess_iff (s := { s with inputs := [] }) hreset 8).mpr ⟨rfl, h8⟩)
    (fun h => hr ((placeAt_reserved_iff s h8).mp h)) hbusy ((placeAt_unspecified_iff s h8 hr).mpr hu))

/-- A write to a writable place of a busy block is refused with HAZARD (R68). -/
theorem hostWrite_busy {s : State} (hreset : s.inReset = false) (hbusy : s.busy = true) {off : Nat} {lanes : List Byte}
    (hoff : off < 0x08000000) (hw : WritableAccess s off lanes) : s.hostWrite off lanes =
      .next { s with inputs := [], response := .busError, status := { s.status with hazard := true } } := by
  obtain ⟨hl, h8, hplace⟩ := hw
  rw [hostWrite_eq s hoff]
  exact congrArg Host.Outcome.next (memWrite_busy { s with inputs := [] }
    ((takesAccess_iff (s := { s with inputs := [] }) hreset _).mpr ⟨hl, h8⟩) ((placeAt_writable_iff s hoff h8).mpr hplace) hbusy)

/-- Settles O46. -/
theorem busyAccesses : Obligations.BusyAccesses := by
  intro s hs hreset hbusy
  have register {off : Nat} (hoff : off < 0x100) (h8 : off % 8 = 0) (hr : registerAt (off / 8) ≠ .reserved)
      (hu : (registerAt (off / 8)).unspecifiedWhileBusy = false) {w : Word} (hw : s.placeWord (registerAt (off / 8)) = w) :=
    hostRead_register hreset hoff h8 hr (.inr hu) hw
  obtain ⟨hbit, -, herr, -, -, -, -, -, hdetail, -⟩ := statusWord_layout s
  obtain ⟨-, hnone⟩ := hs.busyReport hbusy
  refine ⟨fun off hoff h8 hr hu => hostRead_hidden hreset hbusy hoff h8 hr hu, register (by decide) rfl (by decide) rfl rfl,
    register (by decide) rfl (by decide) rfl rfl, register (by decide) rfl (by decide) rfl rfl,
    register (by decide) rfl (by decide) rfl rfl, register (by decide) rfl (by decide) rfl rfl,
    register (by decide) rfl (by decide) rfl rfl, register (by decide) rfl (by decide) rfl rfl,
    register (by decide) rfl (by decide) rfl rfl, hbit.trans hbusy, ?err, ?detail,
    fun off lanes hoff hl h8 hr hro => hostWrite_busy hreset hbusy hoff ⟨hl, h8, hr, hro⟩⟩
  case err =>
    rw [herr, hs.errMatchesDetail, hnone]
    rfl
  case detail =>
    rw [hdetail, hnone]
    rfl

end Sys2Proof.Machine

/-! # Reset (70_reset_and_hazards.md R250 to R252) -/

namespace Sys2Proof.Machine

/-- The reset values, as a host and a command see them (10_state.md R54). -/
structure AtReset (t : State) (params : Config.Params) (resets : Nat) : Prop where
  operand : ∀ r : Reg, t.x[r] = 0
  ctrl : t.ctrl.word = 0
  status : t.statusWord = 0
  cmd : t.cmd = 0
  errCmd : t.errCmd = 0
  modulus : t.modulus = 0
  degree : t.degree = 0
  tblN : t.tblN = 0
  tblQ : t.tblQ = 0
  tblRoot : t.tblRoot = 0
  pending : t.pending = none
  inReset : t.inReset = false
  params : t.params = params
  bytes : ∀ a, t.readByte a = Config.arrayAtReset resets a

/-- A reset leaves them, and keeps the parameters. -/
theorem atReset_withResetValues (params : Config.Params) (inputs : List Input) (response : Response) (draws resets : Nat) :
    AtReset (State.withResetValues params inputs response draws resets) params resets where
  operand r := by simp [State.withResetValues, State.reset]
  ctrl := rfl
  status := by
    simp [State.statusWord, State.withResetValues, State.reset, State.busy, bitOf, ErrClass.code, pathCode, Detail.code]
  cmd := rfl
  errCmd := rfl
  modulus := rfl
  degree := rfl
  tblN := rfl
  tblQ := rfl
  tblRoot := rfl
  pending := rfl
  inReset := rfl
  params := rfl
  bytes _ := rfl

/-- Nothing completes where nothing is pending. -/
theorem completionStep_idle {s : State} (h : s.pending = none) : s.completionStep = .next s := by
  unfold State.completionStep
  split
  · rfl
  · rw [h]

/-- Nothing completes in reset (R250). -/
theorem completionStep_inReset {s : State} (h : s.inReset = true) : s.completionStep = .next s := if_pos h

/-- In reset the window takes no access (R250). -/
theorem takesAccess_inReset {s : State} (h : s.inReset = true) (off n : Nat) : s.takesAccess off n = false := by
  simp [State.takesAccess, h]

/-- Settles O53: the reset state has the reset values of reset 0. -/
theorem resetStateHoldsResetValues : Obligations.ResetStateHoldsResetValues := by
  have h : AtReset State.reset Config.params 0 := atReset_withResetValues Config.params [] .noAccess 0 0
  exact ⟨h.operand, rfl, rfl, h.ctrl, h.status, h.cmd, h.errCmd, h.modulus, h.degree, h.tblN, h.tblQ, h.tblRoot, h.pending, h.bytes,
    completionStep_idle (s := State.reset) rfl⟩

/-- Settles O54: in reset every access is refused and nothing completes; the release is `afterReset`. -/
theorem resetReleaseClearsEverything : Obligations.ResetReleaseClearsEverything := by
  refine ⟨fun s off hreset hoff => ⟨fun n => ?read, fun lanes => ?write, ?idle, ?grant⟩, fun s => rfl, fun s hreset => ?release⟩
  case read =>
    rw [hostRead_eq s hoff]
    exact congrArg Host.Outcome.next (memRead_notTaken _ (takesAccess_inReset (s := { s with inputs := [] }) hreset off n))
  case write =>
    rw [hostWrite_eq s hoff]
    exact congrArg Host.Outcome.next (memWrite_notTaken _ (takesAccess_inReset (s := { s with inputs := [] }) hreset off lanes.length))
  case idle => exact completionStep_inReset (s := { s with inputs := [] }) hreset
  case grant => exact completionStep_inReset (s := { s with inputs := [] }) hreset
  case release =>
    have hstep : step { s with inputs := [.reset false] } = .next (State.afterReset { s with inputs := [] }) :=
      congrArg Host.Outcome.next (if_pos hreset)
    rw [afterReset_eq] at hstep
    have h := atReset_withResetValues s.params [] s.response s.draws (s.resets + 1)
    exact ⟨_, hstep, h.operand, h.ctrl, h.status, h.cmd, h.errCmd, h.modulus, h.degree, h.tblN, h.tblQ, h.tblRoot, h.pending,
      h.inReset, h.params, h.bytes⟩

end Sys2Proof.Machine

/-! # What a step does not depend on (00_scope.md R8, 10_state.md R32, R53, 44_dispatch.md R210)

A command's outcome as one update, the same in two states with the same operands, arrays and report; the lane counts; then the
settlements. -/

namespace Sys2Proof.Machine

/-! ## The view of a command -/

/-- All that a command reads is the same in both states. -/
structure SameView (s t : State) : Prop where
  operands : t.operands = s.operands
  mem : t.mem = s.mem
  resets : t.resets = s.resets
  status : t.status = s.status
  cmd : t.cmd = s.cmd
  errCmd : t.errCmd = s.errCmd
  tblN : t.tblN = s.tblN
  tblQ : t.tblQ = s.tblQ
  tblRoot : t.tblRoot = s.tblRoot
  capacity : t.params.nMaxLog2 = s.params.nMaxLog2
  avail : avail t.params = avail s.params

section
variable {s t : State} (h : SameView s t)
include h

theorem SameView.src : t.src = s.src := by
  funext r
  rw [State.src, State.src, h.operands]

theorem SameView.q : t.q = s.q := by rw [State.q, State.q, h.operands]

theorem SameView.n : t.n = s.n := by rw [State.n, State.n, h.operands]

theorem SameView.nMax : t.nMax = s.nMax := by rw [State.nMax, State.nMax, h.capacity]

theorem SameView.degreeChecks : degreeChecks t = degreeChecks s := by
  rw [Machine.degreeChecks, Machine.degreeChecks, h.n, h.capacity]

theorem SameView.loadArray : t.loadArray = s.loadArray := by
  funext arr n
  exact List.map_congr_left fun k _ => readArray_congr s fun b _ => readByte_congr s h.mem h.resets _

theorem SameView.twiddleTable : t.twiddleTable = s.twiddleTable := by
  funext powers companion n
  rw [State.twiddleTable, State.twiddleTable, h.loadArray]

theorem SameView.forwardOutput : t.forwardOutput = s.forwardOutput := by
  funext p
  simp only [State.forwardOutput, h.loadArray, h.twiddleTable, h.n, h.q]

theorem SameView.inverseOutput : t.inverseOutput = s.inverseOutput := by
  funext p
  simp only [State.inverseOutput, h.loadArray, h.twiddleTable, h.n, h.q]

theorem SameView.resolvePath : resolvePath t.params = resolvePath s.params := by
  funext ctrl dir mode q
  unfold Machine.resolvePath forcedPath autoPath
  rw [h.avail]

theorem SameView.nttValidate : t.nttValidate = s.nttValidate := by
  funext dir m
  simp only [State.nttValidate, State.nttChecks, h.n, h.q, h.nMax, h.resolvePath, h.operands, h.status, h.tblN, h.tblQ, h.loadArray]

end

/-! ## A command's outcome as an update -/

/-- What a completion writes: the arrays, STATUS, ERR_CMD, the table metadata, and at most one operand register. -/
structure Update where
  mem : Memory
  status : Status
  errCmd : Word
  tblN : Word
  tblQ : Word
  tblRoot : Word
  operand : Option (Reg × Word)

/-- The state after it: nothing is pending, and the rest is as it was. -/
def State.update (s : State) (u : Update) : State :=
  { s with
    mem := u.mem
    status := u.status
    errCmd := u.errCmd
    tblN := u.tblN
    tblQ := u.tblQ
    tblRoot := u.tblRoot
    pending := none
    x := match u.operand with
      | none => s.x
      | some (r, v) => s.x.set r.val v }

/-- The update that writes what is there. -/
def State.kept (s : State) : Update :=
  { mem := s.mem, status := s.status, errCmd := s.errCmd, tblN := s.tblN, tblQ := s.tblQ, tblRoot := s.tblRoot, operand := none }

theorem SameView.kept {s t : State} (h : SameView s t) : t.kept = s.kept := by
  rw [State.kept, State.kept, h.mem, h.status, h.errCmd, h.tblN, h.tblQ, h.tblRoot]

/-- The arrays with the five columns (42_bitrev_table.md R153 to R156). -/
def Memory.withTables (m : Memory) (n q g : Nat) : Memory :=
  ((((m.storeWords .fwdPow (toWords (fwdPowers n q g))).storeWords .fwdPre64 (toWords (companions 64 q (fwdPowers n q g)))).storeWords
    .fwdPre52 (toWords (companions 52 q (fwdPowers n q g)))).storeWords .invPow (toWords (invPowers n q g))).storeWords
    .invPre64 (toWords (companions 64 q (invPowers n q g)))

theorem storeTables_eq_setMem (s : State) (n q g : Nat) : s.storeTables n q g = s.setMem (s.mem.withTables n q g) := rfl

/-- What TBUILD writes (R153 to R157). -/
def Update.withTables (u : Update) (n q g : Nat) : Update :=
  { u with
    mem := u.mem.withTables n q g
    status := Status.completed { u.status with tblValid := true } .none
    tblN := BitVec.ofNat 64 n
    tblQ := BitVec.ofNat 64 q
    tblRoot := BitVec.ofNat 64 g }

/-- The metadata recorded over any arrays. -/
theorem recordTables_succeed (s : State) (m : Memory) (n q g : Nat) : ((s.setMem m).recordTables n q g).succeed =
    s.update
      { s.kept with
        mem := m
        status := Status.completed { s.status with tblValid := true } .none
        tblN := BitVec.ofNat 64 n
        tblQ := BitVec.ofNat 64 q
        tblRoot := BitVec.ofNat 64 g } := rfl

theorem buildTables_succeed (s : State) (n q g : Nat) : (s.buildTables n q g).succeed = s.update (s.kept.withTables n q g) := by
  rw [State.buildTables, storeTables_eq_setMem, recordTables_succeed]
  rfl

/-- Both states complete the command i with the same update, one of its destination where it has one and raises nothing. -/
def SameUpdate (i : Instr) (s t : State) : Prop :=
  ∃ u : Update, exec i s = .next (s.update u) ∧ exec i t = .next (t.update u) ∧
    ∀ rd, destination i = some rd → u.status.err = .none → ∃ v, u.operand = some (rd, v)

/-- A command with no destination register. -/
theorem sameUpdate_of_array {s t : State} {i : Instr} (hi : destination i = none) (u : Update) (hs : exec i s = .next (s.update u))
    (ht : exec i t = .next (t.update u)) : SameUpdate i s t :=
  ⟨u, hs, ht, fun _ hrd => nomatch hi.symm.trans hrd⟩

section
variable {s t : State} (h : SameView s t) {i : Instr}
include h

/-- A command that raises the same detail in both. -/
theorem sameUpdate_of_raise {d : Detail} (hd : d.errClass ≠ .none) (hs : exec i s = .next (s.raise d))
    (ht : exec i t = .next (t.raise d)) : SameUpdate i s t := by
  refine ⟨{ s.kept with status := s.kept.status.completed d, errCmd := s.cmd }, hs, ?_, fun _ _ hnone => absurd hnone hd⟩
  rw [ht, ← h.kept, ← h.cmd]
  rfl

/-- A scalar command with the same result in both. -/
theorem sameUpdate_of_scalar {rd : Reg} {r : Except Detail Nat} (hrd : destination i = some rd) (hr : ChecksOnly r)
    (hs : exec i s = s.completeScalar rd r) (ht : exec i t = t.completeScalar rd r) : SameUpdate i s t := by
  cases r with
  | error d => exact sameUpdate_of_raise h (hr d rfl).1 hs ht
  | ok v =>
    refine ⟨{ s.kept with status := s.kept.status.completed .none, operand := some (rd, v) }, hs, ?_, fun rd' hrd' _ => ?_⟩
    · rw [ht, ← h.kept]
      rfl
    · cases hrd.symm.trans hrd'
      exact ⟨_, rfl⟩

/-- A transform, by its output. -/
theorem sameUpdate_of_transform {p : NttPath} {out : List Word} (hi : destination i = none) (hs : exec i s = s.finishTransform p out)
    (ht : exec i t = t.finishTransform p out) : SameUpdate i s t := by
  unfold State.finishTransform at hs ht
  rw [h.q] at ht
  by_cases hlt : (out.all fun w => w.toNat < s.q) = true
  case pos =>
    rw [if_pos hlt] at hs ht
    refine sameUpdate_of_array hi
      { s.kept with
        mem := s.kept.mem.storeWords .buf out
        status := Status.completed { s.kept.status with lastPath := some p } .none } hs ?_
    rw [ht, ← h.kept]
    rfl
  case neg =>
    rw [if_neg hlt] at hs ht
    refine sameUpdate_of_array hi
      { s.kept with
        mem := s.kept.mem.storeWords .buf out
        status := s.kept.status.completed .postcondition
        errCmd := s.cmd } hs ?_
    rw [ht, ← h.kept, ← h.cmd]
    rfl

/-- A transform. -/
theorem sameUpdate_transform (dir : Direction) (m : ModeSel) : SameUpdate (transformInstr dir m) s t := by
  have hi : destination (transformInstr dir m) = none := by cases dir <;> rfl
  cases hv : s.nttValidate dir m with
  | error d =>
    exact sameUpdate_of_raise h (nttValidate_checks s dir m d hv).1 (exec_transform_of_error hv)
      (exec_transform_of_error (h.nttValidate ▸ hv))
  | ok p =>
    have hout : t.transformOutput dir p = s.transformOutput dir p := by
      cases dir with
      | fwd => exact congrFun h.forwardOutput p
      | inv => exact congrFun h.inverseOutput p
    exact sameUpdate_of_transform h hi (exec_transform_of_ok hv) (hout ▸ exec_transform_of_ok (h.nttValidate ▸ hv))

/-- A command with a list of checks and then an update. -/
theorem sameUpdate_of_answered {cs : List (Bool × Detail)} {s' t' : State} (hi : destination i = none)
    (hcs : ChecksOnly (answered cs (.ok s'))) (hs : exec i s = s.complete (answered cs (.ok s')))
    (ht : exec i t = t.complete (answered cs (.ok t'))) (u : Update) (hs' : s'.succeed = s.update u) (ht' : t'.succeed = t.update u) :
    SameUpdate i s t := by
  cases hc : firstFailure cs with
  | some d =>
    rw [answered_of_some _ hc] at hcs hs ht
    exact sameUpdate_of_raise h (hcs d rfl).1 hs ht
  | none =>
    rw [answered_of_none _ hc] at hs ht
    exact sameUpdate_of_array hi u (hs.trans (congrArg _ hs')) (ht.trans (congrArg _ ht'))

/-- BREVBUF. -/
theorem sameUpdate_brevbuf : SameUpdate .brevbuf s t := by
  have hs := exec_brevbuf_answered s
  have ht := exec_brevbuf_answered t
  rw [show ruleChecks .brevbuf t = ruleChecks .brevbuf s from h.degreeChecks, h.n, h.loadArray] at ht
  refine sameUpdate_of_answered h rfl ?checks hs ht
    { s.kept with
      mem := s.kept.mem.storeWords .buf (bitReversed (s.loadArray .buf s.n))
      status := s.kept.status.completed .none } rfl ?words
  case checks =>
    rw [ruleChecks, ← checkDegree_answered]
    exact checksOnly_checkDegree (checksOnly_ok _)
  case words =>
    rw [← h.kept]
    rfl

/-- TBUILD. -/
theorem sameUpdate_tbuild (r : Reg) : SameUpdate (.tbuild r) s t := by
  have hs := exec_tbuild_answered r s
  have ht := exec_tbuild_answered r t
  have hchecks : ruleChecks (.tbuild r) t = ruleChecks (.tbuild r) s := by simp only [ruleChecks, h.q, h.degreeChecks, h.src, h.n]
  rw [hchecks, h.n, h.q, h.src] at ht
  refine sameUpdate_of_answered h rfl ?checks hs ht (s.kept.withTables s.n s.q (s.src r)) (buildTables_succeed s _ _ _) ?tables
  case checks =>
    rw [← tbuildResult_answered]
    exact tbuildResult_checks _ _ _ _
  case tables => rw [← h.kept, buildTables_succeed]

/-- The completion of a command is the same update in both states. -/
theorem exec_sameUpdate (i : Instr) : SameUpdate i s t := by
  cases i with
  | mfact _ rs1 bs => exact sameUpdate_of_scalar h rfl (mfactResult_checks bs (s.src rs1) s.q) rfl (by rw [← h.src, ← h.q]; rfl)
  | mullazy _ rs1 rs2 rs3 bs =>
    exact sameUpdate_of_scalar h rfl (mullazyResult_checks bs (s.src rs1) (s.src rs2) (s.src rs3) s.q) rfl (by rw [← h.src, ← h.q]; rfl)
  | mulmod _ rs1 rs2 =>
    exact sameUpdate_of_scalar h rfl (mulmodResult_checks (s.src rs1) (s.src rs2) s.q) rfl (by rw [← h.src, ← h.q]; rfl)
  | mulmodp _ rs1 rs2 rs3 =>
    exact sameUpdate_of_scalar h rfl (mulmodpResult_checks (s.src rs1) (s.src rs2) (s.src rs3) s.q) rfl (by rw [← h.src, ← h.q]; rfl)
  | bred _ rs1 rs2 => exact sameUpdate_of_scalar h rfl (bredResult_checks (s.src rs1) (s.src rs2) s.q) rfl (by rw [← h.src, ← h.q]; rfl)
  | reduce _ rs1 mf => exact sameUpdate_of_scalar h rfl (reduceResult_checks mf (s.src rs1) s.q) rfl (by rw [← h.src, ← h.q]; rfl)
  | addmod _ rs1 rs2 =>
    exact sameUpdate_of_scalar h rfl (addmodResult_checks (s.src rs1) (s.src rs2) s.q) rfl (by rw [← h.src, ← h.q]; rfl)
  | submod _ rs1 rs2 =>
    exact sameUpdate_of_scalar h rfl (submodResult_checks (s.src rs1) (s.src rs2) s.q) rfl (by rw [← h.src, ← h.q]; rfl)
  | powmod _ rs1 rs2 =>
    exact sameUpdate_of_scalar h rfl (powmodResult_checks (s.src rs1) (s.src rs2) s.q) rfl (by rw [← h.src, ← h.q]; rfl)
  | invmod _ rs1 => exact sameUpdate_of_scalar h rfl (invmodResult_checks (s.src rs1) s.q) rfl (by rw [← h.src, ← h.q]; rfl)
  | bitrev _ rs1 rs2 => exact sameUpdate_of_scalar h rfl (bitrevResult_checks (s.src rs1) (s.src rs2)) rfl (by rw [← h.src]; rfl)
  | brevbuf => exact sameUpdate_brevbuf h
  | tbuild r => exact sameUpdate_tbuild h r
  | fntt m => exact sameUpdate_transform h .fwd m
  | intt m => exact sameUpdate_transform h .inv m

end

/-! ## The live registers of a busy block -/

/-- While a command is pending its view is the snapshot, whatever the live registers hold (10_state.md R32, R53). -/
theorem sameView_live {s : State} {p : Pending} (hp : s.pending = some p) (x : Vector Word 16) (modulus degree : Word) (ctrl : Ctrl) :
    SameView s { s with x := x, modulus := modulus, degree := degree, ctrl := ctrl } where
  operands := (operands_of_pending { s with x := x, modulus := modulus, degree := degree, ctrl := ctrl } hp).trans
    (operands_of_pending s hp).symm
  mem := rfl
  resets := rfl
  status := rfl
  cmd := rfl
  errCmd := rfl
  tblN := rfl
  tblQ := rfl
  tblRoot := rfl
  capacity := rfl
  avail := rfl

/-- The operand register an update writes. -/
theorem update_operand {s : State} {u : Update} {r : Reg} {v : Word} (h : u.operand = some (r, v)) : (s.update u).x[r] = v := by
  simp [State.update, h]

/-- Settles O52. -/
theorem commandsReadTheSnapshot : Obligations.CommandsReadTheSnapshot := by
  intro i s t p x modulus degree ctrl hp hexec
  obtain ⟨u, hs, ht, hoperand⟩ := exec_sameUpdate (sameView_live hp x modulus degree ctrl) i
  cases hexec.symm.trans hs
  refine ⟨_, ht, rfl, rfl, rfl, ⟨rfl, rfl, rfl, rfl⟩, fun rd hrd herr => ?_⟩
  obtain ⟨v, hv⟩ := hoperand rd hrd herr
  rw [update_operand hv, update_operand hv]

/-! ## The lane counts -/

/-- The state with other lane counts. -/
def State.withLanes (s : State) (w n : Nat) : State := { s with params := { s.params with lanesWide := w, lanesNarrow := n } }

/-- An outcome with other lane counts. -/
def outcomeWithLanes (w n : Nat) : Host.Outcome State Fault Refusal → Host.Outcome State Fault Refusal
  | .next t => .next (t.withLanes w n)
  | .fault f => .fault f
  | .refused r => .refused r

section
variable (s : State) (w n : Nat)

theorem sameView_withLanes : SameView s (s.withLanes w n) where
  operands := rfl
  mem := rfl
  resets := rfl
  status := rfl
  cmd := rfl
  errCmd := rfl
  tblN := rfl
  tblQ := rfl
  tblRoot := rfl
  capacity := rfl
  avail := by
    funext ctrl p
    cases p <;> rfl

/-- A command's completion (44_dispatch.md R210). -/
theorem exec_withLanes (i : Instr) : exec i (s.withLanes w n) = outcomeWithLanes w n (exec i s) := by
  obtain ⟨u, hs, ht, -⟩ := exec_sameUpdate (sameView_withLanes s w n) i
  rw [hs, ht]
  rfl

theorem completionStep_withLanes : (s.withLanes w n).completionStep = outcomeWithLanes w n s.completionStep := by
  by_cases hreset : s.inReset = true
  case pos => rw [completionStep_inReset hreset, completionStep_inReset (s := s.withLanes w n) hreset]; rfl
  case neg =>
    rw [Bool.not_eq_true] at hreset
    cases hp : s.pending with
    | none => rw [completionStep_idle hp, completionStep_idle (s := s.withLanes w n) hp]; rfl
    | some p =>
      cases hd : decodeCommand p.word with
      | error e => rw [completionStep_of_illegal hreset hp hd, completionStep_of_illegal (s := s.withLanes w n) hreset hp hd]; rfl
      | ok i =>
        rw [completionStep_of_decodes hreset hp hd, completionStep_of_decodes (s := s.withLanes w n) hreset hp hd, exec_withLanes]

theorem placeWord_withLanes (p : Place) : (s.withLanes w n).placeWord p = s.placeWord p := by cases p <;> rfl

theorem writePlace_withLanes (p : Place) (v : Word) : (s.withLanes w n).writePlace p v = (s.writePlace p v).withLanes w n := by
  cases p <;> rfl

/-- A read of the window. -/
theorem memRead_withLanes (off k : Nat) : (s.withLanes w n).memRead off k = (s.memRead off k).withLanes w n := by
  unfold State.memRead
  simp only [placeWord_withLanes, apply_ite fun t : State => t.withLanes w n]
  rfl

/-- A write of the window. -/
theorem memWrite_withLanes (off : Nat) (lanes : List Byte) :
    (s.withLanes w n).memWrite off lanes = (s.memWrite off lanes).withLanes w n := by
  unfold State.memWrite
  simp only [writePlace_withLanes, apply_ite fun t : State => t.withLanes w n]
  rfl

/-- Any input. -/
theorem inputStep_withLanes (input : Input) : (s.withLanes w n).inputStep input = outcomeWithLanes w n (s.inputStep input) := by
  cases input with
  | completion => exact completionStep_withLanes s w n
  | memRead addr k =>
    rw [State.inputStep, State.inputStep, State.busRead, State.busRead, memRead_withLanes, apply_ite (outcomeWithLanes w n)]
    rfl
  | memWrite addr lanes =>
    rw [State.inputStep, State.inputStep, State.busWrite, State.busWrite, memWrite_withLanes, apply_ite (outcomeWithLanes w n)]
    rfl
  | reset asserted =>
    rw [State.inputStep, State.inputStep, State.setReset, State.setReset, outcomeWithLanes, apply_ite fun t : State => t.withLanes w n,
      apply_ite fun t : State => t.withLanes w n]
    rfl

end

/-- Settles O51: by the next input, or the completion where there is none. -/
theorem laneCountsAreInvisible : Obligations.LaneCountsAreInvisible := by
  intro s w n
  change step (s.withLanes w n) = outcomeWithLanes w n (step s)
  rcases hin : s.inputs with _ | ⟨input, rest⟩
  case nil =>
    rw [step_of_no_inputs hin, step_of_no_inputs (s := s.withLanes w n) hin, completionStep_withLanes]
  case cons =>
    have hs : step s = State.inputStep { s with inputs := rest } input := by rw [step, State.nextStep, hin]
    have ht : step (s.withLanes w n) = State.inputStep (State.withLanes { s with inputs := rest } w n) input := by
      rw [step, State.nextStep, show (s.withLanes w n).inputs = input :: rest from hin]
      rfl
    rw [hs, ht, inputStep_withLanes]

end Sys2Proof.Machine
